-- ==== Sys2Proof/Word.lean ====
section
/-! DEFINITION. The word types of the block: what the spec treats as bits (00 section 6, 00 R6). -/

namespace Sys2Proof

/-- A register of the register port, a CMD word, an address on the memory port: 32 bits (00 R6: `XLEN`, `AW`). -/
abbrev Word := BitVec 32

/-- The 16-bit fields WIDTH, HEIGHT, XOFF, YOFF (10 R15, R16, R18, R19). -/
abbrev Half := BitVec 16

/-- One byte of pixel memory (10 R29); also the field KEY (10 R17). -/
abbrev Byte := BitVec 8

/-- A 4-bit colour, and a nibble of a packed tile (20 R43, R44). -/
abbrev Colour := BitVec 4

end Sys2Proof
end

