-- ==== Sys2Proof/Config.lean ====
section
/-! DEFINITION. What is fixed for one block: the constants of 00 R4, the OPEN parameters of 00 R5, R6 and 92 table C as a
record of plain data, what an unwritten byte of pixel memory reads as, and the one free value. -/

namespace Sys2Proof

/-- A run of consecutive pixel-memory addresses that hold real memory (92 table C, the populated set). -/
structure Region where
  base : Nat
  size : Nat
  deriving DecidableEq, Repr

/-- The OPEN parameters of one instance of the block (00 R5, R6; 92 table C): constants for its life. The claims
quantify over every value of the record. -/
structure Instance where
  /-- `TILEMAP_SCREEN_W`, pixels, `1 .. 32767` (00 R5). -/
  tilemapW : Nat
  /-- `TILEMAP_SCREEN_H`, rows, `1 .. 32767` (00 R5). -/
  tilemapH : Nat
  /-- `REG_BASE`, a multiple of 64 (00 R6). -/
  regBase : Nat
  /-- The populated set of pixel memory (20 R47). -/
  populated : List Region
  deriving DecidableEq, Repr

namespace Config

/-- The number of bytes of the pixel memory, `2^32` (10 R29, 20 R48). -/
abbrev memorySize : Nat := 2 ^ 32

/-- `PLANES` (00 R4). -/
abbrev planes : Nat := 4
/-- `PIX_PER_BYTE` (00 R4). -/
abbrev pixPerByte : Nat := 8
/-- `TILE_W` (00 R4). -/
abbrev tileW : Nat := 16
/-- `TILE_H` (00 R4). -/
abbrev tileH : Nat := 16
/-- `TILE_PLANE_BYTES` (00 R4). -/
abbrev tilePlaneBytes : Nat := 32
/-- `TILE_SRC_BYTES` (00 R4). -/
abbrev tileSrcBytes : Nat := 128
/-- `TILE_ROW_BYTES` (00 R4). -/
abbrev tileRowBytes : Nat := 8
/-- `TILE_PACKED_BYTES` (00 R4). -/
abbrev tilePackedBytes : Nat := 128
/-- `TILE_KEY`, the transparent nibble of DRAWTILE (00 R4, 42 R115). -/
abbrev tileKey : Colour := 0

/-- What a byte of pixel memory that nothing has listed reads as. DESIGN CHOICE (unsafe only for claims about the
memory of `State.reset`; log entry 4): the spec leaves the content at power-up unspecified (10 R30). -/
def unwrittenByte : Byte := 0

/-- The instance of `State.reset`. DESIGN CHOICE (unsafe, log entry 3): the spec leaves these OPEN; 32 by 24 are the
parameters of the vectors of 95 section 2.3, and all of pixel memory is populated. -/
def defaultInstance : Instance where
  tilemapW := 32
  tilemapH := 24
  regBase := 0
  populated := [⟨0, memorySize⟩]

/-- The free byte: nothing constrains its values. It stands where 93 U6 and 70 R141 say `any value` (log entries 8, 9); it
is applied to the counter `draws` of State. -/
opaque freeByte : Nat → Byte

end Config

end Sys2Proof
end

