-- ==== Sys2Proof/Syntax.lean ====
section
/-! DEFINITION. The command set (30 R71), the names of the register block (10 R11) and the host's transactions
(30 R77, R78, R80; 60 R129). -/

namespace Sys2Proof

/-- The command set: one constructor per row of spec/opcode_table.json. A command word carries no operand: every operand
comes from the operand registers (30 R70, R75). -/
inductive Instr where
  /-- DECODE, the bit-plane decoder, word `0x00000001` (40 R90). -/
  | decode
  /-- TILECONV, the tile nibble converter, word `0x00000002` (41 R100). -/
  | tileconv
  /-- DRAWTILE, the clipped tile blit, word `0x00000003` (42 R110). -/
  | drawtile
  deriving DecidableEq, Repr

/-- The eight operand registers (10 R12 to R19). -/
inductive OperandName where
  | src | dst | pitch | width | height | key | xoff | yoff
  deriving DecidableEq, Repr

/-- What stands at a word of the register block (the map of 10 R11; reserved offsets 10 R23). -/
inductive Reg where
  | cmd
  | status
  | operand (name : OperandName)
  | reserved
  deriving DecidableEq, Repr

/-- The size of an access on the host's bus. Only `word` is defined on the register port (10 R11, 93 U9). -/
inductive AccessSize where
  | byte | half | word
  deriving DecidableEq, Repr

/-- One entry of the host's queue: everything the world outside the block can do to it (60 R129, R133), and the two
entries that let the engine move. -/
inductive HostEvent where
  /-- A write of `value` on the host's bus at `addr` (30 R80). -/
  | regWrite (addr : Nat) (size : AccessSize) (value : Word)
  /-- A read on the host's bus at `addr` (30 R80). -/
  | regRead (addr : Nat) (size : AccessSize)
  /-- The reset input goes to this level: asserted, or released (70 R140). -/
  | resetInput (asserted : Bool)
  /-- The host, or another agent that is not the engine, writes a byte of pixel memory (10 R29). -/
  | memWrite (addr : Word) (value : Byte)
  /-- The host, or another agent that is not the engine, reads a byte of pixel memory (10 R29). -/
  | memRead (addr : Word)
  /-- Nothing from the host: the engine, if it runs, makes its next move. -/
  | turn
  /-- `WAIT` (30 R78): STATUS is read again and again until BUSY = 0. -/
  | wait
  deriving DecidableEq, Repr

end Sys2Proof
end

