-- ==== Sys2Proof/WellFormed.lean ====
section
/-! DEFINITION. What is well formed: a CMD word (30 R70, R71, R73), a register access (10 R11, 93 U9), an instance
(00 R5, R6). A command has no operand field, so every term of `Instr` is well formed. -/

namespace Sys2Proof

/-- First check of a CMD word: bits [31:4] are 0 (30 R70). -/
def cmdReservedOk (v : Word) : Bool := v.toNat / 16 == 0

/-- Second check of a CMD word: OP, bits [3:0], is 1, 2 or 3 (30 R71). -/
def cmdOpOk (v : Word) : Bool := 1 ≤ v.toNat % 16 && v.toNat % 16 ≤ 3

/-- A CMD word that is not reserved (30 R73). -/
def CmdWord.wellFormed (v : Word) : Bool := cmdReservedOk v && cmdOpOk v

/-- A command is well formed: it has no field that could be out of range (30 R70). -/
def Instr.wellFormed : Instr → Bool
  | .decode => true
  | .tileconv => true
  | .drawtile => true

/-- First check of a register access: the address lies in the 64 bytes of the block (10 R11). -/
def Instance.inBlock (p : Instance) (addr : Nat) : Bool := p.regBase ≤ addr && addr < p.regBase + 64

/-- Second check of a register access: one whole aligned 32-bit word (10 R11, 93 U9). -/
def Instance.wholeWord (p : Instance) (addr : Nat) (size : AccessSize) : Bool :=
  size == .word && (addr - p.regBase) % 4 == 0

/-- A register access the spec defines (10 R11). -/
def Instance.regAccessOk (p : Instance) (addr : Nat) (size : AccessSize) : Bool :=
  p.inBlock addr && p.wholeWord addr size

/-- The ranges of the OPEN parameters (00 R5, R6; 92 table C). -/
def Instance.wellFormed (p : Instance) : Bool :=
  1 ≤ p.tilemapW && p.tilemapW ≤ 32767 && 1 ≤ p.tilemapH && p.tilemapH ≤ 32767 && p.regBase % 64 == 0
    && p.populated.all fun r => r.base + r.size ≤ Config.memorySize

end Sys2Proof
end

