-- ==== Sys2Proof/Decode.lean ====
section
/-! DEFINITION. The decoder of a CMD word, total on the 2^32 words (30 R73), rejecting by name; then the encoder. -/

namespace Sys2Proof

/-- Why a CMD word is no command (30 R73); either way it is rejected with E_OP (60 R122). -/
inductive Reserved where
  /-- A bit of [31:4] is not 0. -/
  | reservedBits
  /-- OP is 0 or 4 .. 15. -/
  | reservedOpcode
  deriving DecidableEq, Repr

/-- The opcode field OP, bits [3:0] of a CMD word (30 R70). -/
def cmdOp (v : Word) : BitVec 4 := v.extractLsb' 0 4

/-- The reserved field, bits [31:4] of a CMD word (30 R70). -/
def cmdReserved (v : Word) : BitVec 28 := v.extractLsb' 4 28

/-- The command a CMD word stands for (30 R70, R71), or why it is reserved (30 R73). -/
def decode (v : Word) : Except Reserved Instr :=
  if cmdReserved v ≠ 0 then .error .reservedBits
  else if cmdOp v = 1 then .ok .decode
  else if cmdOp v = 2 then .ok .tileconv
  else if cmdOp v = 3 then .ok .drawtile
  else .error .reservedOpcode

/-- The CMD word of a command, from the opcode map of 30 R71. -/
def encode : Instr → Word
  | .decode => 0x00000001#32
  | .tileconv => 0x00000002#32
  | .drawtile => 0x00000003#32

/-- The CMD word whose lowest `nbits` bits are those of `w` and whose other bits are 0. A command is one 32-bit value on
the register port, which has no byte order (20 R50; log entry 17). -/
def tableWord (nbits w : Nat) : Word := BitVec.ofNat 32 (w % 2 ^ nbits)

/-- The command the decoder reads from the table's word. -/
def decodeTableWord (nbits w : Nat) : Option Instr :=
  match decode (tableWord nbits w) with
  | .ok i => some i
  | .error _ => none

end Sys2Proof
end

