-- ==== Sys2Proof/Machine/State.lean ====
section
/-! DEFINITION. The state of the machine as plain data (10 R10): operand registers, status bits, the engine's run state
with its latches and sequencer position, pixel memory, the reset input; beside them the instance's constants, the host's queue and the
model's own fields. `State.reset` is the state after reset (10 R30, 70 R140). -/

namespace Sys2Proof.Machine

/-- Pixel memory: the listed bytes, addresses strictly rising, no entry equal to `Config.unwrittenByte` (10 R29). -/
abbrev Memory := List Host.Cell

/-- The eight operand registers, each its field (10 R12 to R19). -/
structure OperandRegs where
  /-- SRC (10 R12). -/
  src : Word
  /-- DST (10 R13). -/
  dst : Word
  /-- PITCH (10 R14). -/
  pitch : Word
  /-- WIDTH (10 R15). -/
  width : Half
  /-- HEIGHT (10 R16). -/
  height : Half
  /-- KEY (10 R17). -/
  key : Byte
  /-- XOFF, two's complement (10 R18). -/
  xoff : Half
  /-- YOFF, two's complement (10 R19). -/
  yoff : Half
  deriving DecidableEq, Repr

/-- The stored bits of STATUS (10 R21). BUSY is not stored here: it is 1 exactly while the engine runs (log entry 10). -/
structure Status where
  /-- DONE, bit 1. -/
  done : Bool
  /-- E_OP, bit 4. -/
  eOp : Bool
  /-- E_PARAM, bit 5. -/
  eParam : Bool
  /-- E_BUSY, bit 6. -/
  eBusy : Bool
  deriving DecidableEq, Repr

/-- The four plane bytes of one source byte column (20 R44). -/
structure Planes where
  b0 : Byte
  b1 : Byte
  b2 : Byte
  b3 : Byte
  deriving DecidableEq, Repr

/-- The clamped values of a DRAWTILE run (42 R110): offset, effective size, advanced source address. -/
structure Clip where
  x : Int
  y : Int
  w : Int
  h : Int
  src : Nat
  deriving DecidableEq, Repr

/-- The sequencer position (10 R25): the engine's next move. Each position holds the bytes read so far and no other. -/
inductive Pos where
  /-- About to read plane 0 of row `y`, byte column `xb`. -/
  | plane0 (y xb : Nat)
  /-- About to read plane 1. -/
  | plane1 (y xb : Nat) (b0 : Byte)
  /-- About to read plane 2. -/
  | plane2 (y xb : Nat) (b0 b1 : Byte)
  /-- About to read plane 3. -/
  | plane3 (y xb : Nat) (b0 b1 b2 : Byte)
  /-- At pixel `i` of the column: DECODE and an even pixel of TILECONV write, an odd pixel of TILECONV reads. -/
  | pixel (y xb i : Nat) (b : Planes)
  /-- At the write of TILECONV's odd pixel `i`, the destination byte `old` just read. -/
  | merge (y xb i : Nat) (b : Planes) (old : Byte)
  /-- DRAWTILE: about to read byte `j` of row `r`. -/
  | packed (c : Clip) (r j : Nat)
  /-- DRAWTILE: at the high nibble of the byte `v` just read. -/
  | high (c : Clip) (r j : Nat) (v : Byte)
  /-- DRAWTILE: at the low nibble of the byte `v`. -/
  | low (c : Clip) (r j : Nat) (v : Byte)
  /-- No access is left: the next move is the completion (30 R74). -/
  | finished
  deriving DecidableEq, Repr

/-- A running command: the latches (10 R24), the position (10 R25), and whether another agent has written into the
footprint since acceptance (93 U6; the model's own bit). -/
structure Run where
  /-- `L.OP`. -/
  op : Instr
  /-- `L.SRC` to `L.YOFF`. -/
  regs : OperandRegs
  /-- The sequencer position. -/
  pos : Pos
  /-- The exclusivity rule 70 R146 has been broken in this run. -/
  breached : Bool
  deriving DecidableEq, Repr

/-- The engine's run state (10 R10). Latches and position exist only in a run (10 R24, R25; log entry 11). -/
inductive Engine where
  | idle
  | running (r : Run)
  deriving DecidableEq, Repr

/-- The level of description of 00 R8. -/
inductive Level where
  /-- One atomic step per command: the exclusivity rule 70 R146 is assumed. -/
  | command
  /-- One memory access per step: the host may act between any two. -/
  | access
  deriving DecidableEq, Repr

/-- The host's side: what it will do, and what its last reads returned (log entries 2, 13). -/
structure HostSide where
  /-- The pending actions, next first. -/
  queue : List HostEvent
  /-- The value the last register read returned (10 R11). -/
  regData : Word
  /-- The byte the host's last pixel-memory read returned. -/
  memData : Byte
  deriving DecidableEq, Repr

/-- The whole machine. -/
structure State where
  /-- The operand registers (10 R12 to R19). -/
  opnd : OperandRegs
  /-- DONE and the error bits of STATUS (10 R21). -/
  status : Status
  /-- The engine, with latches and position while it runs; BUSY (10 R10, R21). -/
  engine : Engine
  /-- Pixel memory (10 R29). -/
  mem : Memory
  /-- The level of the reset input: true while reset is asserted (70 R140; log entry 19). -/
  resetAsserted : Bool
  /-- The constants of the instance (00 R5, R6). -/
  inst : Instance
  /-- Which of the two levels of 00 R8 the machine is run at (log entry 1). -/
  level : Level
  /-- The host (00 R7). -/
  host : HostSide
  /-- How many free bytes have been taken (log entry 9). -/
  draws : Nat
  deriving DecidableEq, Repr

/-- Why the machine stops. No command of the block faults: its memory port cannot fail (20 R47) and its errors are status
bits (60 R121). -/
inductive Fault where
  /-- Raised by a `memRead` or `memWrite` of the HOST at an address that holds no memory (20 R47, R49). Safe: the spec
  says nothing of such an access, and the machine stops. -/
  | hostAccessUnpopulated
  deriving DecidableEq, Repr

/-- Why the model gives a step no meaning. -/
inductive Refusal where
  /-- Raised by `exec` for a command that has no meaning yet (none in this model). Safe. -/
  | notModelled (mnemonic : String)
  /-- Raised at the acceptance of a command whose footprint (20 R58) leaves the populated set, as 20 R47 and 93 U4 ask of a
  model. Safe. -/
  | footprintNotPopulated
  /-- Raised by a register access that is not an aligned 32-bit access of one whole register (10 R11, 93 U9). Safe. -/
  | registerAccessUndefined
  /-- Raised by a `regRead` or `regWrite` outside the 64 bytes of the register block (10 R11): the block never sees it. Safe. -/
  | notInRegisterBlock
  deriving DecidableEq, Repr

/-- What a step answers. -/
abbrev Result := Host.Outcome State Fault Refusal

/-- The operand registers after reset: all 0 (10 R30). -/
def OperandRegs.reset : OperandRegs := ⟨0, 0, 0, 0, 0, 0, 0, 0⟩

/-- The stored status bits after reset: all 0 (10 R30). -/
def Status.reset : Status := ⟨false, false, false, false⟩

/-- The state after reset of an instance `p` whose pixel memory holds `m`: the moment reset is released (10 R30, 70 R140; log
entry 19). The host's queue is empty; level, read data and counter are the model's own (log entries 1, 2, 9, 13). -/
def State.resetOf (p : Instance) (m : Memory) : State where
  opnd := OperandRegs.reset
  status := Status.reset
  engine := .idle
  mem := m
  resetAsserted := false
  inst := p
  level := .command
  host := ⟨[], 0, 0⟩
  draws := 0

/-- The machine right after reset: the default instance, no byte of memory listed (10 R30; log entries 3, 4). -/
def State.reset : State := State.resetOf Config.defaultInstance []

end Sys2Proof.Machine
end

