-- ==== Sys2Proof/Machine/Flags.lean ====
section
/-! DEFINITION. STATUS: its bits, the word a read returns, how bits are set and cleared (10 R21, R27), and the cause codes
of the command errors (60 R121). -/

namespace Sys2Proof.Machine

/-- BUSY: 1 from the acceptance of a command until its completion (10 R21), that is while the engine runs. -/
def Engine.busy : Engine → Bool
  | .idle => false
  | .running _ => true

/-- STATUS.BUSY (10 R21). -/
def State.busy (s : State) : Bool := s.engine.busy

/-- The bit positions of STATUS (10 R11, R21). -/
def busyBit : Nat := 0
/-- DONE. -/
def doneBit : Nat := 1
/-- E_OP. -/
def eOpBit : Nat := 4
/-- E_PARAM. -/
def eParamBit : Nat := 5
/-- E_BUSY. -/
def eBusyBit : Nat := 6

/-- The 32-bit word with bit `k` equal to `b` and every other bit 0. -/
def flagAt (b : Bool) (k : Nat) : Word := if b then 1#32 <<< k else 0

/-- The word a read of STATUS returns (10 R21): the five bits in their places, the others 0. -/
def statusWord (busy : Bool) (f : Status) : Word :=
  flagAt busy busyBit ||| flagAt f.done doneBit ||| flagAt f.eOp eOpBit ||| flagAt f.eParam eParamBit
    ||| flagAt f.eBusy eBusyBit

/-- The word a read of STATUS returns in `s`. -/
def State.statusWord (s : State) : Word := Machine.statusWord s.busy s.status

/-- One update of the stored bits: a bit of `set` becomes 1, a bit of `clear` becomes 0, and where both meet the set wins
(10 R21). -/
def Status.update (f set clear : Status) : Status where
  done := set.done || (f.done && !clear.done)
  eOp := set.eOp || (f.eOp && !clear.eOp)
  eParam := set.eParam || (f.eParam && !clear.eParam)
  eBusy := set.eBusy || (f.eBusy && !clear.eBusy)

/-- No bit. -/
def Status.none : Status := ⟨false, false, false, false⟩

/-- The bits a write of `v` to STATUS clears: bits 1, 4, 5, 6 where `v` holds a 1 (10 R21). -/
def statusClearMask (v : Word) : Status where
  done := v.getLsbD doneBit
  eOp := v.getLsbD eOpBit
  eParam := v.getLsbD eParamBit
  eBusy := v.getLsbD eBusyBit

/-- The three command errors (60 R121). -/
inductive CmdError where
  | eOp
  | eParam
  | eBusy
  deriving DecidableEq, Repr

/-- The cause code of an error: its STATUS bit number (60 R121, R122, R123, R124). -/
def cmdErrorCode : CmdError → Nat
  | .eOp => eOpBit
  | .eParam => eParamBit
  | .eBusy => eBusyBit

/-- The stored bits an error sets: its own bit and no other (60 R121). -/
def cmdErrorBits : CmdError → Status
  | .eOp => ⟨false, true, false, false⟩
  | .eParam => ⟨false, false, true, false⟩
  | .eBusy => ⟨false, false, false, true⟩

/-- The bit DONE alone. -/
def doneBits : Status := ⟨true, false, false, false⟩

end Sys2Proof.Machine
end

