-- ==== Sys2Proof/Machine/Ops.lean ====
section
/-! DEFINITION. The named operations over memory, registers and status: the memory port (20 R46, R47, R48), the register
file (10 R11 to R23), raising a command error (60 R121), accepting and completing a command (30 R72, R74), and free bytes
(93 U6). -/

namespace Sys2Proof.Machine

/-! ## Pixel memory -/

/-- The byte at the exact address `a` (an unlisted byte is `Config.unwrittenByte`). -/
def Memory.get : Memory → Nat → Byte
  | [], _ => Config.unwrittenByte
  | (k, b) :: t, a => if k = a then b else Memory.get t a

/-- The entry for byte `v` at `a` before `t`: none if `v` is what an unlisted byte reads as. -/
def Memory.cell (a : Nat) (v : Byte) (t : Memory) : Memory :=
  if v = Config.unwrittenByte then t else (a, v) :: t

/-- Memory with byte `v` at the exact address `a`, in canonical form. -/
def Memory.set : Memory → Nat → Byte → Memory
  | [], a, v => Memory.cell a v []
  | (k, b) :: t, a, v =>
    if a < k then Memory.cell a v ((k, b) :: t)
    else if a = k then Memory.cell a v t
    else (k, b) :: Memory.set t a v

/-- The canonical form from address `lo` upward: addresses strictly rising and inside the space, no entry equal to what an
unlisted byte reads as. -/
def Memory.risingFrom : Nat → Memory → Bool
  | _, [] => true
  | lo, (k, b) :: t => lo ≤ k && k < Config.memorySize && b != Config.unwrittenByte && Memory.risingFrom (k + 1) t

/-- The canonical form of pixel memory. -/
def Memory.wf (m : Memory) : Bool := Memory.risingFrom 0 m

/-- An address expression at the moment of the access: reduced modulo `2^32` (20 R48). -/
def busAddr (a : Nat) : Nat := a % Config.memorySize

/-- `MemRead(a, 1)` (00 section 6; 20 R47, R48). -/
def memRead (m : Memory) (a : Nat) : Byte := Memory.get m (busAddr a)

/-- `MemWrite(a, 1, v)` (00 section 6; 20 R47, R48). -/
def memWrite (m : Memory) (a : Nat) (v : Byte) : Memory := Memory.set m (busAddr a) v

/-- `for k in 0 .. n - 1: body k`, in that order (00 section 6). -/
def loopUp : Nat → (Nat → Memory → Memory) → Memory → Memory
  | 0, _, m => m
  | n + 1, body, m => body n (loopUp n body m)

/-- `a` is an address of the region. -/
def Region.holds (r : Region) (a : Nat) : Bool := r.base ≤ a && a < r.base + r.size

/-- `a` is a populated address of the instance (20 R47). -/
def populatedAt (p : Instance) (a : Nat) : Bool := p.populated.any fun r => Region.holds r a

/-- Every address of the list is populated. -/
def allPopulated (p : Instance) (addrs : List Nat) : Bool := addrs.all fun a => populatedAt p a

/-! ## Registers -/

/-- The register at a word offset of the block (the map of 10 R11; 0x28 to 0x3C reserved, 10 R23). -/
def regAt (offset : Nat) : Reg :=
  if offset = 0x00 then .cmd
  else if offset = 0x04 then .status
  else if offset = 0x08 then .operand .src
  else if offset = 0x0C then .operand .dst
  else if offset = 0x10 then .operand .pitch
  else if offset = 0x14 then .operand .width
  else if offset = 0x18 then .operand .height
  else if offset = 0x1C then .operand .key
  else if offset = 0x20 then .operand .xoff
  else if offset = 0x24 then .operand .yoff
  else .reserved

/-- `x[NAME] <- v` of an operand register: the low bits that form the field are kept (10 R11 to R19). -/
def OperandRegs.write (o : OperandRegs) (n : OperandName) (v : Word) : OperandRegs :=
  match n with
  | .src => { o with src := v }
  | .dst => { o with dst := v }
  | .pitch => { o with pitch := v }
  | .width => { o with width := v.setWidth 16 }
  | .height => { o with height := v.setWidth 16 }
  | .key => { o with key := v.setWidth 8 }
  | .xoff => { o with xoff := v.setWidth 16 }
  | .yoff => { o with yoff := v.setWidth 16 }

/-- What a read of an operand register returns: the field zero-extended, XOFF and YOFF sign-extended (10 R11 to R19). -/
def OperandRegs.read (o : OperandRegs) (n : OperandName) : Word :=
  match n with
  | .src => o.src
  | .dst => o.dst
  | .pitch => o.pitch
  | .width => o.width.setWidth 32
  | .height => o.height.setWidth 32
  | .key => o.key.setWidth 32
  | .xoff => o.xoff.signExtend 32
  | .yoff => o.yoff.signExtend 32

/-- What a read of a register returns: CMD and the reserved offsets read 0 (10 R20, R23). -/
def State.readReg (s : State) (r : Reg) : Word :=
  match r with
  | .cmd => 0
  | .status => s.statusWord
  | .operand n => s.opnd.read n
  | .reserved => 0

/-! ## Command errors, acceptance, completion -/

/-- `raise CmdError(e)`: the bit of `e` is set and nothing else changes (60 R121). -/
def State.raise (s : State) (e : CmdError) : State :=
  { s with status := s.status.update (cmdErrorBits e) Status.none }

/-- A write of `v` to STATUS: write-1-to-clear; the way out of an error (10 R21, 60 R127). While reset is asserted every bit is
0 (70 R140) and there is none to clear. -/
def State.writeStatus (s : State) (v : Word) : State :=
  { s with status := s.status.update Status.none (statusClearMask v) }

/-- DONE is cleared by a CMD write made while BUSY = 0 (10 R21, 30 R72). -/
def State.clearDone (s : State) : State :=
  { s with status := s.status.update Status.none doneBits }

/-- The completion of a command: BUSY <- 0, DONE <- 1 (30 R74). -/
def State.complete (s : State) : State :=
  { s with engine := .idle, status := s.status.update doneBits Status.none }

/-- The checks of 30 R72 that come before the acceptance of a valid command word, in their order: BUSY, then the operand
check. `accept` is what follows them. While reset is asserted the block stays as it is (70 R140; log entry 19). -/
def State.present (s : State) (badParam : Bool) (accept : State → Result) : Result :=
  if s.resetAsserted then .next s
  else if s.busy then .next (s.raise .eBusy)
  else if badParam then .next (s.clearDone.raise .eParam)
  else accept s.clearDone

/-- Acceptance (30 R72) of command `op`, whose footprint is `reads` and `writes` (20 R58). A footprint that leaves the
populated set is refused (20 R47). At level `command` the pseudocode `run` and the completion follow in the same step
(00 R8); at level `access` the operands are latched and the engine stands at `start`, BUSY = 1 (10 R24). -/
def State.launch (s : State) (op : Instr) (reads writes : List Nat) (start : Pos) (run : Memory → Memory) : Result :=
  if allPopulated s.inst reads && allPopulated s.inst writes then
    match s.level with
    | .command => .next { s with mem := run s.mem }.complete
    | .access => .next { s with engine := .running ⟨op, s.opnd, start, false⟩ }
  else .refused .footprintNotPopulated

/-- A reserved word written to CMD (30 R72, R73; 60 R122). While reset is asserted the block stays as it is (70 R140; log
entry 19). -/
def State.rejectReserved (s : State) : State :=
  if s.resetAsserted then s else if s.busy then s.raise .eBusy else s.clearDone.raise .eOp

/-! ## Free bytes -/

/-- The byte at `a` becomes a free byte (93 U6). -/
def State.freeByteAt (s : State) (a : Nat) : State :=
  { s with mem := memWrite s.mem a (Config.freeByte s.draws), draws := s.draws + 1 }

/-- Every byte of the list becomes a free byte (93 U6, 70 R141). -/
def State.scramble (s : State) (addrs : List Nat) : State := addrs.foldl State.freeByteAt s

end Sys2Proof.Machine
end

