-- ==== Sys2Proof/Machine/Operands.lean ====
section
/-! DEFINITION. Operand values (30 R75), the data formats and their address formulas (20 R40 to R44), colour composition
(20 R44), and the clamp tests of DRAWTILE (42 R111). -/

namespace Sys2Proof.Machine

/-! ## Operand assembly (30 R75) -/

/-- SRC as an integer `0 .. 2^32 - 1`. -/
def OperandRegs.srcAddr (o : OperandRegs) : Nat := o.src.toNat
/-- DST as an integer `0 .. 2^32 - 1`. -/
def OperandRegs.dstAddr (o : OperandRegs) : Nat := o.dst.toNat
/-- PITCH as an integer `0 .. 2^32 - 1`. -/
def OperandRegs.pitchBytes (o : OperandRegs) : Nat := o.pitch.toNat
/-- WIDTH as an integer `0 .. 65535`. -/
def OperandRegs.widthPixels (o : OperandRegs) : Nat := o.width.toNat
/-- HEIGHT as an integer `0 .. 65535`. -/
def OperandRegs.heightRows (o : OperandRegs) : Nat := o.height.toNat
/-- `sint_16(XOFF)`. -/
def OperandRegs.xOffset (o : OperandRegs) : Int := o.xoff.toInt
/-- `sint_16(YOFF)`. -/
def OperandRegs.yOffset (o : OperandRegs) : Int := o.yoff.toInt

/-! ## Planar data (20 R40, R41, R44) -/

/-- The layout of a PlanarImage: first byte, plane size, bytes per row of one plane, rows (20 R40). -/
structure PlanarLayout where
  base : Nat
  planeSize : Nat
  bytesPerRow : Nat
  rows : Nat
  deriving DecidableEq, Repr

/-- DECODE's source: `BPR = WIDTH div 8`, `PS = HEIGHT * BPR` (20 R40, 40 R90). -/
def decodeLayout (o : OperandRegs) : PlanarLayout where
  base := o.srcAddr
  planeSize := o.heightRows * (o.widthPixels / Config.pixPerByte)
  bytesPerRow := o.widthPixels / Config.pixPerByte
  rows := o.heightRows

/-- TILECONV's source: the planar tile, 16 rows of 2 bytes, planes of 32 bytes (20 R41). -/
def tileLayout (o : OperandRegs) : PlanarLayout where
  base := o.srcAddr
  planeSize := Config.tilePlaneBytes
  bytesPerRow := Config.tileW / Config.pixPerByte
  rows := Config.tileH

/-- `addr(p, y, xb) = SRC + p * PS + y * BPR + xb` (20 R40). -/
def planeAddr (l : PlanarLayout) (p y xb : Nat) : Nat := l.base + p * l.planeSize + (y * l.bytesPerRow + xb)

/-- The four plane bytes of row `y`, byte column `xb`, each read once (40 R90). -/
def readPlanes (l : PlanarLayout) (m : Memory) (y xb : Nat) : Planes where
  b0 := memRead m (planeAddr l 0 y xb)
  b1 := memRead m (planeAddr l 1 y xb)
  b2 := memRead m (planeAddr l 2 y xb)
  b3 := memRead m (planeAddr l 3 y xb)

/-- The source bytes of the layout: `4 * PS` consecutive bytes (20 R40, R58). -/
def planarFootprint (l : PlanarLayout) : List Nat :=
  (List.range (Config.planes * l.planeSize)).map fun k => busAddr (l.base + k)

/-- The colour bit that plane `p` supplies: bit `p` (20 R44; 92 D9; 93 U10). -/
def planeBit (p : Nat) : Nat := p

/-- The bit of pixel `i` in a plane byte, bit `7 - i` (20 R40), as a colour of that one bit. -/
def pixelBit (b : Byte) (i : Nat) : Colour := if b.getLsbD (7 - i) then 1 else 0

/-- `c = b_0[7-i] | (b_1[7-i] << 1) | (b_2[7-i] << 2) | (b_3[7-i] << 3)` (20 R44). -/
def colour (b : Planes) (i : Nat) : Colour :=
  (pixelBit b.b0 i <<< planeBit 0) ||| (pixelBit b.b1 i <<< planeBit 1) ||| (pixelBit b.b2 i <<< planeBit 2)
    ||| (pixelBit b.b3 i <<< planeBit 3)

/-- `zext_8(c)`: the byte of a pixel (20 R42; 92 D11). -/
def pixelByte (c : Colour) : Byte := c.setWidth 8

/-! ## Packed data (20 R43) -/

/-- The byte of pixel `(x, y)` of a byte-per-pixel buffer at `base` with pitch `pitch` (20 R42). -/
def pixelAddr (base pitch y x : Nat) : Nat := base + y * pitch + x

/-- Byte `j` of row `y` of a packed tile at `base` (20 R43). -/
def packedAddr (base y j : Nat) : Nat := base + Config.tileRowBytes * y + j

/-- The even pixel of a pair in its place: the high nibble, the low nibble 0 (20 R43, 41 R100). -/
def evenPixel (c : Colour) : Byte := c.setWidth 8 <<< 4

/-- The odd pixel ORed into the low nibble (20 R43, 41 R100). -/
def oddPixel (old : Byte) (c : Colour) : Byte := old ||| c.setWidth 8

/-- The high nibble of a packed byte, the even pixel (20 R43). -/
def highNibble (v : Byte) : Colour := v.extractLsb' 4 4

/-- The low nibble of a packed byte, the odd pixel (20 R43). -/
def lowNibble (v : Byte) : Colour := v.extractLsb' 0 4

/-! ## The clamp of DRAWTILE (42 R110, R111) -/

/-- Half of a count, rounded down (42 R112; 92 D16; 93 U10). -/
def halve (n : Nat) : Nat := n / 2

/-- The values before the four tests (42 R110). -/
def clipStart (o : OperandRegs) : Clip where
  x := o.xOffset
  y := o.yOffset
  w := (Config.tileW : Nat)
  h := (Config.tileH : Nat)
  src := o.srcAddr

/-- Left edge (42 R111 (1)). -/
def clipLeft (c : Clip) : Clip :=
  if c.x < 0 then { c with w := c.w + c.x, src := c.src + halve (-c.x).toNat, x := 0 } else c

/-- Right edge (42 R111 (2)). -/
def clipRight (tw : Nat) (c : Clip) : Clip := if c.x + c.w > tw then { c with w := tw - c.x } else c

/-- Top edge (42 R111 (3)). -/
def clipTop (c : Clip) : Clip :=
  if c.y < 0 then { c with h := c.h + c.y, src := c.src + Config.tileRowBytes * (-c.y).toNat, y := 0 } else c

/-- Bottom edge (42 R111 (4)). -/
def clipBottom (th : Nat) (c : Clip) : Clip := if c.y + c.h > th then { c with h := th - c.y } else c

/-- The four tests in the engine's order: left, right, top, bottom (42 R111). -/
def clipTile (p : Instance) (o : OperandRegs) : Clip :=
  clipBottom p.tilemapH (clipTop (clipRight p.tilemapW (clipLeft (clipStart o))))

/-- `w <= 0 or h <= 0`: nothing is drawn (42 R113). -/
def Clip.empty (c : Clip) : Bool := c.w ≤ 0 || c.h ≤ 0

/-- The rows drawn: `h`, none where the clamp leaves nothing (42 R110). -/
def Clip.rows (c : Clip) : Nat := if c.empty then 0 else c.h.toNat

/-- The packed bytes read in each row: `w div 2`, none where the clamp leaves nothing (42 R110, R112). -/
def Clip.bytes (c : Clip) : Nat := if c.empty then 0 else halve c.w.toNat

end Sys2Proof.Machine
end

