-- ==== Sys2Proof/Machine/BitPlane.lean ====
section
/-! DEFINITION. DECODE, the bit-plane decoder (40 R90 to R97). -/

namespace Sys2Proof.Machine

/-- The address of the byte of pixel `i` of byte column `xb`, row `y`: `D + y * P + 8 * xb + i` (40 R97). -/
def decodeDst (o : OperandRegs) (y xb i : Nat) : Nat :=
  pixelAddr o.dstAddr o.pitchBytes y (Config.pixPerByte * xb + i)

/-- The write of one pixel: its colour zero-extended, unless that equals KEY (40 R90, R92). -/
def decodePixel (o : OperandRegs) (y xb i : Nat) (b : Planes) (m : Memory) : Memory :=
  if pixelByte (colour b i) ≠ o.key then memWrite m (decodeDst o y xb i) (pixelByte (colour b i)) else m

/-- One source byte column: four reads, then eight pixels in ascending order (40 R90, R91). -/
def decodeColumn (o : OperandRegs) (y xb : Nat) (m : Memory) : Memory :=
  loopUp Config.pixPerByte (fun i => decodePixel o y xb i (readPlanes (decodeLayout o) m y xb)) m

/-- The pseudocode of 40 R90: rows, then byte columns, ascending. -/
def decodeRun (o : OperandRegs) (m : Memory) : Memory :=
  loopUp (decodeLayout o).rows (fun y => loopUp (decodeLayout o).bytesPerRow (decodeColumn o y)) m

/-- The bytes DECODE reads (20 R58). -/
def decodeReads (o : OperandRegs) : List Nat := planarFootprint (decodeLayout o)

/-- The bytes DECODE may write: `DST + y * PITCH + x` (20 R58). -/
def decodeWrites (o : OperandRegs) : List Nat :=
  (List.range o.heightRows).flatMap fun y =>
    (List.range o.widthPixels).map fun x => busAddr (pixelAddr o.dstAddr o.pitchBytes y x)

/-- Where the sequencer starts: the first plane read, or nothing for an empty image (40 R94). -/
def decodeStart (o : OperandRegs) : Pos :=
  if (decodeLayout o).rows = 0 || (decodeLayout o).bytesPerRow = 0 then .finished else .plane0 0 0

/-- WIDTH is not a multiple of 8 (60 R123). -/
def decodeBadParam (o : OperandRegs) : Bool := o.widthPixels % Config.pixPerByte != 0

/-- DECODE (40 R90): the checks of 30 R72 with the one operand check of 60 R123, then the run. -/
def execDecode (s : State) : Result :=
  s.present (decodeBadParam s.opnd) fun t =>
    t.launch .decode (decodeReads t.opnd) (decodeWrites t.opnd) (decodeStart t.opnd) (decodeRun t.opnd)

end Sys2Proof.Machine
end

