-- ==== Sys2Proof/Machine/DrawTile.lean ====
section
/-! DEFINITION. DRAWTILE, the clipped tile blit (42 R110 to R118). -/

namespace Sys2Proof.Machine

/-- The packed byte `j` of drawn row `r`: `S + 8 * r + j` (42 R117). -/
def drawSrc (c : Clip) (r j : Nat) : Nat := packedAddr c.src r j

/-- The destination of column `k` of drawn row `r`: `D + (y + r) * P + x + k` (42 R117). -/
def drawDst (o : OperandRegs) (c : Clip) (r k : Nat) : Nat :=
  pixelAddr o.dstAddr o.pitchBytes (c.y.toNat + r) (c.x.toNat + k)

/-- One nibble: written as a pixel byte unless it is 0 (42 R115). -/
def drawNibble (a : Nat) (n : Colour) (m : Memory) : Memory :=
  if n ≠ Config.tileKey then memWrite m a (pixelByte n) else m

/-- One packed byte `v`: the high nibble to column `2 j`, then the low nibble to column `2 j + 1` (42 R110). -/
def drawPair (o : OperandRegs) (c : Clip) (r j : Nat) (v : Byte) (m : Memory) : Memory :=
  drawNibble (drawDst o c r (2 * j + 1)) (lowNibble v) (drawNibble (drawDst o c r (2 * j)) (highNibble v) m)

/-- One iteration of the inner loop of 42 R110: the byte is read once. -/
def drawByte (o : OperandRegs) (c : Clip) (r j : Nat) (m : Memory) : Memory :=
  drawPair o c r j (memRead m (drawSrc c r j)) m

/-- The loops of 42 R110 over the clamped tile `c`. -/
def drawLoop (o : OperandRegs) (c : Clip) (m : Memory) : Memory :=
  loopUp c.rows (fun r => loopUp c.bytes (drawByte o c r)) m

/-- The pseudocode of 42 R110. -/
def drawRun (p : Instance) (o : OperandRegs) (m : Memory) : Memory := drawLoop o (clipTile p o) m

/-- The bytes DRAWTILE reads (20 R58). -/
def drawReads (p : Instance) (o : OperandRegs) : List Nat :=
  (List.range (clipTile p o).rows).flatMap fun r =>
    (List.range (clipTile p o).bytes).map fun j => busAddr (drawSrc (clipTile p o) r j)

/-- The bytes DRAWTILE may write (20 R58). -/
def drawWrites (p : Instance) (o : OperandRegs) : List Nat :=
  (List.range (clipTile p o).rows).flatMap fun r =>
    (List.range (2 * (clipTile p o).bytes)).map fun k => busAddr (drawDst o (clipTile p o) r k)

/-- Where the sequencer starts: the first packed byte, or nothing (42 R113; `w = 1`, 42 R110 corner cases). -/
def drawStart (p : Instance) (o : OperandRegs) : Pos :=
  if (clipTile p o).rows = 0 || (clipTile p o).bytes = 0 then .finished else .packed (clipTile p o) 0 0

/-- DRAWTILE (42 R110): the BUSY check of 30 R72, no operand check, then the run. -/
def execDrawtile (s : State) : Result :=
  s.present false fun t =>
    t.launch .drawtile (drawReads t.inst t.opnd) (drawWrites t.inst t.opnd) (drawStart t.inst t.opnd)
      (drawRun t.inst t.opnd)

end Sys2Proof.Machine
end

