-- ==== Sys2Proof/Machine/TileConv.lean ====
section
/-! DEFINITION. TILECONV, the tile nibble converter (41 R100 to R107). -/

namespace Sys2Proof.Machine

/-- The pixel index in the row: `8 * xb + i` (41 R100). -/
def tilePx (xb i : Nat) : Nat := Config.pixPerByte * xb + i

/-- The byte of the pixel's pair: `D + 8 * y + (px div 2)` (41 R100, R106). -/
def tileDst (o : OperandRegs) (y xb i : Nat) : Nat := packedAddr o.dstAddr y (tilePx xb i / 2)

/-- One pixel: an even one writes the whole byte, an odd one reads the byte back and ORs (41 R100, R101). -/
def tilePixel (o : OperandRegs) (y xb i : Nat) (b : Planes) (m : Memory) : Memory :=
  if tilePx xb i % 2 = 0 then memWrite m (tileDst o y xb i) (evenPixel (colour b i))
  else memWrite m (tileDst o y xb i) (oddPixel (memRead m (tileDst o y xb i)) (colour b i))

/-- One source byte column: four reads, then eight pixels in ascending order (41 R100). -/
def tileColumn (o : OperandRegs) (y xb : Nat) (m : Memory) : Memory :=
  loopUp Config.pixPerByte (fun i => tilePixel o y xb i (readPlanes (tileLayout o) m y xb)) m

/-- The pseudocode of 41 R100. -/
def tileRun (o : OperandRegs) (m : Memory) : Memory :=
  loopUp (tileLayout o).rows (fun y => loopUp (tileLayout o).bytesPerRow (tileColumn o y)) m

/-- The 128 source bytes TILECONV reads (20 R58); the destination bytes it reads back are those of `tileWrites`. -/
def tileReads (o : OperandRegs) : List Nat := planarFootprint (tileLayout o)

/-- The bytes TILECONV writes, `DST .. DST + 127` (20 R58). -/
def tileWrites (o : OperandRegs) : List Nat :=
  (List.range Config.tilePackedBytes).map fun k => busAddr (o.dstAddr + k)

/-- Where the sequencer starts (41 R100). -/
def tileStart : Pos := .plane0 0 0

/-- TILECONV (41 R100): the BUSY check of 30 R72, no operand check, then the run. -/
def execTileconv (s : State) : Result :=
  s.present false fun t =>
    t.launch .tileconv (tileReads t.opnd) (tileWrites t.opnd) tileStart (tileRun t.opnd)

end Sys2Proof.Machine
end

