-- ==== Sys2Proof/Machine/Dispatch.lean ====
section
/-! DEFINITION. The meaning of each command: what its presentation on CMD does (30 R72). -/

namespace Sys2Proof.Machine

def exec (i : Instr) (s : State) : Host.Outcome State Fault Refusal :=
  match i with
  | .decode => Sys2Proof.Machine.execDecode s
  | .tileconv => Sys2Proof.Machine.execTileconv s
  | .drawtile => Sys2Proof.Machine.execDrawtile s

end Sys2Proof.Machine
end

