-- ==== Sys2Proof/Machine/Engine.lean ====
section
/-! DEFINITION. The engine's moves at level `access` (00 R8, small-step meaning): the access the sequencer makes at each
position, the position after it, and the completion (10 R25, 20 R52, 30 R74). One move makes at most one access; a
transparent pixel is a move without one (log entry 14). -/

namespace Sys2Proof.Machine

/-- One access on the memory port, a byte each (20 R46). -/
inductive Access where
  | read (addr : Nat)
  | write (addr : Nat) (value : Byte)
  deriving DecidableEq, Repr

/-- The planar source of a run: DECODE's image or TILECONV's tile (20 R40, R41). -/
def Run.layout (r : Run) : PlanarLayout :=
  match r.op with
  | .decode => decodeLayout r.regs
  | .tileconv => tileLayout r.regs
  | .drawtile => tileLayout r.regs

/-- The access at a pixel position: DECODE writes unless the colour is KEY; TILECONV writes an even pixel and reads the
byte back for an odd one (40 R90, 41 R100). -/
def Run.pixelAccess (r : Run) (y xb i : Nat) (b : Planes) : Option Access :=
  match r.op with
  | .decode =>
    if pixelByte (colour b i) ≠ r.regs.key then
      some (.write (busAddr (decodeDst r.regs y xb i)) (pixelByte (colour b i)))
    else none
  | .tileconv =>
    if tilePx xb i % 2 = 0 then some (.write (busAddr (tileDst r.regs y xb i)) (evenPixel (colour b i)))
    else some (.read (busAddr (tileDst r.regs y xb i)))
  | .drawtile => none

/-- The access of a nibble position of DRAWTILE (42 R115). -/
def nibbleAccess (a : Nat) (n : Colour) : Option Access :=
  if n ≠ Config.tileKey then some (.write (busAddr a) (pixelByte n)) else none

/-- The access the engine makes on its next move (10 R25; the orders of 40 R91, 41 R101, 42 R117). -/
def Run.access (r : Run) : Option Access :=
  match r.pos with
  | .plane0 y xb => some (.read (busAddr (planeAddr r.layout 0 y xb)))
  | .plane1 y xb _ => some (.read (busAddr (planeAddr r.layout 1 y xb)))
  | .plane2 y xb _ _ => some (.read (busAddr (planeAddr r.layout 2 y xb)))
  | .plane3 y xb _ _ _ => some (.read (busAddr (planeAddr r.layout 3 y xb)))
  | .pixel y xb i b => r.pixelAccess y xb i b
  | .merge y xb i b old => some (.write (busAddr (tileDst r.regs y xb i)) (oddPixel old (colour b i)))
  | .packed c k j => some (.read (busAddr (drawSrc c k j)))
  | .high c k j v => nibbleAccess (drawDst r.regs c k (2 * j)) (highNibble v)
  | .low c k j v => nibbleAccess (drawDst r.regs c k (2 * j + 1)) (lowNibble v)
  | .finished => none

/-- The position after the last pixel of a byte column: the next column, the next row, or the end. -/
def PlanarLayout.nextColumn (l : PlanarLayout) (y xb : Nat) : Pos :=
  if xb + 1 < l.bytesPerRow then .plane0 y (xb + 1)
  else if y + 1 < l.rows then .plane0 (y + 1) 0
  else .finished

/-- The position after pixel `i` of a byte column. -/
def Run.nextPixel (r : Run) (y xb i : Nat) (b : Planes) : Pos :=
  if i + 1 < Config.pixPerByte then .pixel y xb (i + 1) b else r.layout.nextColumn y xb

/-- The position after byte `j` of row `k` of a DRAWTILE run: the next byte, the next row, or the end. -/
def Clip.nextByte (c : Clip) (k j : Nat) : Pos :=
  if j + 1 < c.bytes then .packed c k (j + 1)
  else if k + 1 < c.rows then .packed c (k + 1) 0
  else .finished

/-- The position after the next move; `data` is the byte read on that move, if it reads. -/
def Run.nextPos (r : Run) (data : Byte) : Pos :=
  match r.pos with
  | .plane0 y xb => .plane1 y xb data
  | .plane1 y xb b0 => .plane2 y xb b0 data
  | .plane2 y xb b0 b1 => .plane3 y xb b0 b1 data
  | .plane3 y xb b0 b1 b2 => .pixel y xb 0 ⟨b0, b1, b2, data⟩
  | .pixel y xb i b =>
    match r.op with
    | .decode => r.nextPixel y xb i b
    | .tileconv => if tilePx xb i % 2 = 0 then r.nextPixel y xb i b else .merge y xb i b data
    | .drawtile => .finished
  | .merge y xb i b _ => r.nextPixel y xb i b
  | .packed c k j => .high c k j data
  | .high c k j v => .low c k j v
  | .low c k j _ => c.nextByte k j
  | .finished => .finished

/-- The byte the memory port returns on an access: of a read, the byte there (20 R46, R47); without a read nothing is
returned and no position looks at the 0 that stands here. -/
def portData (m : Memory) (a : Option Access) : Byte :=
  match a with
  | some (.read x) => memRead m x
  | _ => 0

/-- Memory after an access: a write has replaced its byte (20 R46, R47). -/
def portMem (m : Memory) (a : Option Access) : Memory :=
  match a with
  | some (.write x v) => memWrite m x v
  | _ => m

/-- The run after its next move. -/
def Run.advance (r : Run) (m : Memory) : Run := { r with pos := r.nextPos (portData m r.access) }

/-- The bytes command `i` may read with the operands `o` (20 R58). -/
def footReads (p : Instance) (i : Instr) (o : OperandRegs) : List Nat :=
  match i with
  | .decode => decodeReads o
  | .tileconv => tileReads o
  | .drawtile => drawReads p o

/-- The bytes command `i` may write with the operands `o` (20 R58). -/
def footWrites (p : Instance) (i : Instr) (o : OperandRegs) : List Nat :=
  match i with
  | .decode => decodeWrites o
  | .tileconv => tileWrites o
  | .drawtile => drawWrites p o

/-- The bytes a run may read (20 R58). -/
def Run.reads (p : Instance) (r : Run) : List Nat := footReads p r.op r.regs

/-- The bytes a run may write (20 R58). -/
def Run.writes (p : Instance) (r : Run) : List Nat := footWrites p r.op r.regs

/-- What a breach of exclusivity leaves: every byte of the write footprint free (93 U6). -/
def State.settleBreach (s : State) (r : Run) : State :=
  if r.breached then s.scramble (r.writes s.inst) else s

/-- The engine's next move: the next access of the running command, or its completion (20 R52, 30 R74). An idle engine does
nothing (60 R133). -/
def State.engineTurn (s : State) : State :=
  match s.engine with
  | .idle => s
  | .running r =>
    if r.pos = .finished then (s.settleBreach r).complete
    else { s with mem := portMem s.mem r.access, engine := .running (r.advance s.mem) }

end Sys2Proof.Machine
end

