-- ==== Sys2Proof/Machine/Port.lean ====
section
/-! DEFINITION. What each host action does: register writes and reads (10 R11 to R23, 30 R72, R80), reset (70 R140, R141),
pixel-memory accesses of other agents (10 R29, 93 U6), `turn` and `wait` (30 R78). -/

namespace Sys2Proof.Machine

/-- A write of `v` to CMD: the word is decoded, a command is presented, a reserved word rejected (30 R72, R73). -/
def State.presentWord (s : State) (v : Word) : Result :=
  match decode v with
  | .ok i => exec i s
  | .error _ => .next s.rejectReserved

/-- A write of `v` to an operand register: discarded with E_BUSY while BUSY = 1 (10 R11, 60 R124). While reset is asserted the
register stays 0 (70 R140; log entry 19). -/
def State.writeOperand (s : State) (n : OperandName) (v : Word) : State :=
  if s.resetAsserted then s else if s.busy then s.raise .eBusy else { s with opnd := s.opnd.write n v }

/-- A write of `v` to a register (10 R11, R20, R21, R23). -/
def State.writeReg (s : State) (r : Reg) (v : Word) : Result :=
  match r with
  | .cmd => s.presentWord v
  | .status => .next (s.writeStatus v)
  | .operand n => .next (s.writeOperand n v)
  | .reserved => .next s

/-- A register access the spec does not define is refused by name (10 R11, 93 U9); else `k` acts on the register. -/
def State.atReg (s : State) (addr : Nat) (size : AccessSize) (k : Reg → Result) : Result :=
  if s.inst.inBlock addr then
    if s.inst.wholeWord addr size then k (regAt (addr - s.inst.regBase)) else .refused .registerAccessUndefined
  else .refused .notInRegisterBlock

/-- A register read: the value goes to the host, nothing else changes (10 R11). -/
def State.readToHost (s : State) (r : Reg) : State :=
  { s with host := { s.host with regData := s.readReg r } }

/-- What reset does to the block (10 R30, 70 R140): registers and status 0, engine idle, pixel memory untouched; a running command is
abandoned and its write footprint holds any values (70 R141). -/
def State.resetBlock (s : State) : State :=
  let t := match s.engine with
    | .idle => s
    | .running r => s.scramble (r.writes s.inst)
  { t with opnd := OperandRegs.reset, status := Status.reset, engine := .idle }

/-- The reset input goes to the level `asserted` (70 R140). While it is asserted, and at the moment it is released, the block is
as `resetBlock` says; releasing an input that is not asserted changes nothing. -/
def State.driveReset (s : State) (asserted : Bool) : State :=
  if asserted || s.resetAsserted then { s.resetBlock with resetAsserted := asserted } else s

/-- The engine after another agent wrote the byte at `a`: a write into the footprint breaks exclusivity (70 R146). -/
def Engine.afterForeignWrite (e : Engine) (p : Instance) (a : Nat) : Engine :=
  match e with
  | .idle => .idle
  | .running r => .running { r with breached := r.breached || (r.reads p).contains a || (r.writes p).contains a }

/-- Another agent writes a byte of pixel memory (10 R29; 93 U6). -/
def State.foreignWrite (s : State) (a : Word) (v : Byte) : Result :=
  if populatedAt s.inst a.toNat then
    .next { s with mem := memWrite s.mem a.toNat v, engine := s.engine.afterForeignWrite s.inst a.toNat }
  else .fault .hostAccessUnpopulated

/-- `a` is a byte that a running command may write. -/
def Engine.mayWrite (e : Engine) (p : Instance) (a : Nat) : Bool :=
  match e with
  | .idle => false
  | .running r => (r.writes p).contains a

/-- Another agent reads a byte of pixel memory: the byte there, or a free byte where a running command may write it
(93 U6). -/
def State.foreignRead (s : State) (a : Word) : Result :=
  if populatedAt s.inst a.toNat then
    if s.engine.mayWrite s.inst a.toNat then
      .next { s with host := { s.host with memData := Config.freeByte s.draws }, draws := s.draws + 1 }
    else .next { s with host := { s.host with memData := memRead s.mem a.toNat } }
  else .fault .hostAccessUnpopulated

/-- `WAIT` (30 R78): one read of STATUS; while it shows BUSY = 1 the entry stays in the queue and the engine moves. -/
def State.waitStep (s : State) : State :=
  if s.busy then
    { s.readToHost .status with host := { (s.readToHost .status).host with queue := .wait :: s.host.queue } }.engineTurn
  else s.readToHost .status

/-- What one entry of the host's queue does, the entry already taken off. -/
def State.hostAct (s : State) (e : HostEvent) : Result :=
  match e with
  | .regWrite addr size v => s.atReg addr size fun r => s.writeReg r v
  | .regRead addr size => s.atReg addr size fun r => .next (s.readToHost r)
  | .resetInput asserted => .next (s.driveReset asserted)
  | .memWrite a v => s.foreignWrite a v
  | .memRead a => s.foreignRead a
  | .turn => .next s.engineTurn
  | .wait => .next s.waitStep

/-- The state with the queue `q`. -/
def State.withQueue (s : State) (q : List HostEvent) : State := { s with host := { s.host with queue := q } }

/-- One step: the next entry of the host's queue, or the engine's next move when the queue is empty; with an idle engine and
nothing pending the state stands still (60 R133, 70 R140). -/
def State.machineStep (s : State) : Result :=
  match s.host.queue with
  | [] => .next s.engineTurn
  | e :: q => (s.withQueue q).hostAct e

/-- The host event that presents the word `v` to CMD (30 R77: `WR CMD, v`). -/
def cmdWrite (p : Instance) (v : Word) : HostEvent := .regWrite (p.regBase + 0x00) .word v

end Sys2Proof.Machine
end

