-- ==== Sys2Proof/Machine/Step.lean ====
section
/-! DEFINITION. The step function, and the placing of one command word where the next step takes its command from. -/

namespace Sys2Proof.Machine

/-- One step of the machine. -/
def step (s : State) : Host.Outcome State Fault Refusal := s.machineStep

/-- `s` with the host's write of the command word to CMD as its next pending action: the block fetches no command from
memory (10 R26), the host presents it (log entry 2). -/
def State.withFetchWord (s : State) (nbits w : Nat) : State :=
  s.withQueue (cmdWrite s.inst (tableWord nbits w) :: s.host.queue)

end Sys2Proof.Machine
end

