-- ==== Sys2Proof/Machine/Sequences.lean ====
section
/-! DEFINITION. The notation of host sequences (30 R77) and its pseudo-operations (30 R78), as lists of queue entries. -/

namespace Sys2Proof.Machine

/-- The offset of a register (the map of 10 R11); `reserved` stands for its first word, 0x28 (10 R23). -/
def regOffset : Reg → Nat
  | .cmd => 0x00
  | .status => 0x04
  | .operand .src => 0x08
  | .operand .dst => 0x0C
  | .operand .pitch => 0x10
  | .operand .width => 0x14
  | .operand .height => 0x18
  | .operand .key => 0x1C
  | .operand .xoff => 0x20
  | .operand .yoff => 0x24
  | .reserved => 0x28

/-- `WR NAME, v`: the pair (`REG_BASE + offset(NAME)`, `v`) (30 R77). -/
def wr (p : Instance) (r : Reg) (v : Word) : HostEvent := .regWrite (p.regBase + regOffset r) .word v

/-- `RD NAME` (30 R77). -/
def rd (p : Instance) (r : Reg) : HostEvent := .regRead (p.regBase + regOffset r) .word

/-- `CLR m` (30 R78). -/
def clr (p : Instance) (m : Word) : HostEvent := wr p .status m

/-- `DECODE`, `TILECONV`, `DRAWTILE`: shorthand for writes to CMD (30 R77). -/
def command (p : Instance) (i : Instr) : HostEvent := wr p .cmd (encode i)

/-- The host resets the block (60 R129): the reset input is asserted, then released (70 R140). -/
def seqReset : List HostEvent := [.resetInput true, .resetInput false]

/-- `decode s, d, p, w, h, k` (30 R78). -/
def seqDecode (p : Instance) (s d pitch w h k : Word) : List HostEvent :=
  [wr p (.operand .src) s, wr p (.operand .dst) d, wr p (.operand .pitch) pitch, wr p (.operand .width) w,
   wr p (.operand .height) h, wr p (.operand .key) k, command p .decode, .wait]

/-- `tileconv s, d` (30 R78). -/
def seqTileconv (p : Instance) (s d : Word) : List HostEvent :=
  [wr p (.operand .src) s, wr p (.operand .dst) d, command p .tileconv, .wait]

/-- `draw_tile s, d, p, xo, yo` (30 R78). -/
def seqDrawTile (p : Instance) (s d pitch xo yo : Word) : List HostEvent :=
  [wr p (.operand .src) s, wr p (.operand .dst) d, wr p (.operand .pitch) pitch, wr p (.operand .xoff) xo,
   wr p (.operand .yoff) yo, command p .drawtile, .wait]

end Sys2Proof.Machine
end

