-- ==== Sys2Proof/Safety.lean ====
section
/-! DEFINITION. The terms claims are stated in: when a command completes, the caller's contracts (40 R95, 41 R104, 42 R116),
the colours a source holds (20 R41, R43, R44), the accesses of a run, the invariant that every step keeps, and what a safe
outcome is. -/

namespace Sys2Proof.Machine

/-! ## When a command runs -/

/-- The operand check of 60 R123: only DECODE has one. -/
def operandsOk (i : Instr) (o : OperandRegs) : Bool :=
  match i with
  | .decode => !decodeBadParam o
  | .tileconv => true
  | .drawtile => true

/-- The whole footprint of command `i` is populated (20 R47, R58). -/
def footPopulated (p : Instance) (i : Instr) (o : OperandRegs) : Bool :=
  allPopulated p (footReads p i o) && allPopulated p (footWrites p i o)

/-- Command `i` presented in `s` is accepted and run: reset is not asserted (70 R140), the engine is idle, the operand check
passes (30 R72), the footprint is populated (20 R47). -/
def State.accepts (s : State) (i : Instr) : Bool :=
  !s.resetAsserted && !s.busy && operandsOk i s.opnd && footPopulated s.inst i s.opnd

/-- The pseudocode of command `i` as a function of memory (00 R8: the big-step meaning). -/
def commandRun (p : Instance) (i : Instr) (o : OperandRegs) : Memory → Memory :=
  match i with
  | .decode => decodeRun o
  | .tileconv => tileRun o
  | .drawtile => drawRun p o

/-- Where the sequencer starts command `i`. -/
def commandStart (p : Instance) (i : Instr) (o : OperandRegs) : Pos :=
  match i with
  | .decode => decodeStart o
  | .tileconv => tileStart
  | .drawtile => drawStart p o

/-- The moves the engine makes in a run of command `i`, the completion among them: twelve a byte column of DECODE, sixteen a
byte column of TILECONV, three a packed byte of DRAWTILE, and one. -/
def commandMoves (p : Instance) (i : Instr) (o : OperandRegs) : Nat :=
  match i with
  | .decode => 12 * (decodeLayout o).bytesPerRow * (decodeLayout o).rows + 1
  | .tileconv => 16 * (tileLayout o).bytesPerRow * (tileLayout o).rows + 1
  | .drawtile => 3 * (clipTile p o).bytes * (clipTile p o).rows + 1

/-! ## What a source holds -/

/-- The colour of pixel `(x, y)` of a planar source (20 R40, R44). -/
def pixelColour (l : PlanarLayout) (m : Memory) (x y : Nat) : Colour :=
  colour (readPlanes l m y (x / Config.pixPerByte)) (x % Config.pixPerByte)

/-- The colour of pixel `(x, y)` of the packed tile at `base` (20 R43). -/
def packedColour (m : Memory) (base x y : Nat) : Colour :=
  if x % 2 = 0 then highNibble (memRead m (packedAddr base y (x / 2)))
  else lowNibble (memRead m (packedAddr base y (x / 2)))

/-- The source advance of the left clamp, in bytes: `adv` of 42 R112. -/
def leftAdvance (o : OperandRegs) : Nat := if o.xOffset < 0 then halve (-o.xOffset).toNat else 0

/-- The source advance of the top clamp, in rows: `vadv` of 42 R112. -/
def topAdvance (o : OperandRegs) : Nat := if o.yOffset < 0 then (-o.yOffset).toNat else 0

/-! ## The caller's contracts -/

/-- No address of the first list is one of the second. -/
abbrev DisjointAddrs (a b : List Nat) : Prop := ∀ x ∈ a, x ∉ b

/-- The contract of DECODE (40 R95, 70 R150): rows no wider than the pitch, room for all rows in the address space, and no
source byte among the bytes it may write. -/
abbrev DecodeContract (o : OperandRegs) : Prop :=
  o.widthPixels ≤ o.pitchBytes ∧ (o.heightRows - 1) * o.pitchBytes + o.widthPixels ≤ Config.memorySize ∧
    DisjointAddrs (decodeReads o) (decodeWrites o)

/-- The contract of TILECONV (41 R104): source and destination ranges do not meet. -/
abbrev TileContract (o : OperandRegs) : Prop := DisjointAddrs (tileReads o) (tileWrites o)

/-- The contract of DRAWTILE (42 R116, 70 R150): the region's rows no wider than the pitch, room for the region in the
address space, and no tile byte that is read among the bytes it may write. -/
abbrev DrawContract (p : Instance) (o : OperandRegs) : Prop :=
  p.tilemapW ≤ o.pitchBytes ∧ (p.tilemapH - 1) * o.pitchBytes + p.tilemapW ≤ Config.memorySize ∧
    DisjointAddrs (drawReads p o) (drawWrites p o)

/-! ## The accesses of a run -/

/-- The accesses the engine makes in its next `n` moves, in order (10 R25). -/
def Run.trace : Nat → Run → Memory → List Access
  | 0, _, _ => []
  | n + 1, r, m => r.access.toList ++ Run.trace n (r.advance m) (portMem m r.access)

/-- The address of a read. -/
def Access.readAddr? : Access → Option Nat
  | .read a => some a
  | .write _ _ => none

/-- The address of a write. -/
def Access.writeAddr? : Access → Option Nat
  | .read _ => none
  | .write a _ => some a

/-- The run of command `i` at its acceptance (10 R24). -/
def acceptedRun (p : Instance) (i : Instr) (o : OperandRegs) : Run := ⟨i, o, commandStart p i o, false⟩

/-- The accesses of a whole run of command `i` that no other agent disturbs. -/
def commandTrace (p : Instance) (i : Instr) (o : OperandRegs) (m : Memory) : List Access :=
  (acceptedRun p i o).trace (commandMoves p i o) m

/-! ## The host's queue -/

/-- The queue entry `e` is a defined write of `v` to register `r` (10 R11). -/
def eventWrites (p : Instance) (e : HostEvent) (r : Reg) (v : Word) : Prop :=
  ∃ addr, e = .regWrite addr .word v ∧ p.regAccessOk addr .word = true ∧ regAt (addr - p.regBase) = r

/-- The next entry of the queue is `e`. -/
def State.nextIs (s : State) (e : HostEvent) : Prop := s.host.queue.head? = some e

/-- What a read of an operand register returns after a write of `v`, in the words of 10 R12 to R19: the 32 bits, the low 16 or 8
bits, or the low 16 bits with bit 15 copied upward. -/
def fieldRead (n : OperandName) (v : Word) : Word :=
  match n with
  | .src => v
  | .dst => v
  | .pitch => v
  | .width => v &&& 0x0000FFFF#32
  | .height => v &&& 0x0000FFFF#32
  | .key => v &&& 0x000000FF#32
  | .xoff => if v.getLsbD 15 then v ||| 0xFFFF0000#32 else v &&& 0x0000FFFF#32
  | .yoff => if v.getLsbD 15 then v ||| 0xFFFF0000#32 else v &&& 0x0000FFFF#32

/-! ## The invariant -/

/-- Row `y`, byte column `xb` of a planar layout. -/
def PlanarLayout.holds (l : PlanarLayout) (y xb : Nat) : Bool := y < l.rows && xb < l.bytesPerRow

/-- Byte `j` of drawn row `k` of the clamped tile. -/
def Clip.holds (c : Clip) (k j : Nat) : Bool := k < c.rows && j < c.bytes

/-- The position is one of command `op`, inside the loops over the layout `l` or the clamped tile `c` (10 R25). -/
def Pos.okFor (op : Instr) (l : PlanarLayout) (c : Clip) (pos : Pos) : Bool :=
  match pos with
  | .plane0 y xb => op != .drawtile && l.holds y xb
  | .plane1 y xb _ => op != .drawtile && l.holds y xb
  | .plane2 y xb _ _ => op != .drawtile && l.holds y xb
  | .plane3 y xb _ _ _ => op != .drawtile && l.holds y xb
  | .pixel y xb i _ => op != .drawtile && l.holds y xb && i < Config.pixPerByte
  | .merge y xb i _ _ => op == .tileconv && l.holds y xb && i < Config.pixPerByte && tilePx xb i % 2 == 1
  | .packed d k j => op == .drawtile && d == c && c.holds k j
  | .high d k j _ => op == .drawtile && d == c && c.holds k j
  | .low d k j _ => op == .drawtile && d == c && c.holds k j
  | .finished => true

/-- The run's position is one of its command's. -/
def Run.posOk (p : Instance) (r : Run) : Bool := r.pos.okFor r.op r.layout (clipTile p r.regs)

/-- What holds of a run: its latches are the operand registers (10 R24), its command passed the operand check, its footprint
is populated (20 R47), its position is one of its command's. -/
def Run.ok (p : Instance) (o : OperandRegs) (r : Run) : Bool :=
  r.regs == o && operandsOk r.op r.regs && footPopulated p r.op r.regs && r.posOk p

/-- An engine whose run, if it has one, is as `Run.ok` says. -/
def Engine.ok (p : Instance) (o : OperandRegs) : Engine → Bool
  | .idle => true
  | .running r => r.ok p o

/-- The state of the block that 10 R30 names: operand registers 0, STATUS 0, engine idle. -/
def State.blockReset (s : State) : Bool :=
  s.opnd == OperandRegs.reset && s.status == Status.reset && s.engine == .idle

/-- What holds while reset is asserted: the block is in the state of 10 R30 (70 R140). -/
def State.resetOk (s : State) : Bool := !s.resetAsserted || s.blockReset

/-- The invariant of the machine: memory in canonical form, the instance's parameters in their ranges, a running command as
`Run.ok` says, the block in the state of 10 R30 while reset is asserted. -/
def State.inv (s : State) : Bool :=
  Memory.wf s.mem && s.inst.wellFormed && s.engine.ok s.inst s.opnd && s.resetOk

/-! ## Safe outcomes -/

/-- A step is safe when it answers a next state. -/
def SafeOutcome (o : Result) : Prop := ∃ t, o = .next t

/-- A run of the machine is safe for `n` steps when none of them stops. -/
def SafeFor (n : Nat) (s : State) : Prop := SafeOutcome (Host.Core.run Sys2Proof.core n s)

end Sys2Proof.Machine
end

