-- ==== Sys2Proof/Certificates/Slice0/Obligations.lean ====
section
/-! DEFINITION. The statements about the block, each from the rules of spec/ that its docstring and OBLIGATIONS.json name. -/

open Sys2Proof Sys2Proof.Machine

/-! ## Command words -/

/-- 30 R71: the three CMD words, and three reserved ones, as the encoding gives them bit by bit. -/
def Obligations.CommandWordsDecode : Prop :=
  decode 0b00000000000000000000000000000001#32 = .ok .decode ∧
  decode 0b00000000000000000000000000000010#32 = .ok .tileconv ∧
  decode 0b00000000000000000000000000000011#32 = .ok .drawtile ∧
  decode 0b00000000000000000000000000000000#32 = .error .reservedOpcode ∧
  decode 0b00000000000000000000000000000100#32 = .error .reservedOpcode ∧
  decode 0b00000000000000000000000000010001#32 = .error .reservedBits

/-- 30 R71: the decoder matches the whole word: 1, 2, 3 are the words of DECODE, TILECONV, DRAWTILE, every other word is reserved, and
decode and encode agree on all words. -/
def Obligations.DecodeMatchesWholeWord : Prop :=
  ∀ v : Word,
    (decode v = .ok .decode ↔ v = 0x00000001#32) ∧ (decode v = .ok .tileconv ↔ v = 0x00000002#32) ∧
    (decode v = .ok .drawtile ↔ v = 0x00000003#32) ∧
    ((v ≠ 0x00000001#32 ∧ v ≠ 0x00000002#32 ∧ v ≠ 0x00000003#32) → ∃ why, decode v = .error why) ∧
    ∀ i : Instr, decode v = .ok i ↔ v = encode i

/-- 30 R73, 60 R122: a word with a bit of [31:4] set, or with OP 0 or 4 .. 15, is reserved; presented while BUSY = 0 it sets E_OP,
clears DONE and does nothing else (while reset is asserted: `ResetLeaves`); every other word is the word of a command. -/
def Obligations.ReservedWordsRejected : Prop :=
  ∀ v : Word,
    ((v.toNat / 16 ≠ 0 ∨ v.toNat % 16 = 0 ∨ 4 ≤ v.toNat % 16) →
      (∃ why, decode v = .error why) ∧
      ∀ (s : State) (q : List HostEvent), s.host.queue = cmdWrite s.inst v :: q →
        s.resetAsserted = false → s.busy = false →
        step s = .next { s.withQueue q with status := { s.status with done := false, eOp := true } }) ∧
    ((v.toNat / 16 = 0 ∧ 1 ≤ v.toNat % 16 ∧ v.toNat % 16 ≤ 3) → ∃ i, decode v = .ok i ∧ encode i = v)

/-! ## Reset -/

/-- 70 R140, 10 R30: the state after reset, with any memory content, reads 0 in every register and its engine is idle. Asserting
reset in an idle block brings that state and leaves pixel memory (in a running one: `ResetDuringRun`). While reset is asserted
every step that is not its release keeps that state, and only another agent's write changes memory; a register write of any word
at any offset of the block does nothing (that the host may write then at all is the model's reading: log entry 19). The release
leaves that state too. -/
def Obligations.ResetLeaves : Prop :=
  (∀ (p : Instance) (m : Memory),
    (∀ r, (State.resetOf p m).readReg r = 0) ∧ (State.resetOf p m).engine = .idle ∧ (State.resetOf p m).mem = m ∧
      (State.resetOf p m).resetAsserted = false) ∧
  (∀ (s : State) (q : List HostEvent), s.host.queue = .resetInput true :: q → s.busy = false →
    ∃ t, step s = .next t ∧ t.resetAsserted = true ∧ (∀ r, t.readReg r = 0) ∧ t.engine = .idle ∧ t.mem = s.mem ∧
      t.inst = s.inst ∧ t.host = { s.host with queue := q }) ∧
  (∀ s t : State, s.inv = true → s.resetAsserted = true → step s = .next t → ¬ s.nextIs (.resetInput false) →
    t.resetAsserted = true ∧ (∀ r, t.readReg r = 0) ∧ t.engine = .idle ∧ t.inst = s.inst ∧
      (t.mem ≠ s.mem → ∃ a v, s.nextIs (.memWrite a v))) ∧
  (∀ (s : State) (off : Nat) (v : Word) (q : List HostEvent), s.inv = true → s.resetAsserted = true → off % 4 = 0 →
    off < 64 → s.host.queue = .regWrite (s.inst.regBase + off) .word v :: q → step s = .next (s.withQueue q)) ∧
  ∀ (s : State) (q : List HostEvent), s.inv = true → s.resetAsserted = true → s.host.queue = .resetInput false :: q →
    ∃ t, step s = .next t ∧ t.resetAsserted = false ∧ (∀ r, t.readReg r = 0) ∧ t.engine = .idle ∧ t.mem = s.mem ∧
      t.inst = s.inst ∧ t.host = { s.host with queue := q }

/-- 70 R140, R141: reset asserted during a run abandons the command without DONE, sets registers and status to 0, and changes
no byte outside the command's write footprint (what the bytes inside become is free: log entry 8, 93 U6). Nothing else stops a
running command: every other step leaves it running with its latches or, with no access left, completes it with DONE = 1. -/
def Obligations.ResetDuringRun : Prop :=
  (∀ (s : State) (r : Run) (q : List HostEvent), s.host.queue = .resetInput true :: q → s.engine = .running r →
    ∃ t, step s = .next t ∧ t.resetAsserted = true ∧ (∀ x, t.readReg x = 0) ∧ t.engine = .idle ∧ t.status.done = false ∧
      ∀ a, busAddr a ∉ r.writes s.inst → memRead t.mem a = memRead s.mem a) ∧
  ∀ (s t : State) (r : Run), s.inv = true → s.engine = .running r → step s = .next t → ¬ s.nextIs (.resetInput true) →
    (∃ u, t.engine = .running u ∧ u.op = r.op ∧ u.regs = r.regs) ∨
      (r.pos = .finished ∧ t.engine = .idle ∧ t.status.done = true)

/-! ## The register port -/

/-- 10 R11 to R19: an operand register written while the engine is idle keeps the bits of its field, a read returns them
extended, and nothing else changes (while reset is asserted: `ResetLeaves`). -/
def Obligations.OperandWriteReadsBack : Prop :=
  ∀ (s : State) (n : OperandName) (v : Word) (q : List HostEvent),
    s.host.queue = wr s.inst (.operand n) v :: q → s.resetAsserted = false → s.busy = false →
    ∃ t, step s = .next t ∧ t.opnd.read n = fieldRead n v ∧ (∀ m, m ≠ n → t.opnd.read m = s.opnd.read m) ∧
      t.resetAsserted = s.resetAsserted ∧ t.status = s.status ∧ t.engine = s.engine ∧ t.mem = s.mem ∧ t.inst = s.inst ∧
      t.level = s.level ∧ t.draws = s.draws ∧ t.host = { s.host with queue := q }

/-- 60 R124: while BUSY = 1 a write to CMD (offset 0), of any word, or to an operand register (offsets 0x08 to 0x24) is discarded
and sets E_BUSY, bit 6; the engine, DONE, memory and every register stay. A write to STATUS (offset 4) or to any reserved offset
(0x28 to 0x3C), and every read, does not set E_BUSY. The running command goes on after the discarded write and completes in as
many steps as without it, in the same state but for E_BUSY: BUSY = 0, DONE = 1, E_BUSY = 1. (The invariant rules out a run while
reset is asserted, 70 R140, and positions outside the command's loops.) -/
def Obligations.BusyWritesDiscarded : Prop :=
  (∀ (s : State) (off : Nat) (v : Word) (q : List HostEvent), s.inv = true → s.busy = true → off % 4 = 0 → off < 64 →
    s.host.queue = .regWrite (s.inst.regBase + off) .word v :: q →
    ((off = 0x00 ∨ (0x08 ≤ off ∧ off ≤ 0x24)) →
      step s = .next { s.withQueue q with status := { s.status with eBusy := true } }) ∧
    ((off = 0x04 ∨ 0x28 ≤ off) →
      ∃ t, step s = .next t ∧ t.engine = s.engine ∧ (t.status.eBusy = true → s.status.eBusy = true))) ∧
  (∀ (s : State) (off : Nat) (q : List HostEvent), s.busy = true → off % 4 = 0 → off < 64 →
    s.host.queue = .regRead (s.inst.regBase + off) .word :: q →
    ∃ t, step s = .next t ∧ t.engine = s.engine ∧ t.status = s.status) ∧
  (∀ (s : State) (off : Nat) (v : Word), s.inv = true → s.busy = true → off % 4 = 0 →
    (off = 0x00 ∨ (0x08 ≤ off ∧ off ≤ 0x24)) → s.host.queue = [.regWrite (s.inst.regBase + off) .word v] →
    ∃ n u t, Host.Core.run Sys2Proof.core n (s.withQueue []) = .next u ∧ u.busy = false ∧ u.status.done = true ∧
      Host.Core.run Sys2Proof.core (n + 1) s = .next t ∧ t = { u with status := { u.status with eBusy := true } } ∧
      t.statusWord.getLsbD 0 = false ∧ t.statusWord.getLsbD 1 = true ∧ t.statusWord.getLsbD 6 = true) ∧
  ∀ s : State, s.statusWord.getLsbD 6 = s.status.eBusy

/-- 10 R21: a read of STATUS shows BUSY in bit 0, DONE in bit 1, E_OP, E_PARAM, E_BUSY in bits 4, 5, 6, and 0 elsewhere. -/
def Obligations.StatusWordBits : Prop :=
  ∀ (s : State) (k : Nat), s.statusWord.getLsbD k =
    if k = 0 then s.busy else if k = 1 then s.status.done else if k = 4 then s.status.eOp
    else if k = 5 then s.status.eParam else if k = 6 then s.status.eBusy else false

/-- 10 R21: a write to STATUS, at any time, clears exactly the bits 1, 4, 5, 6 in which it holds a 1 and changes nothing else. -/
def Obligations.StatusWriteOneToClear : Prop :=
  ∀ (s : State) (v : Word) (q : List HostEvent), s.host.queue = wr s.inst .status v :: q →
    ∃ t, step s = .next t ∧ t.status.done = (s.status.done && !v.getLsbD 1) ∧
      t.status.eOp = (s.status.eOp && !v.getLsbD 4) ∧ t.status.eParam = (s.status.eParam && !v.getLsbD 5) ∧
      t.status.eBusy = (s.status.eBusy && !v.getLsbD 6) ∧ t.opnd = s.opnd ∧ t.engine = s.engine ∧ t.mem = s.mem ∧
      t.resetAsserted = s.resetAsserted ∧ t.inst = s.inst ∧ t.level = s.level ∧ t.draws = s.draws ∧
      t.host = { s.host with queue := q }

/-- 10 R11, R20: a register read, at any time, returns the register's value (0 for CMD) and has no effect on the block. -/
def Obligations.RegisterReadHasNoEffect : Prop :=
  ∀ (s : State) (r : Reg) (q : List HostEvent), s.host.queue = rd s.inst r :: q →
    ∃ t, step s = .next t ∧ t = { s with host := { s.host with queue := q, regData := t.host.regData } } ∧
      (r = .cmd → t.host.regData = 0) ∧ (r = .status → t.host.regData = s.statusWord) ∧
      (∀ n, r = .operand n → t.host.regData = s.opnd.read n)

/-- 10 R23: the offsets 0x28 to 0x3C read 0; a write to one is ignored at any time and sets no status bit. -/
def Obligations.ReservedOffsetsInert : Prop :=
  ∀ (s : State) (off : Nat) (q : List HostEvent), 0x28 ≤ off → off ≤ 0x3C → off % 4 = 0 →
    (∀ v, s.host.queue = .regWrite (s.inst.regBase + off) .word v :: q → step s = .next (s.withQueue q)) ∧
    (s.host.queue = .regRead (s.inst.regBase + off) .word :: q →
      step s = .next { s with host := { s.host with queue := q, regData := 0 } })

/-- 10 R11, 93 U9: a register access that is not one whole aligned word is refused, and so is one outside the block (that the
model stops there is log entry 6). -/
def Obligations.UndefinedRegisterAccessStops : Prop :=
  ∀ (s : State) (addr : Nat) (size : AccessSize) (e : HostEvent) (q : List HostEvent),
    s.host.queue = e :: q → (e = .regRead addr size ∨ ∃ v, e = .regWrite addr size v) →
    ((addr < s.inst.regBase ∨ s.inst.regBase + 64 ≤ addr) → step s = .refused .notInRegisterBlock) ∧
    ((s.inst.regBase ≤ addr ∧ addr < s.inst.regBase + 64 ∧ (size ≠ .word ∨ (addr - s.inst.regBase) % 4 ≠ 0)) →
      step s = .refused .registerAccessUndefined)

/-! ## Presenting a command -/

/-- 30 R72: a write to CMD of a command's word is that command's meaning at the state with the write taken off the queue; so the
step after `withFetchWord` of a command's word is the command's meaning at the state itself (the queue: log entry 2). -/
def Obligations.StepRunsPresentedCommand : Prop :=
  (∀ (s : State) (v : Word) (i : Instr) (q : List HostEvent), s.host.queue = cmdWrite s.inst v :: q →
    decode v = .ok i → step s = exec i (s.withQueue q)) ∧
  ∀ (s : State) (i : Instr), step (s.withFetchWord 32 (encode i).toNat) = exec i s

/-- 30 R72, 10 R24: at level `access` an accepted command latches its opcode and all eight operand registers, clears DONE, makes
BUSY = 1, and changes nothing else. -/
def Obligations.AcceptanceLatchesOperands : Prop :=
  ∀ (i : Instr) (s : State), s.accepts i = true → s.level = .access →
    exec i s = .next { s with
      engine := .running ⟨i, s.opnd, commandStart s.inst i s.opnd, false⟩
      status := { s.status with done := false } }

/-- 60 R123: the DECODE word written to CMD while BUSY = 0 with WIDTH not a multiple of 8 is rejected: E_PARAM, bit 5, is set, DONE
cleared, nothing else changed; the test is on WIDTH's three low bits; no command sets E_PARAM otherwise, so no other operand
is checked. -/
def Obligations.BadWidthRejected : Prop :=
  (∀ (s : State) (q : List HostEvent), s.host.queue = cmdWrite s.inst 0x00000001#32 :: q →
    s.resetAsserted = false → s.busy = false → s.opnd.width.toNat % 8 ≠ 0 →
    step s = .next { s.withQueue q with status := { s.status with done := false, eParam := true } }) ∧
  (∀ o : OperandRegs, o.width.toNat % 8 ≠ 0 ↔ o.width.extractLsb' 0 3 ≠ 0#3) ∧
  (∀ (i : Instr) (s t : State), exec i s = .next t → t.status.eParam = true →
    s.status.eParam = true ∨ (i = .decode ∧ s.resetAsserted = false ∧ s.busy = false ∧ s.opnd.width.toNat % 8 ≠ 0)) ∧
  ∀ s : State, s.statusWord.getLsbD 5 = s.status.eParam

/-- 60 R121, 20 R47: no command faults; a command is refused only where it would be accepted but for a footprint that leaves the
populated set, and is then refused by that name. That R47 and 93 U4 ask for is the refusal; its place, after the BUSY and operand
checks, and its test, on all the bytes the command may write, are the model's (log entry 5). -/
def Obligations.CommandStopsOnlyOffPopulatedMemory : Prop :=
  ∀ (i : Instr) (s : State),
    (∀ f, exec i s ≠ .fault f) ∧
    (∀ r, exec i s = .refused r ↔
      (r = .footprintNotPopulated ∧ s.resetAsserted = false ∧ s.busy = false ∧ operandsOk i s.opnd = true ∧
        footPopulated s.inst i s.opnd = false))

/-- 10 R27: no flag but BUSY changes what a command does to memory, the engine or the operand registers, nor whether it stops. -/
def Obligations.FlagsDoNotChangeResults : Prop :=
  ∀ (i : Instr) (s t : State) (f : Status), exec i s = .next t →
    ∃ u, exec i { s with status := f } = .next u ∧ u.mem = t.mem ∧ u.engine = t.engine ∧ u.opnd = t.opnd

/-! ## Completion at level `command` (00 R8) -/

/-- 40 R90, 41 R100, 42 R110, 30 R74: DECODE, TILECONV and DRAWTILE, accepted at level `command`, apply their pseudocode to memory
and complete: BUSY = 0, DONE = 1, nothing else changed. -/
def Obligations.CommandsComplete : Prop :=
  ∀ s : State, s.level = .command →
    (s.accepts .decode = true →
      exec .decode s = .next { s with mem := decodeRun s.opnd s.mem, status := { s.status with done := true } }) ∧
    (s.accepts .tileconv = true →
      exec .tileconv s = .next { s with mem := tileRun s.opnd s.mem, status := { s.status with done := true } }) ∧
    (s.accepts .drawtile = true →
      exec .drawtile s =
        .next { s with mem := drawRun s.inst s.opnd s.mem, status := { s.status with done := true } })

/-! ## DECODE -/

/-- 40 R92: after DECODE, under the caller's contract, the byte of a pixel is its colour if that differs from KEY and what it was
if not; no other byte is written. -/
def Obligations.DecodeTransparency : Prop :=
  ∀ s : State, s.inv = true → s.level = .command → s.accepts .decode = true → DecodeContract s.opnd →
    ∃ t, exec .decode s = .next t ∧ t.status.done = true ∧
      (∀ x y, x < s.opnd.widthPixels → y < s.opnd.heightRows →
        memRead t.mem (pixelAddr s.opnd.dstAddr s.opnd.pitchBytes y x) =
          if pixelByte (pixelColour (decodeLayout s.opnd) s.mem x y) ≠ s.opnd.key then
            pixelByte (pixelColour (decodeLayout s.opnd) s.mem x y)
          else memRead s.mem (pixelAddr s.opnd.dstAddr s.opnd.pitchBytes y x)) ∧
      ∀ a, (∀ x y, x < s.opnd.widthPixels → y < s.opnd.heightRows →
          busAddr a ≠ busAddr (pixelAddr s.opnd.dstAddr s.opnd.pitchBytes y x)) →
        memRead t.mem a = memRead s.mem a

/-- 40 R93: with KEY of 16 or more every destination byte is written; with KEY of 15 or less exactly the pixels of colour KEY are
skipped. -/
def Obligations.DecodeKeyMatchesNoColour : Prop :=
  ∀ s : State, s.inv = true → s.level = .command → s.accepts .decode = true → DecodeContract s.opnd →
    ∃ t, exec .decode s = .next t ∧ ∀ x y, x < s.opnd.widthPixels → y < s.opnd.heightRows →
      (16 ≤ s.opnd.key.toNat → memRead t.mem (pixelAddr s.opnd.dstAddr s.opnd.pitchBytes y x) =
        pixelByte (pixelColour (decodeLayout s.opnd) s.mem x y)) ∧
      (s.opnd.key.toNat ≤ 15 →
        ((pixelColour (decodeLayout s.opnd) s.mem x y).toNat = s.opnd.key.toNat →
          memRead t.mem (pixelAddr s.opnd.dstAddr s.opnd.pitchBytes y x) =
            memRead s.mem (pixelAddr s.opnd.dstAddr s.opnd.pitchBytes y x)) ∧
        ((pixelColour (decodeLayout s.opnd) s.mem x y).toNat ≠ s.opnd.key.toNat →
          memRead t.mem (pixelAddr s.opnd.dstAddr s.opnd.pitchBytes y x) =
            pixelByte (pixelColour (decodeLayout s.opnd) s.mem x y)))

/-- 40 R94: DECODE of an empty image makes no access and completes with DONE = 1, at either level of 00 R8. -/
def Obligations.DecodeEmptyImage : Prop :=
  ∀ s : State, s.resetAsserted = false → s.busy = false → s.opnd.width.toNat % 8 = 0 →
    (s.opnd.width.toNat = 0 ∨ s.opnd.height.toNat = 0) →
    commandTrace s.inst .decode s.opnd s.mem = [] ∧
    (s.level = .command → exec .decode s = .next { s with status := { s.status with done := true } }) ∧
    (s.level = .access → ∃ t, exec .decode s = .next t ∧ t.busy = true ∧
      t.engineTurn = { s with status := { s.status with done := true } })

/-- 40 R96 (a): two decodes of one source over one destination, with keys `k` and `l`, differ only at pixels of colour `k`
or `l`. -/
def Obligations.DecodeTwoKeysDifferOnlyThere : Prop :=
  ∀ (s : State) (k l : Byte), s.inv = true → s.level = .command → s.accepts .decode = true → DecodeContract s.opnd →
    ∃ t u, exec .decode { s with opnd := { s.opnd with key := k } } = .next t ∧
      exec .decode { s with opnd := { s.opnd with key := l } } = .next u ∧
      ∀ a, memRead t.mem a ≠ memRead u.mem a →
        ∃ x y, x < s.opnd.widthPixels ∧ y < s.opnd.heightRows ∧
          busAddr a = busAddr (pixelAddr s.opnd.dstAddr s.opnd.pitchBytes y x) ∧
          (pixelByte (pixelColour (decodeLayout s.opnd) s.mem x y) = k ∨
            pixelByte (pixelColour (decodeLayout s.opnd) s.mem x y) = l)

/-- 40 R96 (b): DECODE of a source built from a pixel grid, with a key that matches no colour, reproduces the grid (planes and
bits paired as the spec reads them: 92 D9). -/
def Obligations.DecodeReproducesGrid : Prop :=
  ∀ (s : State) (g : Nat → Nat → Colour), s.inv = true → s.level = .command → s.accepts .decode = true →
    DecodeContract s.opnd → 16 ≤ s.opnd.key.toNat →
    (∀ x y p, x < s.opnd.widthPixels → y < s.opnd.heightRows → p < 4 →
      (memRead s.mem (s.opnd.srcAddr + p * (s.opnd.heightRows * (s.opnd.widthPixels / 8)) +
        (y * (s.opnd.widthPixels / 8) + x / 8))).getLsbD (7 - x % 8) = (g x y).getLsbD p) →
    ∃ t, exec .decode s = .next t ∧ ∀ x y, x < s.opnd.widthPixels → y < s.opnd.heightRows →
      memRead t.mem (s.opnd.dstAddr + y * s.opnd.pitchBytes + x) = pixelByte (g x y)

/-- 20 R44: bit `p` of the colour of pixel `i` is bit `7 - i` of plane byte `p`, and nothing else has a part in it (the
pairing of planes and bits is the spec's own reading: R44, 92 D9). -/
def Obligations.ColourBitsComeFromPlanes : Prop :=
  ∀ (b : Planes) (i : Nat), i < 8 →
    (colour b i).getLsbD 0 = b.b0.getLsbD (7 - i) ∧ (colour b i).getLsbD 1 = b.b1.getLsbD (7 - i) ∧
    (colour b i).getLsbD 2 = b.b2.getLsbD (7 - i) ∧ (colour b i).getLsbD 3 = b.b3.getLsbD (7 - i)

/-- 40 R91: the accesses of DECODE, in order: for each row and byte column the four plane reads, then the writes of its pixels
in ascending order (the four bytes are those before the command, the source being no part of the destination; the
order is the spec's own choice: 92 D12). -/
def Obligations.DecodeAccessOrder : Prop :=
  ∀ (p : Instance) (o : OperandRegs) (m : Memory), DisjointAddrs (decodeReads o) (decodeWrites o) →
    commandTrace p .decode o m =
      (List.range (decodeLayout o).rows).flatMap fun y =>
        (List.range (decodeLayout o).bytesPerRow).flatMap fun xb =>
          [.read (busAddr (planeAddr (decodeLayout o) 0 y xb)), .read (busAddr (planeAddr (decodeLayout o) 1 y xb)),
           .read (busAddr (planeAddr (decodeLayout o) 2 y xb)), .read (busAddr (planeAddr (decodeLayout o) 3 y xb))] ++
          (List.range 8).filterMap fun i =>
            if pixelByte (pixelColour (decodeLayout o) m (8 * xb + i) y) ≠ o.key then
              some (.write (busAddr (o.dstAddr + y * o.pitchBytes + (8 * xb + i)))
                (pixelByte (pixelColour (decodeLayout o) m (8 * xb + i) y)))
            else none

/-- 20 R58: DECODE reads exactly the `4 * PS` source bytes, each once. -/
def Obligations.DecodeReadsEachSourceByteOnce : Prop :=
  ∀ (p : Instance) (o : OperandRegs) (m : Memory),
    ((commandTrace p .decode o m).filterMap Access.readAddr?).Nodup ∧
    ∀ a, a ∈ (commandTrace p .decode o m).filterMap Access.readAddr? ↔
      ∃ k, k < 4 * (o.heightRows * (o.widthPixels / 8)) ∧ a = busAddr (o.srcAddr + k)

/-- The frame of DECODE (40 R90, R97; 10 R11, R21, R24; 30 R72): operand registers, parameters and the host stay; E_OP stays, E_PARAM
is set on a bad WIDTH alone and E_BUSY on a busy engine alone; DONE stays while busy and is else 1 exactly on a completion in
this step; while reset is asserted nothing changes (70 R140); the engine stays but for an acceptance at level `access`, after which it runs the command; a discarded, rejected or
only accepted command leaves memory; every byte that is not `DST + y * PITCH + x` for a pixel of the image stays. -/
def Obligations.DecodeFrame : Prop :=
  ∀ s t : State, exec .decode s = .next t →
    t.opnd = s.opnd ∧ t.resetAsserted = s.resetAsserted ∧ t.inst = s.inst ∧ t.level = s.level ∧ t.host = s.host ∧
    t.draws = s.draws ∧
    t.status.eOp = s.status.eOp ∧
    t.status.eParam = (s.status.eParam || (!s.resetAsserted && !s.busy && decodeBadParam s.opnd)) ∧
    t.status.eBusy = (s.status.eBusy || (!s.resetAsserted && s.busy)) ∧
    t.status.done = (if s.resetAsserted || s.busy then s.status.done else s.accepts .decode && s.level == .command) ∧
    t.engine = (if s.accepts .decode && s.level == .access then .running (acceptedRun s.inst .decode s.opnd)
      else s.engine) ∧
    ((s.accepts .decode = false ∨ s.level = .access) → t.mem = s.mem) ∧
    ∀ a, busAddr a ∉ decodeWrites s.opnd → memRead t.mem a = memRead s.mem a

/-! ## TILECONV -/

/-- 41 R102: after TILECONV byte `j` of row `y` is the even pixel's colour in the high nibble and the odd pixel's in the low
nibble, whatever it held before; no byte outside the 128 is written. -/
def Obligations.TileconvPacksPixels : Prop :=
  ∀ s : State, s.inv = true → s.level = .command → s.accepts .tileconv = true → TileContract s.opnd →
    ∃ t, exec .tileconv s = .next t ∧ t.status.done = true ∧
      (∀ y j, y < 16 → j < 8 →
        memRead t.mem (s.opnd.dstAddr + 8 * y + j) =
          ((pixelColour (tileLayout s.opnd) s.mem (2 * j) y).setWidth 8 <<< 4) |||
            (pixelColour (tileLayout s.opnd) s.mem (2 * j + 1) y).setWidth 8) ∧
      ∀ a, (∀ k, k < 128 → busAddr a ≠ busAddr (s.opnd.dstAddr + k)) → memRead t.mem a = memRead s.mem a

/-- The frame of TILECONV (41 R100, R106; 10 R11, R21, R24; 30 R72): as DECODE's, without an operand check; every byte outside
`DST .. DST + 127` stays. -/
def Obligations.TileconvFrame : Prop :=
  ∀ s t : State, exec .tileconv s = .next t →
    t.opnd = s.opnd ∧ t.resetAsserted = s.resetAsserted ∧ t.inst = s.inst ∧ t.level = s.level ∧ t.host = s.host ∧
    t.draws = s.draws ∧
    t.status.eOp = s.status.eOp ∧ t.status.eParam = s.status.eParam ∧
    t.status.eBusy = (s.status.eBusy || (!s.resetAsserted && s.busy)) ∧
    t.status.done = (if s.resetAsserted || s.busy then s.status.done else s.accepts .tileconv && s.level == .command) ∧
    t.engine = (if s.accepts .tileconv && s.level == .access then .running (acceptedRun s.inst .tileconv s.opnd)
      else s.engine) ∧
    ((s.accepts .tileconv = false ∨ s.level = .access) → t.mem = s.mem) ∧
    ∀ a, busAddr a ∉ tileWrites s.opnd → memRead t.mem a = memRead s.mem a

/-! ## DRAWTILE -/

/-- 42 R111: what the four clamp tests leave: the closed form of each value, and the bounds after the tests (the
right clamp and the rounding of halves are the spec's own choices: 92 D17, D16; log entry 16). -/
def Obligations.DrawtileClampValues : Prop :=
  ∀ (p : Instance) (o : OperandRegs),
    (clipTile p o).x = max o.xoff.toInt 0 ∧ (clipTile p o).y = max o.yoff.toInt 0 ∧
    (clipTile p o).w = min (16 + min o.xoff.toInt 0) (p.tilemapW - max o.xoff.toInt 0) ∧
    (clipTile p o).h = min (16 + min o.yoff.toInt 0) (p.tilemapH - max o.yoff.toInt 0) ∧
    (clipTile p o).src =
      o.src.toNat + (if o.xoff.toInt < 0 then (-o.xoff.toInt).toNat / 2 else 0) +
        8 * (if o.yoff.toInt < 0 then (-o.yoff.toInt).toNat else 0) ∧
    0 ≤ (clipTile p o).x ∧ 0 ≤ (clipTile p o).y ∧ (clipTile p o).x + (clipTile p o).w ≤ p.tilemapW ∧
    (clipTile p o).y + (clipTile p o).h ≤ p.tilemapH ∧ (clipTile p o).w ≤ 16 ∧ (clipTile p o).h ≤ 16

/-- 42 R114: where something is drawn, every read is inside the tile's 128 bytes and every written pixel is inside the region. -/
def Obligations.DrawtileClampGuarantee : Prop :=
  ∀ (p : Instance) (o : OperandRegs), 0 < (clipTile p o).w → 0 < (clipTile p o).h →
    (∀ r j, r < (clipTile p o).rows → j < (clipTile p o).bytes →
      ∃ k, k ≤ 127 ∧ drawSrc (clipTile p o) r j = o.src.toNat + k) ∧
    ∀ r k, r < (clipTile p o).rows → k < 2 * (clipTile p o).bytes →
      ∃ px py, px < p.tilemapW ∧ py < p.tilemapH ∧
        drawDst o (clipTile p o) r k = o.dst.toNat + py * o.pitch.toNat + px

/-- 42 R113: nothing is left exactly when the tile is wholly outside the region; DRAWTILE then makes no access and completes
with DONE = 1, at either level of 00 R8. -/
def Obligations.DrawtileOutsideIsNoOp : Prop :=
  ∀ s : State, s.inst.wellFormed = true → s.resetAsserted = false → s.busy = false →
    (((clipTile s.inst s.opnd).w ≤ 0 ∨ (clipTile s.inst s.opnd).h ≤ 0) ↔
      (s.opnd.xoff.toInt ≤ -16 ∨ (s.inst.tilemapW : Int) ≤ s.opnd.xoff.toInt ∨
        s.opnd.yoff.toInt ≤ -16 ∨ (s.inst.tilemapH : Int) ≤ s.opnd.yoff.toInt)) ∧
    (((clipTile s.inst s.opnd).w ≤ 0 ∨ (clipTile s.inst s.opnd).h ≤ 0) →
      commandTrace s.inst .drawtile s.opnd s.mem = [] ∧
      (s.level = .command → exec .drawtile s = .next { s with status := { s.status with done := true } }) ∧
      (s.level = .access → ∃ t, exec .drawtile s = .next t ∧ t.busy = true ∧
        t.engineTurn = { s with status := { s.status with done := true } }))

/-- 42 R118: at `x_offset = -8` the effective width is 8, the source pointer is advanced by 4 bytes, and the four packed bytes 4
to 7 of each tile row land on region columns 0 to 7. -/
def Obligations.DrawtileBoundaryExample : Prop :=
  ∀ (p : Instance) (o : OperandRegs), o.xoff.toInt = -8 → 8 ≤ p.tilemapW → 0 ≤ o.yoff.toInt →
    o.yoff.toInt < p.tilemapH →
    (clipTile p o).w = 8 ∧ (clipTile p o).src = o.src.toNat + 4 ∧ (clipTile p o).x = 0 ∧ (clipTile p o).bytes = 4 ∧
    (∀ r j, drawSrc (clipTile p o) r j = o.src.toNat + 4 + 8 * r + j) ∧
    ∀ r k, drawDst o (clipTile p o) r k = o.dst.toNat + (o.yoff.toInt.toNat + r) * o.pitch.toNat + k

/-- 42 R112, R115: DRAWTILE, under the caller's contract, writes the nibble of tile pixel `(2 adv + k, vadv + r)` to column `k` of
drawn row `r` if it is not 0, leaves the byte if it is 0, and writes nothing else (at odd offsets by the spec's own
rounding: 92 D16). -/
def Obligations.DrawtileDrawsNonzeroNibbles : Prop :=
  ∀ s : State, s.inv = true → s.level = .command → s.accepts .drawtile = true → DrawContract s.inst s.opnd →
    ∃ t, exec .drawtile s = .next t ∧ t.status.done = true ∧
      (∀ r k, r < (clipTile s.inst s.opnd).rows → k < 2 * (clipTile s.inst s.opnd).bytes →
        memRead t.mem (drawDst s.opnd (clipTile s.inst s.opnd) r k) =
          if packedColour s.mem s.opnd.srcAddr (2 * leftAdvance s.opnd + k) (topAdvance s.opnd + r) ≠ 0 then
            pixelByte (packedColour s.mem s.opnd.srcAddr (2 * leftAdvance s.opnd + k) (topAdvance s.opnd + r))
          else memRead s.mem (drawDst s.opnd (clipTile s.inst s.opnd) r k)) ∧
      ∀ a, busAddr a ∉ drawWrites s.inst s.opnd → memRead t.mem a = memRead s.mem a

/-- The frame of DRAWTILE (42 R110, R117; 10 R11, R21, R24; 30 R72): as TILECONV's; every byte stays but those of the drawn columns
and rows. -/
def Obligations.DrawtileFrame : Prop :=
  ∀ s t : State, exec .drawtile s = .next t →
    t.opnd = s.opnd ∧ t.resetAsserted = s.resetAsserted ∧ t.inst = s.inst ∧ t.level = s.level ∧ t.host = s.host ∧
    t.draws = s.draws ∧
    t.status.eOp = s.status.eOp ∧ t.status.eParam = s.status.eParam ∧
    t.status.eBusy = (s.status.eBusy || (!s.resetAsserted && s.busy)) ∧
    t.status.done = (if s.resetAsserted || s.busy then s.status.done else s.accepts .drawtile && s.level == .command) ∧
    t.engine = (if s.accepts .drawtile && s.level == .access then .running (acceptedRun s.inst .drawtile s.opnd)
      else s.engine) ∧
    ((s.accepts .drawtile = false ∨ s.level = .access) → t.mem = s.mem) ∧
    ∀ a, busAddr a ∉ drawWrites s.inst s.opnd → memRead t.mem a = memRead s.mem a

/-! ## All three commands -/

/-- 10 R22: at level `command` a register that a command ignores is neither checked nor changed: with any other value in it the
command does the same. -/
def Obligations.IgnoredOperandsHaveNoEffect : Prop :=
  ∀ s t : State, s.level = .command →
    (∀ x y, exec .decode s = .next t →
      exec .decode { s with opnd := { s.opnd with xoff := x, yoff := y } } =
        .next { t with opnd := { s.opnd with xoff := x, yoff := y } }) ∧
    (∀ p w h k x y, exec .tileconv s = .next t →
      exec .tileconv { s with opnd := ⟨s.opnd.src, s.opnd.dst, p, w, h, k, x, y⟩ } =
        .next { t with opnd := ⟨s.opnd.src, s.opnd.dst, p, w, h, k, x, y⟩ }) ∧
    (∀ w h k, exec .drawtile s = .next t →
      exec .drawtile { s with opnd := { s.opnd with width := w, height := h, key := k } } =
        .next { t with opnd := { s.opnd with width := w, height := h, key := k } })

/-- 20 R29, R55, 42 R115, 41 R102: a tile converted and then drawn inside the region shows its planar colours, colour 0
transparent (planes and bits paired as the spec reads them: 92 D9). -/
def Obligations.ConvertedTileIsDrawn : Prop :=
  ∀ (s t : State) (o : OperandRegs), s.inv = true → s.level = .command → s.accepts .tileconv = true →
    TileContract s.opnd → exec .tileconv s = .next t →
    o.src = s.opnd.dst → ({ t with opnd := o } : State).accepts .drawtile = true → DrawContract s.inst o →
    0 ≤ o.xoff.toInt → o.xoff.toInt + 16 ≤ s.inst.tilemapW → 0 ≤ o.yoff.toInt → o.yoff.toInt + 16 ≤ s.inst.tilemapH →
    ∃ u, exec .drawtile { t with opnd := o } = .next u ∧ ∀ x y, x < 16 → y < 16 →
      memRead u.mem (o.dst.toNat + (o.yoff.toInt.toNat + y) * o.pitch.toNat + (o.xoff.toInt.toNat + x)) =
        if pixelColour (tileLayout s.opnd) s.mem x y ≠ 0 then
          pixelByte (pixelColour (tileLayout s.opnd) s.mem x y)
        else memRead t.mem (o.dst.toNat + (o.yoff.toInt.toNat + y) * o.pitch.toNat + (o.xoff.toInt.toNat + x))

/-! ## The engine, access by access -/

/-- 00 R8, 30 R74: DECODE run one access at a time, undisturbed, completes after a fixed finite number of moves in the state that
the atomic DECODE gives (levels and moves: log entries 1, 14). -/
def Obligations.DecodeAccessRunIsAtomicRun : Prop :=
  ∀ s : State, s.accepts .decode = true → s.level = .access → s.host.queue = [] →
    ∃ t u, exec .decode s = .next t ∧ exec .decode { s with level := .command } = .next u ∧
      Host.Core.run Sys2Proof.core (commandMoves s.inst .decode s.opnd) t = .next { u with level := .access }

/-- 00 R8, 30 R74, 41 R101: TILECONV run one access at a time, undisturbed, completes after a fixed number of moves in the state
that the atomic TILECONV gives (levels and moves: log entries 1, 14). -/
def Obligations.TileconvAccessRunIsAtomicRun : Prop :=
  ∀ s : State, s.accepts .tileconv = true → s.level = .access → s.host.queue = [] →
    ∃ t u, exec .tileconv s = .next t ∧ exec .tileconv { s with level := .command } = .next u ∧
      Host.Core.run Sys2Proof.core (commandMoves s.inst .tileconv s.opnd) t = .next { u with level := .access }

/-- 00 R8, 30 R74, 42 R117: DRAWTILE run one access at a time, undisturbed, completes after a fixed finite number of moves in
the state that the atomic DRAWTILE gives (levels and moves: log entries 1, 14). -/
def Obligations.DrawtileAccessRunIsAtomicRun : Prop :=
  ∀ s : State, s.accepts .drawtile = true → s.level = .access → s.host.queue = [] →
    ∃ t u, exec .drawtile s = .next t ∧ exec .drawtile { s with level := .command } = .next u ∧
      Host.Core.run Sys2Proof.core (commandMoves s.inst .drawtile s.opnd) t = .next { u with level := .access }

/-- 70 R153: the work of a run: DECODE makes `4 * PS` reads and at most `WIDTH * HEIGHT` writes; TILECONV reads the 128 source bytes
and the 128 destination bytes once each and makes 256 writes (the read-backs are those of the literal form: log entry 15);
DRAWTILE `h * (w div 2)` reads, at most 128, and at most twice as many writes. -/
def Obligations.AccessCounts : Prop :=
  ∀ (p : Instance) (o : OperandRegs) (m : Memory),
    ((commandTrace p .decode o m).filterMap Access.readAddr?).length = 4 * (o.heightRows * (o.widthPixels / 8)) ∧
    ((commandTrace p .decode o m).filterMap Access.writeAddr?).length ≤ o.widthPixels * o.heightRows ∧
    ((commandTrace p .tileconv o m).filterMap Access.readAddr?).Perm
      ((List.range 128).map (fun k => busAddr (o.src.toNat + k)) ++
        (List.range 128).map (fun k => busAddr (o.dst.toNat + k))) ∧
    ((commandTrace p .tileconv o m).filterMap Access.readAddr?).length = 256 ∧
    ((commandTrace p .tileconv o m).filterMap Access.writeAddr?).length = 256 ∧
    ((commandTrace p .drawtile o m).filterMap Access.readAddr?).length = (clipTile p o).rows * (clipTile p o).bytes ∧
    (clipTile p o).rows * (clipTile p o).bytes ≤ 128 ∧
    ((commandTrace p .drawtile o m).filterMap Access.writeAddr?).length ≤
      2 * ((clipTile p o).rows * (clipTile p o).bytes)

/-- 20 R58, 60 R133: in a state that meets the invariant the engine's next access lies inside its command's footprint; a read
back of TILECONV lies in its write footprint. -/
def Obligations.EngineStaysInFootprint : Prop :=
  ∀ (s : State) (r : Run), s.inv = true → s.engine = .running r →
    (∀ a, r.access = some (.read a) → a ∈ r.reads s.inst ∨ (r.op = .tileconv ∧ a ∈ r.writes s.inst)) ∧
    ∀ a v, r.access = some (.write a v) → a ∈ r.writes s.inst

/-- 30 R74: the completion: with no access left the next move makes BUSY = 0 and DONE = 1 and changes nothing else. -/
def Obligations.CompletionIsOneStep : Prop :=
  ∀ (s : State) (r : Run), s.host.queue = [] → s.engine = .running r → r.pos = .finished → r.breached = false →
    step s = .next { s with engine := .idle, status := { s.status with done := true } }

/-- 70 R140, 60 R133: an idle block to which nothing is done does nothing (the stuttering step: log entry 20). -/
def Obligations.IdleBlockStandsStill : Prop :=
  ∀ s : State, s.busy = false → s.host.queue = [] → step s = .next s

/-- 60 R125, 93 U7: the race of a write to an operand register with a completion has two outcomes, by the order: discarded with
E_BUSY, or handled as an idle write; the command completes with DONE = 1 either way (the
model orders them by the queue: log entry 12). -/
def Obligations.WriteAgainstCompletionRace : Prop :=
  ∀ (s : State) (r : Run) (n : OperandName) (v : Word), s.resetAsserted = false → s.engine = .running r →
    r.pos = .finished → r.breached = false →
    (s.host.queue = [wr s.inst (.operand n) v, .turn] →
      ∃ t, Host.Core.run Sys2Proof.core 2 s = .next t ∧ t.busy = false ∧ t.status.done = true ∧ t.opnd = s.opnd ∧
        t.status.eBusy = true) ∧
    (s.host.queue = [.turn, wr s.inst (.operand n) v] →
      ∃ t, Host.Core.run Sys2Proof.core 2 s = .next t ∧ t.busy = false ∧ t.status.done = true ∧
        t.opnd = s.opnd.write n v ∧ t.status.eBusy = s.status.eBusy)

/-- 70 R146, 93 U6: a run whose footprint another agent wrote into completes with DONE = 1 and changes, at its completion, no
byte outside its write footprint (the bytes inside are free: log entry 8). So does, from every state of the invariant, a run
whose footprint another agent writes into now: it completes, and no byte outside the write footprint changes but the one
written. -/
def Obligations.BreachedRunCompletes : Prop :=
  (∀ (s : State) (r : Run), s.host.queue = [] → s.engine = .running r → r.pos = .finished → r.breached = true →
    ∃ t, step s = .next t ∧ t.busy = false ∧ t.status.done = true ∧ t.opnd = s.opnd ∧
      ∀ a, busAddr a ∉ r.writes s.inst → memRead t.mem a = memRead s.mem a) ∧
  ∀ (s : State) (r : Run) (a : Word) (v : Byte), s.inv = true → s.engine = .running r →
    s.host.queue = [.memWrite a v] → populatedAt s.inst a.toNat = true →
    (a.toNat ∈ r.reads s.inst ∨ a.toNat ∈ r.writes s.inst) →
    ∃ n t, Host.Core.run Sys2Proof.core n s = .next t ∧ t.busy = false ∧ t.status.done = true ∧ t.opnd = s.opnd ∧
      ∀ b, busAddr b ∉ r.writes s.inst → memRead t.mem b = if busAddr b = a.toNat then v else memRead s.mem b

/-! ## The machine as a whole -/

/-- Every step keeps the invariant: memory in canonical form (20 R46), the instance's parameters in their ranges (00 R5, R6),
the latches equal to the operand registers (10 R24), the run's footprint populated (20 R47), its position inside the loops of its
command (10 R25), and the state of 10 R30 while reset is asserted (70 R140). -/
def Obligations.StepKeepsInvariant : Prop :=
  ∀ s t : State, s.inv = true → step s = .next t → t.inv = true

/-- The state after reset meets the invariant, with any well-formed parameters and any canonical memory (the
parameters of `State.reset`: log entry 3). -/
def Obligations.ResetMeetsInvariant : Prop :=
  State.reset.inv = true ∧
  ∀ (p : Instance) (m : Memory), p.wellFormed = true → Memory.wf m = true → (State.resetOf p m).inv = true

/-- 10 R11, 60 R133: the operand registers change only by a host write to an operand register or by reset: no command, no move of
the engine and no other transaction changes one. -/
def Obligations.OperandsChangeOnlyByHost : Prop :=
  ∀ s t : State, s.inv = true → step s = .next t → t.opnd ≠ s.opnd →
    s.nextIs (.resetInput true) ∨
      (s.resetAsserted = false ∧ s.busy = false ∧ ∃ e n v, s.nextIs e ∧ eventWrites s.inst e (.operand n) v)

/-- 10 R21, 60 R127: a set error bit stays set until a STATUS write holds a 1 in its place or the block is reset. -/
def Obligations.ErrorBitsAreSticky : Prop :=
  ∀ s t : State, s.inv = true → step s = .next t → ¬ s.nextIs (.resetInput true) →
    (s.status.eOp = true → t.status.eOp = false →
      ∃ e v, s.nextIs e ∧ eventWrites s.inst e .status v ∧ v.getLsbD 4 = true) ∧
    (s.status.eParam = true → t.status.eParam = false →
      ∃ e v, s.nextIs e ∧ eventWrites s.inst e .status v ∧ v.getLsbD 5 = true) ∧
    (s.status.eBusy = true → t.status.eBusy = false →
      ∃ e v, s.nextIs e ∧ eventWrites s.inst e .status v ∧ v.getLsbD 6 = true)

/-- 60 R133: the engine never starts by itself: an idle block becomes busy only by a write to CMD of the word of a command that it
accepts, and then that command runs. -/
def Obligations.EngineStartsOnlyByCommand : Prop :=
  ∀ s t : State, s.busy = false → step s = .next t → t.busy = true →
    ∃ e v i, s.nextIs e ∧ eventWrites s.inst e .cmd v ∧ v = encode i ∧ s.accepts i = true ∧
      t.engine = .running (acceptedRun s.inst i s.opnd)

/-- 60 R133: pixel memory does not change while the block is idle but by a command presented in that step or by another agent's
write. -/
def Obligations.IdleBlockLeavesMemory : Prop :=
  ∀ s t : State, s.busy = false → step s = .next t → t.mem ≠ s.mem →
    (∃ e v i, s.nextIs e ∧ eventWrites s.inst e .cmd v ∧ v = encode i) ∨ ∃ a v, s.nextIs (.memWrite a v)

/-- 20 R46, 10 R29: another agent's byte written to populated memory while the engine is idle is what its next read of that
address returns, and every other byte stays. -/
def Obligations.HostReadsBackItsByte : Prop :=
  ∀ (s : State) (a : Word) (v : Byte), s.inv = true → s.busy = false → populatedAt s.inst a.toNat = true →
    s.host.queue = [.memWrite a v, .memRead a] →
    ∃ t, Host.Core.run Sys2Proof.core 2 s = .next t ∧ t.host.memData = v ∧ memRead t.mem a.toNat = v ∧
      ∀ b, busAddr b ≠ a.toNat → memRead t.mem b = memRead s.mem b

/-- 20 R47, R49: a host access to an address with no memory stops with the fault of that name (the model's stop:
log entry 18). -/
def Obligations.HostAccessOffMemoryFaults : Prop :=
  ∀ (s : State) (a : Word) (e : HostEvent) (q : List HostEvent), populatedAt s.inst a.toNat = false →
    s.host.queue = e :: q → (e = .memRead a ∨ ∃ v, e = .memWrite a v) →
    step s = .fault .hostAccessUnpopulated

/-- 30 R78: `WAIT` reads STATUS; with BUSY = 0 it is done and only the host's queue and read data change, with BUSY = 1 it
stays and the engine makes a move (log entry 22). -/
def Obligations.WaitPollsStatus : Prop :=
  ∀ (s : State) (q : List HostEvent), s.host.queue = .wait :: q →
    ∃ t, step s = .next t ∧ t.host.regData = s.statusWord ∧
      (s.busy = false → t = { s with host := { s.host with queue := q, regData := s.statusWord } }) ∧
      (s.busy = true → t.host.queue = .wait :: q ∧ t.opnd = s.opnd ∧ t.mem = s.engineTurn.mem ∧
        t.engine = s.engineTurn.engine ∧ t.status = s.engineTurn.status)

/-- 30 R78, 40 R90: the host's sequence `decode s, d, p, w, h, k` on an idle block at level `command` is the source's
`decode(src, dst, dst_pitch, width, height, transparent_color)`: after its eight transactions the operand registers hold the
arguments, memory is DECODE's, and the last STATUS read shows DONE without BUSY. -/
def Obligations.DecodeSequenceIsTheCall : Prop :=
  ∀ (s : State) (src dst pitch w h k : Word) (o : OperandRegs), s.resetAsserted = false → s.busy = false →
    s.level = .command → s.host.queue = seqDecode s.inst src dst pitch w h k →
    o = ⟨src, dst, pitch, w.setWidth 16, h.setWidth 16, k.setWidth 8, s.opnd.xoff, s.opnd.yoff⟩ →
    operandsOk .decode o = true → footPopulated s.inst .decode o = true →
    ∃ t, Host.Core.run Sys2Proof.core 8 s = .next t ∧ t.opnd = o ∧ t.mem = decodeRun o s.mem ∧
      t.status = { s.status with done := true } ∧ t.host.queue = [] ∧ t.host.regData = t.statusWord ∧
      t.host.regData.getLsbD 0 = false ∧ t.host.regData.getLsbD 1 = true

/-! ## The orders and sequences of the other commands, and the other agents during a run -/

/-- 41 R101, R106, 20 R58: the accesses of TILECONV, in order: for each row and byte column the four plane reads, then for each pair
of pixels the even pixel's write, the read-back, and the odd pixel's write, all of the pair's byte. So each source byte is read
once, and each destination byte is written twice and read once between. The order of rows, columns and plane reads is the spec's
own choice (92 D12), the literal read-back is log entry 15. -/
def Obligations.TileconvAccessOrder : Prop :=
  ∀ (p : Instance) (o : OperandRegs) (m : Memory), Memory.wf m = true → TileContract o →
    (commandTrace p .tileconv o m =
      (List.range 16).flatMap fun y => (List.range 2).flatMap fun xb =>
        [.read (busAddr (o.src.toNat + 32 * 0 + 2 * y + xb)), .read (busAddr (o.src.toNat + 32 * 1 + 2 * y + xb)),
         .read (busAddr (o.src.toNat + 32 * 2 + 2 * y + xb)), .read (busAddr (o.src.toNat + 32 * 3 + 2 * y + xb))] ++
        (List.range 4).flatMap fun k =>
          [.write (busAddr (o.dst.toNat + 8 * y + (4 * xb + k)))
            ((pixelColour (tileLayout o) m (8 * xb + 2 * k) y).setWidth 8 <<< 4),
           .read (busAddr (o.dst.toNat + 8 * y + (4 * xb + k))),
           .write (busAddr (o.dst.toNat + 8 * y + (4 * xb + k)))
            (((pixelColour (tileLayout o) m (8 * xb + 2 * k) y).setWidth 8 <<< 4) |||
              (pixelColour (tileLayout o) m (8 * xb + 2 * k + 1) y).setWidth 8)]) ∧
    ∀ k, k < 128 →
      ((commandTrace p .tileconv o m).filterMap Access.readAddr?).count (busAddr (o.src.toNat + k)) = 1 ∧
      ((commandTrace p .tileconv o m).filterMap Access.readAddr?).count (busAddr (o.dst.toNat + k)) = 1 ∧
      ((commandTrace p .tileconv o m).filterMap Access.writeAddr?).count (busAddr (o.dst.toNat + k)) = 2

/-- 42 R117, 20 R58: the accesses of DRAWTILE, in order: for each drawn row and packed byte one read, then the write of the high
nibble to its column, then of the low nibble to the next, each if it is not 0. So each source byte of the footprint is read once
and no other, no destination byte is read, and none is written twice. -/
def Obligations.DrawtileAccessOrder : Prop :=
  ∀ (p : Instance) (o : OperandRegs) (m : Memory),
    (DisjointAddrs (drawReads p o) (drawWrites p o) →
      commandTrace p .drawtile o m =
        (List.range (clipTile p o).rows).flatMap fun r => (List.range (clipTile p o).bytes).flatMap fun j =>
          [.read (busAddr ((clipTile p o).src + 8 * r + j))] ++
          (if highNibble (memRead m ((clipTile p o).src + 8 * r + j)) ≠ 0 then
            [.write (busAddr (o.dst.toNat + ((clipTile p o).y.toNat + r) * o.pitch.toNat +
                ((clipTile p o).x.toNat + 2 * j)))
              (pixelByte (highNibble (memRead m ((clipTile p o).src + 8 * r + j))))] else []) ++
          (if lowNibble (memRead m ((clipTile p o).src + 8 * r + j)) ≠ 0 then
            [.write (busAddr (o.dst.toNat + ((clipTile p o).y.toNat + r) * o.pitch.toNat +
                ((clipTile p o).x.toNat + (2 * j + 1))))
              (pixelByte (lowNibble (memRead m ((clipTile p o).src + 8 * r + j))))] else [])) ∧
    ((commandTrace p .drawtile o m).filterMap Access.readAddr?).Nodup ∧
    (∀ a, a ∈ (commandTrace p .drawtile o m).filterMap Access.readAddr? ↔
      ∃ r j, r < (clipTile p o).rows ∧ j < (clipTile p o).bytes ∧ a = busAddr ((clipTile p o).src + 8 * r + j)) ∧
    (DrawContract p o → ((commandTrace p .drawtile o m).filterMap Access.writeAddr?).Nodup ∧
      ∀ a, a ∈ drawWrites p o → a ∉ (commandTrace p .drawtile o m).filterMap Access.readAddr?)

/-- 70 R146, 93 U6, 10 R29: what another agent does to pixel memory while a command runs. Its write stores its byte and no other, and
marks the run as broken into exactly when the byte is in the run's footprint (the mark is the model's: log entry 8). Its read
of a byte outside the write footprint returns the byte there; of a byte inside, any value, a free one (log entries 8, 18). -/
def Obligations.ForeignAccessDuringRun : Prop :=
  ∀ (s : State) (r : Run) (a : Word) (q : List HostEvent), s.inv = true → s.engine = .running r →
    populatedAt s.inst a.toNat = true →
    (∀ v : Byte, s.host.queue = .memWrite a v :: q →
      ∃ t, step s = .next t ∧ t = { s.withQueue q with mem := t.mem, engine := t.engine } ∧
        (∀ b, memRead t.mem b = if busAddr b = a.toNat then v else memRead s.mem b) ∧
        ((a.toNat ∈ r.reads s.inst ∨ a.toNat ∈ r.writes s.inst) → t.engine = .running { r with breached := true }) ∧
        ((a.toNat ∉ r.reads s.inst ∧ a.toNat ∉ r.writes s.inst) → t.engine = .running r)) ∧
    (s.host.queue = .memRead a :: q →
      (a.toNat ∉ r.writes s.inst →
        step s = .next { s with host := { s.host with queue := q, memData := memRead s.mem a.toNat } }) ∧
      (a.toNat ∈ r.writes s.inst →
        step s = .next { s with
          host := { s.host with queue := q, memData := Config.freeByte s.draws }, draws := s.draws + 1 }))

/-- 30 R78, 41 R100, 42 R110: the host's sequences `tileconv s, d` and `draw_tile s, d, p, xo, yo` on an idle block at level `command`:
after their four and seven transactions the operand registers hold the arguments, memory is the command's, and the last STATUS
read shows DONE without BUSY. -/
def Obligations.TileSequencesAreTheCalls : Prop :=
  (∀ (s : State) (src dst : Word) (o : OperandRegs), s.resetAsserted = false → s.busy = false → s.level = .command →
    s.host.queue = seqTileconv s.inst src dst → o = { s.opnd with src := src, dst := dst } →
    footPopulated s.inst .tileconv o = true →
    ∃ t, Host.Core.run Sys2Proof.core 4 s = .next t ∧ t.opnd = o ∧ t.mem = tileRun o s.mem ∧
      t.status = { s.status with done := true } ∧ t.host.queue = [] ∧ t.host.regData = t.statusWord ∧
      t.host.regData.getLsbD 0 = false ∧ t.host.regData.getLsbD 1 = true) ∧
  ∀ (s : State) (src dst pitch xo yo : Word) (o : OperandRegs), s.resetAsserted = false → s.busy = false →
    s.level = .command →
    s.host.queue = seqDrawTile s.inst src dst pitch xo yo →
    o = { s.opnd with src := src, dst := dst, pitch := pitch, xoff := xo.setWidth 16, yoff := yo.setWidth 16 } →
    footPopulated s.inst .drawtile o = true →
    ∃ t, Host.Core.run Sys2Proof.core 7 s = .next t ∧ t.opnd = o ∧ t.mem = drawRun s.inst o s.mem ∧
      t.status = { s.status with done := true } ∧ t.host.queue = [] ∧ t.host.regData = t.statusWord ∧
      t.host.regData.getLsbD 0 = false ∧ t.host.regData.getLsbD 1 = true
end

