-- ==== Sys2Proof/Laws/Memory.lean ====
section
/-! SUPPORT. The laws of pixel memory: a read after a write, the canonical form kept by every operation, and what a loop
leaves alone. -/

namespace Sys2Proof.Machine

theorem busAddr_lt (a : Nat) : busAddr a < Config.memorySize := Nat.mod_lt _ (by decide)

@[simp] theorem busAddr_busAddr (a : Nat) : busAddr (busAddr a) = busAddr a := Nat.mod_mod _ _

theorem busAddr_of_lt {a : Nat} (h : a < Config.memorySize) : busAddr a = a := Nat.mod_eq_of_lt h

/-! ## Reading what was written -/

theorem Memory.get_cell (a b : Nat) (v : Byte) (t : Memory) (h : v = Config.unwrittenByte → a = b →
    Memory.get t b = Config.unwrittenByte) : Memory.get (Memory.cell a v t) b = if a = b then v else Memory.get t b := by
  unfold Memory.cell
  split <;> rename_i hv
  · split <;> rename_i hab
    · rw [hv, h hv hab]
    · rfl
  · simp [Memory.get]

/-- A write leaves every other address alone, in any memory. -/
theorem Memory.get_set_other (m : Memory) {a b : Nat} (v : Byte) (h : a ≠ b) :
    Memory.get (Memory.set m a v) b = Memory.get m b := by
  induction m with
  | nil => unfold Memory.set; rw [Memory.get_cell _ _ _ _ (fun _ e => absurd e h), if_neg h]
  | cons c t ih =>
    obtain ⟨k, x⟩ := c
    unfold Memory.set
    split
    · rw [Memory.get_cell _ _ _ _ (fun _ e => absurd e h), if_neg h]
    · split <;> rename_i hk
      · rw [Memory.get_cell _ _ _ _ (fun _ e => absurd e h), if_neg h, Memory.get, if_neg (hk ▸ h)]
      · simp only [Memory.get, ih]

theorem Memory.risingFrom_mono {lo lo' : Nat} {m : Memory} (h : Memory.risingFrom lo m = true) (hl : lo' ≤ lo) :
    Memory.risingFrom lo' m = true := by
  cases m with
  | nil => rfl
  | cons c t =>
    obtain ⟨k, x⟩ := c
    simp only [Memory.risingFrom, Bool.and_eq_true, decide_eq_true_eq] at h ⊢
    exact ⟨⟨⟨by omega, h.1.1.2⟩, h.1.2⟩, h.2⟩

/-- Below its first address a canonical memory holds unwritten bytes. -/
theorem Memory.get_below {lo b : Nat} {m : Memory} (h : Memory.risingFrom lo m = true) (hb : b < lo) :
    Memory.get m b = Config.unwrittenByte := by
  induction m generalizing lo with
  | nil => rfl
  | cons c t ih =>
    obtain ⟨k, x⟩ := c
    simp only [Memory.risingFrom, Bool.and_eq_true, decide_eq_true_eq] at h
    rw [Memory.get, if_neg (by omega), ih h.2 (by omega)]

theorem Memory.get_set_same_from {lo : Nat} {m : Memory} (h : Memory.risingFrom lo m = true) (a : Nat) (v : Byte) :
    Memory.get (Memory.set m a v) a = v := by
  induction m generalizing lo with
  | nil => unfold Memory.set; rw [Memory.get_cell _ _ _ _ (fun _ _ => rfl), if_pos rfl]
  | cons c t ih =>
    obtain ⟨k, x⟩ := c
    simp only [Memory.risingFrom, Bool.and_eq_true, decide_eq_true_eq] at h
    unfold Memory.set
    split
    · rw [Memory.get_cell, if_pos rfl]
      intro _ _
      rw [Memory.get, if_neg (by omega), Memory.get_below h.2 (by omega)]
    · split <;> rename_i hk
      · rw [Memory.get_cell, if_pos rfl]
        intro _ _
        exact Memory.get_below h.2 (by omega)
      · rw [Memory.get, if_neg (fun e => hk e.symm), ih h.2]

/-- In a canonical memory a read after a write to the same address gives the byte written. -/
theorem Memory.get_set_same {m : Memory} (h : Memory.wf m = true) (a : Nat) (v : Byte) :
    Memory.get (Memory.set m a v) a = v := Memory.get_set_same_from h a v

/-- Reading the address `b` after a write at `a`, on the memory port (20 R46, R48). -/
theorem memRead_memWrite {m : Memory} (h : Memory.wf m = true) (a b : Nat) (v : Byte) :
    memRead (memWrite m a v) b = if busAddr a = busAddr b then v else memRead m b := by
  unfold memRead memWrite
  split <;> rename_i hab
  · rw [hab, Memory.get_set_same h]
  · exact Memory.get_set_other _ _ hab

theorem memRead_memWrite_other (m : Memory) {a b : Nat} (v : Byte) (h : busAddr a ≠ busAddr b) :
    memRead (memWrite m a v) b = memRead m b := Memory.get_set_other m v h

@[simp] theorem memRead_busAddr (m : Memory) (a : Nat) : memRead m (busAddr a) = memRead m a := by simp [memRead]

@[simp] theorem memWrite_busAddr (m : Memory) (a : Nat) (v : Byte) : memWrite m (busAddr a) v = memWrite m a v := by
  simp [memWrite]

/-! ## The canonical form -/

theorem Memory.risingFrom_cell {lo a : Nat} {v : Byte} {t : Memory} (ht : Memory.risingFrom (a + 1) t = true)
    (hl : lo ≤ a) (ha : a < Config.memorySize) : Memory.risingFrom lo (Memory.cell a v t) = true := by
  unfold Memory.cell
  split <;> rename_i hv
  · exact Memory.risingFrom_mono ht (by omega)
  · simp [Memory.risingFrom, hl, ha, hv, ht]

theorem Memory.risingFrom_set {lo a : Nat} {m : Memory} (h : Memory.risingFrom lo m = true) (hl : lo ≤ a)
    (ha : a < Config.memorySize) (v : Byte) : Memory.risingFrom lo (Memory.set m a v) = true := by
  induction m generalizing lo with
  | nil => exact Memory.risingFrom_cell (t := []) rfl hl ha
  | cons c t ih =>
    obtain ⟨k, x⟩ := c
    have h' := h
    simp only [Memory.risingFrom, Bool.and_eq_true, decide_eq_true_eq] at h
    unfold Memory.set
    split
    · refine Memory.risingFrom_cell ?_ hl ha
      simp only [Memory.risingFrom, Bool.and_eq_true, decide_eq_true_eq]
      exact ⟨⟨⟨by omega, h.1.1.2⟩, h.1.2⟩, h.2⟩
    · split <;> rename_i hk
      · exact Memory.risingFrom_cell (hk ▸ h.2) hl ha
      · simp only [Memory.risingFrom, Bool.and_eq_true, decide_eq_true_eq]
        exact ⟨h.1, ih h.2 (by omega)⟩

theorem Memory.wf_nil : Memory.wf [] = true := rfl

/-- A write on the memory port keeps the canonical form. -/
theorem memWrite_wf {m : Memory} (h : Memory.wf m = true) (a : Nat) (v : Byte) : Memory.wf (memWrite m a v) = true :=
  Memory.risingFrom_set h (Nat.zero_le _) (busAddr_lt a) v

/-- Offsets from one base that fit the address space meet only where they are equal. -/
theorem busAddr_add_inj {D k k' : Nat} (hk : k < Config.memorySize) (hk' : k' < Config.memorySize)
    (e : busAddr (D + k) = busAddr (D + k')) : k = k' :=
  Nat.ModEq.eq_of_lt_of_lt (Nat.ModEq.add_left_cancel' D e) hk hk'

/-! ## Loops -/

@[simp] theorem loopUp_zero (body : Nat → Memory → Memory) (m : Memory) : loopUp 0 body m = m := rfl

theorem loopUp_succ (n : Nat) (body : Nat → Memory → Memory) (m : Memory) :
    loopUp (n + 1) body m = body n (loopUp n body m) := rfl

/-- What holds before a loop and is kept by every turn of its body holds after it. -/
theorem loopUp_keeps {P : Memory → Prop} {body : Nat → Memory → Memory} {n : Nat} {m : Memory}
    (hb : ∀ k < n, ∀ x, P x → P (body k x)) (hm : P m) : P (loopUp n body m) := by
  induction n with
  | zero => exact hm
  | succ n ih => exact hb n (Nat.lt_succ_self n) _ (ih fun k hk => hb k (Nat.lt_succ_of_lt hk))

/-- A loop keeps the canonical form if its body does. -/
theorem loopUp_wf {body : Nat → Memory → Memory} {n : Nat} {m : Memory}
    (hb : ∀ k < n, ∀ x, Memory.wf x = true → Memory.wf (body k x) = true) (hm : Memory.wf m = true) :
    Memory.wf (loopUp n body m) = true :=
  loopUp_keeps (P := fun x => Memory.wf x = true) hb hm

/-- A loop leaves a byte alone if every turn of its body does. -/
theorem loopUp_read_other {body : Nat → Memory → Memory} {n a : Nat} {m : Memory}
    (hb : ∀ k < n, ∀ x, memRead (body k x) a = memRead x a) : memRead (loopUp n body m) a = memRead m a :=
  loopUp_keeps (P := fun x => memRead x a = memRead m a) (fun k hk x hx => (hb k hk x).trans hx) rfl

/-- A byte that no turn after turn `k` touches holds after the loop what turn `k` left in it. -/
theorem loopUp_read_at {body : Nat → Memory → Memory} {n k a : Nat} {m : Memory} (hk : k < n)
    (ho : ∀ j, k < j → j < n → ∀ x, memRead (body j x) a = memRead x a) :
    memRead (loopUp n body m) a = memRead (body k (loopUp k body m)) a := by
  induction n with
  | zero => omega
  | succ n ih =>
    rw [loopUp_succ]
    by_cases h : k = n
    · subst h; rfl
    · rw [ho n (by omega) (by omega), ih (by omega) fun j h1 h2 => ho j h1 (by omega)]

/-- Two loops with the same bodies on the numbers they run over are the same. -/
theorem loopUp_congr {f g : Nat → Memory → Memory} {n : Nat} {m : Memory} (h : ∀ k < n, ∀ x, f k x = g k x) :
    loopUp n f m = loopUp n g m := by
  induction n with
  | zero => rfl
  | succ n ih =>
    rw [loopUp_succ, loopUp_succ, h n (Nat.lt_succ_self n), ih fun k hk => h k (Nat.lt_succ_of_lt hk)]

end Sys2Proof.Machine
end

