-- ==== Sys2Proof/Laws/State.lean ====
section
/-! SUPPORT. One lemma per field per update of State, each true by unfolding, so that no later proof unfolds a record
update. -/

namespace Sys2Proof.Machine

@[simp] theorem State.raise_opnd (s : State) (e : CmdError) : (s.raise e).opnd = s.opnd := rfl
@[simp] theorem State.raise_status (s : State) (e : CmdError) : (s.raise e).status = s.status.update (cmdErrorBits e) Status.none :=
    rfl
@[simp] theorem State.raise_engine (s : State) (e : CmdError) : (s.raise e).engine = s.engine := rfl
@[simp] theorem State.raise_mem (s : State) (e : CmdError) : (s.raise e).mem = s.mem := rfl
@[simp] theorem State.raise_inst (s : State) (e : CmdError) : (s.raise e).inst = s.inst := rfl
@[simp] theorem State.raise_resetAsserted (s : State) (e : CmdError) : (s.raise e).resetAsserted = s.resetAsserted := rfl
@[simp] theorem State.raise_level (s : State) (e : CmdError) : (s.raise e).level = s.level := rfl
@[simp] theorem State.raise_host (s : State) (e : CmdError) : (s.raise e).host = s.host := rfl
@[simp] theorem State.raise_draws (s : State) (e : CmdError) : (s.raise e).draws = s.draws := rfl

@[simp] theorem State.writeStatus_opnd (s : State) (v : Word) : (s.writeStatus v).opnd = s.opnd := rfl
@[simp] theorem State.writeStatus_status (s : State) (v : Word) : (s.writeStatus v).status = s.status.update Status.none (statusClearMask v) :=
    rfl
@[simp] theorem State.writeStatus_engine (s : State) (v : Word) : (s.writeStatus v).engine = s.engine := rfl
@[simp] theorem State.writeStatus_mem (s : State) (v : Word) : (s.writeStatus v).mem = s.mem := rfl
@[simp] theorem State.writeStatus_inst (s : State) (v : Word) : (s.writeStatus v).inst = s.inst := rfl
@[simp] theorem State.writeStatus_resetAsserted (s : State) (v : Word) : (s.writeStatus v).resetAsserted = s.resetAsserted := rfl
@[simp] theorem State.writeStatus_level (s : State) (v : Word) : (s.writeStatus v).level = s.level := rfl
@[simp] theorem State.writeStatus_host (s : State) (v : Word) : (s.writeStatus v).host = s.host := rfl
@[simp] theorem State.writeStatus_draws (s : State) (v : Word) : (s.writeStatus v).draws = s.draws := rfl

@[simp] theorem State.clearDone_opnd (s : State) : (s.clearDone).opnd = s.opnd := rfl
@[simp] theorem State.clearDone_status (s : State) : (s.clearDone).status = s.status.update Status.none doneBits :=
    rfl
@[simp] theorem State.clearDone_engine (s : State) : (s.clearDone).engine = s.engine := rfl
@[simp] theorem State.clearDone_mem (s : State) : (s.clearDone).mem = s.mem := rfl
@[simp] theorem State.clearDone_inst (s : State) : (s.clearDone).inst = s.inst := rfl
@[simp] theorem State.clearDone_resetAsserted (s : State) : (s.clearDone).resetAsserted = s.resetAsserted := rfl
@[simp] theorem State.clearDone_level (s : State) : (s.clearDone).level = s.level := rfl
@[simp] theorem State.clearDone_host (s : State) : (s.clearDone).host = s.host := rfl
@[simp] theorem State.clearDone_draws (s : State) : (s.clearDone).draws = s.draws := rfl

@[simp] theorem State.complete_opnd (s : State) : (s.complete).opnd = s.opnd := rfl
@[simp] theorem State.complete_status (s : State) : (s.complete).status = s.status.update doneBits Status.none := rfl
@[simp] theorem State.complete_engine (s : State) : (s.complete).engine = .idle := rfl
@[simp] theorem State.complete_mem (s : State) : (s.complete).mem = s.mem := rfl
@[simp] theorem State.complete_inst (s : State) : (s.complete).inst = s.inst := rfl
@[simp] theorem State.complete_resetAsserted (s : State) : (s.complete).resetAsserted = s.resetAsserted := rfl
@[simp] theorem State.complete_level (s : State) : (s.complete).level = s.level := rfl
@[simp] theorem State.complete_host (s : State) : (s.complete).host = s.host := rfl
@[simp] theorem State.complete_draws (s : State) : (s.complete).draws = s.draws := rfl

@[simp] theorem State.withQueue_opnd (s : State) (q : List HostEvent) : (s.withQueue q).opnd = s.opnd := rfl
@[simp] theorem State.withQueue_status (s : State) (q : List HostEvent) : (s.withQueue q).status = s.status := rfl
@[simp] theorem State.withQueue_engine (s : State) (q : List HostEvent) : (s.withQueue q).engine = s.engine := rfl
@[simp] theorem State.withQueue_mem (s : State) (q : List HostEvent) : (s.withQueue q).mem = s.mem := rfl
@[simp] theorem State.withQueue_inst (s : State) (q : List HostEvent) : (s.withQueue q).inst = s.inst := rfl
@[simp] theorem State.withQueue_resetAsserted (s : State) (q : List HostEvent) :
    (s.withQueue q).resetAsserted = s.resetAsserted := rfl
@[simp] theorem State.withQueue_level (s : State) (q : List HostEvent) : (s.withQueue q).level = s.level := rfl
@[simp] theorem State.withQueue_host (s : State) (q : List HostEvent) : (s.withQueue q).host = { s.host with queue := q } :=
    rfl
@[simp] theorem State.withQueue_draws (s : State) (q : List HostEvent) : (s.withQueue q).draws = s.draws := rfl

@[simp] theorem State.readToHost_opnd (s : State) (r : Reg) : (s.readToHost r).opnd = s.opnd := rfl
@[simp] theorem State.readToHost_status (s : State) (r : Reg) : (s.readToHost r).status = s.status := rfl
@[simp] theorem State.readToHost_engine (s : State) (r : Reg) : (s.readToHost r).engine = s.engine := rfl
@[simp] theorem State.readToHost_mem (s : State) (r : Reg) : (s.readToHost r).mem = s.mem := rfl
@[simp] theorem State.readToHost_inst (s : State) (r : Reg) : (s.readToHost r).inst = s.inst := rfl
@[simp] theorem State.readToHost_resetAsserted (s : State) (r : Reg) : (s.readToHost r).resetAsserted = s.resetAsserted := rfl
@[simp] theorem State.readToHost_level (s : State) (r : Reg) : (s.readToHost r).level = s.level := rfl
@[simp] theorem State.readToHost_host (s : State) (r : Reg) : (s.readToHost r).host = { s.host with regData := s.readReg r } :=
    rfl
@[simp] theorem State.readToHost_draws (s : State) (r : Reg) : (s.readToHost r).draws = s.draws := rfl

@[simp] theorem State.freeByteAt_opnd (s : State) (a : Nat) : (s.freeByteAt a).opnd = s.opnd := rfl
@[simp] theorem State.freeByteAt_status (s : State) (a : Nat) : (s.freeByteAt a).status = s.status := rfl
@[simp] theorem State.freeByteAt_engine (s : State) (a : Nat) : (s.freeByteAt a).engine = s.engine := rfl
@[simp] theorem State.freeByteAt_mem (s : State) (a : Nat) : (s.freeByteAt a).mem = memWrite s.mem a (Config.freeByte s.draws) :=
    rfl
@[simp] theorem State.freeByteAt_inst (s : State) (a : Nat) : (s.freeByteAt a).inst = s.inst := rfl
@[simp] theorem State.freeByteAt_resetAsserted (s : State) (a : Nat) : (s.freeByteAt a).resetAsserted = s.resetAsserted := rfl
@[simp] theorem State.freeByteAt_level (s : State) (a : Nat) : (s.freeByteAt a).level = s.level := rfl
@[simp] theorem State.freeByteAt_host (s : State) (a : Nat) : (s.freeByteAt a).host = s.host := rfl
@[simp] theorem State.freeByteAt_draws (s : State) (a : Nat) : (s.freeByteAt a).draws = s.draws + 1 := rfl

@[simp] theorem State.scramble_opnd (s : State) (l : List Nat) : (s.scramble l).opnd = s.opnd := by
  induction l generalizing s with
  | nil => rfl
  | cons a l ih => exact ih (s.freeByteAt a)

@[simp] theorem State.scramble_status (s : State) (l : List Nat) : (s.scramble l).status = s.status := by
  induction l generalizing s with
  | nil => rfl
  | cons a l ih => exact ih (s.freeByteAt a)

@[simp] theorem State.scramble_engine (s : State) (l : List Nat) : (s.scramble l).engine = s.engine := by
  induction l generalizing s with
  | nil => rfl
  | cons a l ih => exact ih (s.freeByteAt a)

@[simp] theorem State.scramble_inst (s : State) (l : List Nat) : (s.scramble l).inst = s.inst := by
  induction l generalizing s with
  | nil => rfl
  | cons a l ih => exact ih (s.freeByteAt a)

@[simp] theorem State.scramble_resetAsserted (s : State) (l : List Nat) : (s.scramble l).resetAsserted = s.resetAsserted := by
  induction l generalizing s with
  | nil => rfl
  | cons a l ih => exact ih (s.freeByteAt a)

@[simp] theorem State.scramble_level (s : State) (l : List Nat) : (s.scramble l).level = s.level := by
  induction l generalizing s with
  | nil => rfl
  | cons a l ih => exact ih (s.freeByteAt a)

@[simp] theorem State.scramble_host (s : State) (l : List Nat) : (s.scramble l).host = s.host := by
  induction l generalizing s with
  | nil => rfl
  | cons a l ih => exact ih (s.freeByteAt a)

@[simp] theorem State.scramble_draws (s : State) (l : List Nat) : (s.scramble l).draws = s.draws + l.length := by
  induction l generalizing s with
  | nil => rfl
  | cons a l ih =>
    have h : s.scramble (a :: l) = (s.freeByteAt a).scramble l := rfl
    rw [h, ih, State.freeByteAt_draws, List.length_cons]
    omega

@[simp] theorem State.settleBreach_opnd (s : State) (r : Run) : (s.settleBreach r).opnd = s.opnd := by
  unfold State.settleBreach; split <;> simp

@[simp] theorem State.settleBreach_status (s : State) (r : Run) : (s.settleBreach r).status = s.status := by
  unfold State.settleBreach; split <;> simp

@[simp] theorem State.settleBreach_engine (s : State) (r : Run) : (s.settleBreach r).engine = s.engine := by
  unfold State.settleBreach; split <;> simp

@[simp] theorem State.settleBreach_inst (s : State) (r : Run) : (s.settleBreach r).inst = s.inst := by
  unfold State.settleBreach; split <;> simp

@[simp] theorem State.settleBreach_resetAsserted (s : State) (r : Run) : (s.settleBreach r).resetAsserted = s.resetAsserted := by
  unfold State.settleBreach; split <;> simp

@[simp] theorem State.settleBreach_level (s : State) (r : Run) : (s.settleBreach r).level = s.level := by
  unfold State.settleBreach; split <;> simp

@[simp] theorem State.settleBreach_host (s : State) (r : Run) : (s.settleBreach r).host = s.host := by
  unfold State.settleBreach; split <;> simp

@[simp] theorem State.engineTurn_opnd (s : State) : s.engineTurn.opnd = s.opnd := by
  unfold State.engineTurn; split
  · rfl
  · split <;> simp

@[simp] theorem State.engineTurn_inst (s : State) : s.engineTurn.inst = s.inst := by
  unfold State.engineTurn; split
  · rfl
  · split <;> simp

@[simp] theorem State.engineTurn_resetAsserted (s : State) : s.engineTurn.resetAsserted = s.resetAsserted := by
  unfold State.engineTurn; split
  · rfl
  · split <;> simp

@[simp] theorem State.engineTurn_level (s : State) : s.engineTurn.level = s.level := by
  unfold State.engineTurn; split
  · rfl
  · split <;> simp

@[simp] theorem State.engineTurn_host (s : State) : s.engineTurn.host = s.host := by
  unfold State.engineTurn; split
  · rfl
  · split <;> simp

@[simp] theorem State.resetBlock_opnd (s : State) : s.resetBlock.opnd = OperandRegs.reset := rfl
@[simp] theorem State.resetBlock_status (s : State) : s.resetBlock.status = Status.reset := rfl
@[simp] theorem State.resetBlock_engine (s : State) : s.resetBlock.engine = .idle := rfl

@[simp] theorem State.resetBlock_inst (s : State) : s.resetBlock.inst = s.inst := by
  unfold State.resetBlock; cases s.engine <;> simp

@[simp] theorem State.resetBlock_resetAsserted (s : State) : s.resetBlock.resetAsserted = s.resetAsserted := by
  unfold State.resetBlock; cases s.engine <;> simp

@[simp] theorem State.resetBlock_level (s : State) : s.resetBlock.level = s.level := by
  unfold State.resetBlock; cases s.engine <;> simp

@[simp] theorem State.resetBlock_host (s : State) : s.resetBlock.host = s.host := by
  unfold State.resetBlock; cases s.engine <;> simp

/-- Reset of an idle block draws no free byte and leaves memory. -/
theorem State.resetBlock_idle {s : State} (h : s.engine = .idle) :
    s.resetBlock = { s with opnd := OperandRegs.reset, status := Status.reset, engine := .idle } := by
  simp [State.resetBlock, h]

/-- Everything the reset input can do: hold or leave the block as `resetBlock` says, or stay released. -/
theorem State.driveReset_cases (s : State) (b : Bool) :
    ((b = true ∨ s.resetAsserted = true) ∧ s.driveReset b = { s.resetBlock with resetAsserted := b }) ∨
    (b = false ∧ s.resetAsserted = false ∧ s.driveReset b = s) := by
  unfold State.driveReset
  cases b <;> cases s.resetAsserted <;> simp

@[simp] theorem State.driveReset_resetAsserted (s : State) (b : Bool) : (s.driveReset b).resetAsserted = b := by
  rcases s.driveReset_cases b with ⟨_, e⟩ | ⟨rfl, h, e⟩ <;> simp [*]

@[simp] theorem State.driveReset_inst (s : State) (b : Bool) : (s.driveReset b).inst = s.inst := by
  rcases s.driveReset_cases b with ⟨_, e⟩ | ⟨_, _, e⟩ <;> simp [e]

@[simp] theorem State.driveReset_level (s : State) (b : Bool) : (s.driveReset b).level = s.level := by
  rcases s.driveReset_cases b with ⟨_, e⟩ | ⟨_, _, e⟩ <;> simp [e]

@[simp] theorem State.driveReset_host (s : State) (b : Bool) : (s.driveReset b).host = s.host := by
  rcases s.driveReset_cases b with ⟨_, e⟩ | ⟨_, _, e⟩ <;> simp [e]

@[simp] theorem State.resetOf_resetAsserted (p : Instance) (m : Memory) :
    (State.resetOf p m).resetAsserted = false := rfl

/-! ## Register writes while reset is asserted (70 R140) -/

theorem State.writeOperand_inReset {s : State} (h : s.resetAsserted = true) (n : OperandName) (v : Word) :
    s.writeOperand n v = s := by
  simp [State.writeOperand, h]

theorem State.rejectReserved_inReset {s : State} (h : s.resetAsserted = true) : s.rejectReserved = s := by
  simp [State.rejectReserved, h]

theorem State.present_inReset {s : State} (h : s.resetAsserted = true) (bad : Bool) (accept : State → Result) :
    s.present bad accept = .next s := by
  simp [State.present, h]

/-- With every bit 0 a STATUS write clears nothing. -/
theorem State.writeStatus_inReset {s : State} (h : s.status = Status.reset) (v : Word) : s.writeStatus v = s := by
  cases s; simp_all [State.writeStatus, Status.update, Status.reset, Status.none]

@[simp] theorem State.writeOperand_engine (s : State) (n : OperandName) (v : Word) :
    (s.writeOperand n v).engine = s.engine := by
  unfold State.writeOperand; split_ifs <;> rfl

@[simp] theorem State.writeOperand_mem (s : State) (n : OperandName) (v : Word) :
    (s.writeOperand n v).mem = s.mem := by
  unfold State.writeOperand; split_ifs <;> rfl

@[simp] theorem State.writeOperand_inst (s : State) (n : OperandName) (v : Word) :
    (s.writeOperand n v).inst = s.inst := by
  unfold State.writeOperand; split_ifs <;> rfl

@[simp] theorem State.writeOperand_resetAsserted (s : State) (n : OperandName) (v : Word) :
    (s.writeOperand n v).resetAsserted = s.resetAsserted := by
  unfold State.writeOperand; split_ifs <;> rfl

@[simp] theorem State.writeOperand_level (s : State) (n : OperandName) (v : Word) :
    (s.writeOperand n v).level = s.level := by
  unfold State.writeOperand; split_ifs <;> rfl

@[simp] theorem State.writeOperand_host (s : State) (n : OperandName) (v : Word) :
    (s.writeOperand n v).host = s.host := by
  unfold State.writeOperand; split_ifs <;> rfl

@[simp] theorem State.writeOperand_draws (s : State) (n : OperandName) (v : Word) :
    (s.writeOperand n v).draws = s.draws := by
  unfold State.writeOperand; split_ifs <;> rfl

@[simp] theorem State.rejectReserved_engine (s : State) : s.rejectReserved.engine = s.engine := by
  unfold State.rejectReserved; split_ifs <;> rfl

@[simp] theorem State.rejectReserved_mem (s : State) : s.rejectReserved.mem = s.mem := by
  unfold State.rejectReserved; split_ifs <;> rfl

@[simp] theorem State.rejectReserved_inst (s : State) : s.rejectReserved.inst = s.inst := by
  unfold State.rejectReserved; split_ifs <;> rfl

@[simp] theorem State.rejectReserved_resetAsserted (s : State) : s.rejectReserved.resetAsserted = s.resetAsserted := by
  unfold State.rejectReserved; split_ifs <;> rfl

@[simp] theorem State.rejectReserved_level (s : State) : s.rejectReserved.level = s.level := by
  unfold State.rejectReserved; split_ifs <;> rfl

@[simp] theorem State.rejectReserved_host (s : State) : s.rejectReserved.host = s.host := by
  unfold State.rejectReserved; split_ifs <;> rfl

@[simp] theorem State.rejectReserved_draws (s : State) : s.rejectReserved.draws = s.draws := by
  unfold State.rejectReserved; split_ifs <;> rfl

@[simp] theorem State.rejectReserved_opnd (s : State) : s.rejectReserved.opnd = s.opnd := by
  unfold State.rejectReserved; split_ifs <;> rfl

@[simp] theorem State.withQueue_withQueue (s : State) (q q' : List HostEvent) :
    (s.withQueue q).withQueue q' = s.withQueue q' := rfl

@[simp] theorem State.withQueue_self (s : State) : s.withQueue s.host.queue = s := rfl

/-! ## BUSY -/

@[simp] theorem Engine.busy_idle : Engine.idle.busy = false := rfl
@[simp] theorem Engine.busy_running (r : Run) : (Engine.running r).busy = true := rfl
@[simp] theorem State.busy_raise (s : State) (e : CmdError) : (s.raise e).busy = s.busy := rfl
@[simp] theorem State.busy_clearDone (s : State) : s.clearDone.busy = s.busy := rfl
@[simp] theorem State.busy_complete (s : State) : s.complete.busy = false := rfl
@[simp] theorem State.busy_withQueue (s : State) (q : List HostEvent) : (s.withQueue q).busy = s.busy := rfl
@[simp] theorem State.busy_writeStatus (s : State) (v : Word) : (s.writeStatus v).busy = s.busy := rfl
@[simp] theorem State.busy_readToHost (s : State) (r : Reg) : (s.readToHost r).busy = s.busy := rfl

theorem State.busy_eq_false {s : State} : s.busy = false ↔ s.engine = .idle := by
  unfold State.busy; cases s.engine <;> simp

theorem State.busy_eq_true {s : State} : s.busy = true ↔ ∃ r, s.engine = .running r := by
  unfold State.busy; cases s.engine <;> simp

/-! ## Status bits -/

@[simp] theorem Status.update_done (f set clear : Status) :
    (f.update set clear).done = (set.done || (f.done && !clear.done)) := rfl
@[simp] theorem Status.update_eOp (f set clear : Status) :
    (f.update set clear).eOp = (set.eOp || (f.eOp && !clear.eOp)) := rfl
@[simp] theorem Status.update_eParam (f set clear : Status) :
    (f.update set clear).eParam = (set.eParam || (f.eParam && !clear.eParam)) := rfl
@[simp] theorem Status.update_eBusy (f set clear : Status) :
    (f.update set clear).eBusy = (set.eBusy || (f.eBusy && !clear.eBusy)) := rfl

theorem Status.update_setDone (f : Status) : f.update doneBits Status.none = { f with done := true } := by
  simp [Status.update, doneBits, Status.none]

theorem Status.update_clearDone (f : Status) : f.update Status.none doneBits = { f with done := false } := by
  simp [Status.update, doneBits, Status.none]

theorem Status.update_raise_eOp (f : Status) : f.update (cmdErrorBits .eOp) Status.none = { f with eOp := true } := by
  simp [Status.update, cmdErrorBits, Status.none]

theorem Status.update_raise_eParam (f : Status) :
    f.update (cmdErrorBits .eParam) Status.none = { f with eParam := true } := by
  simp [Status.update, cmdErrorBits, Status.none]

theorem Status.update_raise_eBusy (f : Status) :
    f.update (cmdErrorBits .eBusy) Status.none = { f with eBusy := true } := by
  simp [Status.update, cmdErrorBits, Status.none]

end Sys2Proof.Machine
end

