-- ==== Sys2Proof/Laws/Commands.lean ====
section
/-! SUPPORT. What the shared operations behind a command can do: the presentation (30 R72), the acceptance, the runs (canonical
form, bytes outside the write footprint), and the queue's next entry. -/

namespace Sys2Proof.Machine

/-! ## Presentation and acceptance -/

/-- Everything a presentation can answer: nothing while reset is asserted, discarded, rejected, or what `accept` answers. -/
theorem State.present_cases (s : State) (bad : Bool) (accept : State → Result) :
    (s.resetAsserted = true ∧ s.present bad accept = .next s) ∨
    (s.resetAsserted = false ∧ s.busy = true ∧ s.present bad accept = .next (s.raise .eBusy)) ∨
    (s.resetAsserted = false ∧ s.busy = false ∧ bad = true ∧
      s.present bad accept = .next (s.clearDone.raise .eParam)) ∨
    (s.resetAsserted = false ∧ s.busy = false ∧ bad = false ∧ s.present bad accept = accept s.clearDone) := by
  unfold State.present
  cases hr : s.resetAsserted <;> cases hb : s.busy <;> cases bad <;> simp

/-- Everything an acceptance can answer: refused for its footprint, run whole, or latched and begun. -/
theorem State.launch_cases (s : State) (op : Instr) (reads writes : List Nat) (start : Pos) (run : Memory → Memory) :
    ((allPopulated s.inst reads && allPopulated s.inst writes) = false ∧
      s.launch op reads writes start run = .refused .footprintNotPopulated) ∨
    ((allPopulated s.inst reads && allPopulated s.inst writes) = true ∧ s.level = .command ∧
      s.launch op reads writes start run = .next { s with mem := run s.mem }.complete) ∨
    ((allPopulated s.inst reads && allPopulated s.inst writes) = true ∧ s.level = .access ∧
      s.launch op reads writes start run = .next { s with engine := .running ⟨op, s.opnd, start, false⟩ }) := by
  unfold State.launch
  cases hp : (allPopulated s.inst reads && allPopulated s.inst writes) <;> cases hl : s.level <;> simp

/-- Every command is one presentation and one acceptance, of its own footprint, start and run. -/
theorem exec_eq (i : Instr) (s : State) :
    exec i s = s.present (!operandsOk i s.opnd) fun t =>
      t.launch i (footReads t.inst i t.opnd) (footWrites t.inst i t.opnd) (commandStart t.inst i t.opnd)
        (commandRun t.inst i t.opnd) := by
  cases i <;> simp [exec, execDecode, execTileconv, execDrawtile, operandsOk, footReads, footWrites, commandStart, commandRun]

/-- While reset is asserted a command does nothing (70 R140). -/
theorem exec_inReset (i : Instr) {s : State} (h : s.resetAsserted = true) : exec i s = .next s := by
  rw [exec_eq, State.present_inReset h]

/-- Everything a command that answers a next state has done: nothing while reset is asserted, discarded, rejected for its
operands, run whole, or begun. -/
theorem exec_next_cases {i : Instr} {s t : State} (h : exec i s = .next t) :
    (s.resetAsserted = true ∧ t = s) ∨
    (s.resetAsserted = false ∧ s.busy = true ∧ t = s.raise .eBusy) ∨
    (s.resetAsserted = false ∧ s.busy = false ∧ operandsOk i s.opnd = false ∧ t = s.clearDone.raise .eParam) ∨
    (s.accepts i = true ∧ s.level = .command ∧ t = { s with mem := commandRun s.inst i s.opnd s.mem, status := { s.status with done := true } }) ∨
    (s.accepts i = true ∧ s.level = .access ∧ t = { s with engine := .running (acceptedRun s.inst i s.opnd), status := { s.status with done := false } }) := by
  rw [exec_eq] at h
  rcases s.present_cases (!operandsOk i s.opnd) _ with ⟨hr, e⟩ | ⟨hr, hb, e⟩ | ⟨hr, hb, ho, e⟩ | ⟨hr, hb, ho, e⟩
  · rw [e] at h; left; exact ⟨hr, (Host.Outcome.next.inj h).symm⟩
  · rw [e] at h; right; left; exact ⟨hr, hb, (Host.Outcome.next.inj h).symm⟩
  · rw [e] at h; right; right; left; exact ⟨hr, hb, by simpa using ho, (Host.Outcome.next.inj h).symm⟩
  · rw [e] at h
    right; right; right
    rcases s.clearDone.launch_cases i _ _ _ _ with ⟨hp, e⟩ | ⟨hp, hl, e⟩ | ⟨hp, hl, e⟩
    · rw [e] at h; cases h
    · rw [e] at h; left
      refine ⟨?_, hl, ?_⟩
      · simp only [State.accepts, hr, hb, footPopulated]; simpa [ho] using And.intro (by simpa using ho) (by simpa using hp)
      · rw [← Host.Outcome.next.inj h]
        have he : s.engine = .idle := State.busy_eq_false.1 hb
        simp [State.complete, State.clearDone, Status.update, doneBits, Status.none, he]
    · rw [e] at h; right
      refine ⟨?_, hl, ?_⟩
      · simp only [State.accepts, hr, hb, footPopulated]; simpa [ho] using And.intro (by simpa using ho) (by simpa using hp)
      · rw [← Host.Outcome.next.inj h]
        simp [State.clearDone, Status.update, doneBits, Status.none, acceptedRun]

/-- An accepted command at level `command`. -/
theorem exec_accepts_command {i : Instr} {s : State} (h : s.accepts i = true) (hl : s.level = .command) :
    exec i s = .next { s with mem := commandRun s.inst i s.opnd s.mem, status := { s.status with done := true } } := by
  simp only [State.accepts, footPopulated, Bool.and_eq_true, Bool.not_eq_true'] at h
  obtain ⟨⟨⟨hr, hb⟩, ho⟩, hp1, hp2⟩ := h
  have he : s.engine = .idle := State.busy_eq_false.1 hb
  rw [exec_eq]
  simp [State.present, hr, hb, ho, State.launch, hp1, hp2, hl, State.complete, State.clearDone, Status.update, doneBits, Status.none, he]

/-- An accepted command at level `access`. -/
theorem exec_accepts_access {i : Instr} {s : State} (h : s.accepts i = true) (hl : s.level = .access) :
    exec i s = .next { s with engine := .running (acceptedRun s.inst i s.opnd), status := { s.status with done := false } } := by
  simp only [State.accepts, footPopulated, Bool.and_eq_true, Bool.not_eq_true'] at h
  obtain ⟨⟨⟨hr, hb⟩, ho⟩, hp1, hp2⟩ := h
  rw [exec_eq]
  simp [State.present, hr, hb, ho, State.launch, hp1, hp2, hl, State.clearDone, Status.update, doneBits, Status.none, acceptedRun]

theorem exec_resetAsserted {i : Instr} {s t : State} (h : exec i s = .next t) : t.resetAsserted = s.resetAsserted := by
  rcases exec_next_cases h with ⟨_, rfl⟩ | ⟨_, _, rfl⟩ | ⟨_, _, _, rfl⟩ | ⟨_, _, rfl⟩ | ⟨_, _, rfl⟩ <;> rfl

theorem exec_opnd {i : Instr} {s t : State} (h : exec i s = .next t) : t.opnd = s.opnd := by
  rcases exec_next_cases h with ⟨_, rfl⟩ | ⟨_, _, rfl⟩ | ⟨_, _, _, rfl⟩ | ⟨_, _, rfl⟩ | ⟨_, _, rfl⟩ <;> rfl

/-! ## The runs keep the canonical form -/

theorem decodeRun_wf (o : OperandRegs) {m : Memory} (h : Memory.wf m = true) : Memory.wf (decodeRun o m) = true := by
  refine loopUp_wf (fun y _ x hx => loopUp_wf (fun xb _ x hx => loopUp_wf (fun i _ x hx => ?_) hx) hx) h
  unfold decodePixel
  split
  · exact memWrite_wf hx _ _
  · exact hx

theorem tileRun_wf (o : OperandRegs) {m : Memory} (h : Memory.wf m = true) : Memory.wf (tileRun o m) = true := by
  refine loopUp_wf (fun y _ x hx => loopUp_wf (fun xb _ x hx => loopUp_wf (fun i _ x hx => ?_) hx) hx) h
  unfold tilePixel
  split <;> exact memWrite_wf hx _ _

theorem drawNibble_wf (a : Nat) (n : Colour) {m : Memory} (h : Memory.wf m = true) :
    Memory.wf (drawNibble a n m) = true := by
  unfold drawNibble
  split
  · exact memWrite_wf h _ _
  · exact h

theorem drawRun_wf (p : Instance) (o : OperandRegs) {m : Memory} (h : Memory.wf m = true) :
    Memory.wf (drawRun p o m) = true :=
  loopUp_wf (fun _ _ _ hx => loopUp_wf (fun _ _ _ hx => drawNibble_wf _ _ (drawNibble_wf _ _ hx)) hx) h

theorem commandRun_wf (p : Instance) (i : Instr) (o : OperandRegs) {m : Memory} (h : Memory.wf m = true) :
    Memory.wf (commandRun p i o m) = true := by
  cases i
  · exact decodeRun_wf o h
  · exact tileRun_wf o h
  · exact drawRun_wf p o h

/-- Free bytes leave every other byte, the listed addresses being those of the bus (log entry 8). -/
theorem State.scramble_read_other (s : State) {l : List Nat} {a : Nat} (h : busAddr a ∉ l) (hl : ∀ b ∈ l, busAddr b = b) :
    memRead (s.scramble l).mem a = memRead s.mem a := by
  unfold State.scramble
  induction l generalizing s with
  | nil => rfl
  | cons b l ih =>
    simp only [List.mem_cons, not_or] at h
    simp only [List.foldl_cons]
    rw [ih _ h.2 fun c hc => hl c (by simp [hc])]
    exact memRead_memWrite_other _ _ (by rw [hl b (by simp)]; exact fun e => h.1 e.symm)

/-- Free bytes keep the canonical form. -/
theorem State.scramble_wf (s : State) (l : List Nat) (h : Memory.wf s.mem = true) :
    Memory.wf (s.scramble l).mem = true := by
  induction l generalizing s with
  | nil => exact h
  | cons a l ih => exact ih (s.freeByteAt a) (memWrite_wf h _ _)

/-! ## Members of the footprints -/

theorem decodeDst_eq (o : OperandRegs) (y xb i : Nat) :
    decodeDst o y xb i = pixelAddr o.dstAddr o.pitchBytes y (Config.pixPerByte * xb + i) := rfl

theorem mem_planarFootprint {l : PlanarLayout} {k : Nat} (h : k < Config.planes * l.planeSize) :
    busAddr (l.base + k) ∈ planarFootprint l := List.mem_map.2 ⟨k, List.mem_range.2 h, rfl⟩

theorem mem_decodeWrites {o : OperandRegs} {y x : Nat} (hy : y < o.heightRows) (hx : x < o.widthPixels) :
    busAddr (pixelAddr o.dstAddr o.pitchBytes y x) ∈ decodeWrites o :=
  List.mem_flatMap.2 ⟨y, List.mem_range.2 hy, List.mem_map.2 ⟨x, List.mem_range.2 hx, rfl⟩⟩

theorem mem_tileWrites {o : OperandRegs} {k : Nat} (h : k < Config.tilePackedBytes) :
    busAddr (o.dstAddr + k) ∈ tileWrites o := List.mem_map.2 ⟨k, List.mem_range.2 h, rfl⟩

theorem mem_drawReads {p : Instance} {o : OperandRegs} {r j : Nat} (hr : r < (clipTile p o).rows)
    (hj : j < (clipTile p o).bytes) : busAddr (drawSrc (clipTile p o) r j) ∈ drawReads p o :=
  List.mem_flatMap.2 ⟨r, List.mem_range.2 hr, List.mem_map.2 ⟨j, List.mem_range.2 hj, rfl⟩⟩

theorem mem_drawWrites {p : Instance} {o : OperandRegs} {r k : Nat} (hr : r < (clipTile p o).rows)
    (hk : k < 2 * (clipTile p o).bytes) : busAddr (drawDst o (clipTile p o) r k) ∈ drawWrites p o :=
  List.mem_flatMap.2 ⟨r, List.mem_range.2 hr, List.mem_map.2 ⟨k, List.mem_range.2 hk, rfl⟩⟩

/-! ## The queue -/

theorem step_nil {s : State} (h : s.host.queue = []) : step s = .next s.engineTurn := by
  simp [step, State.machineStep, h]

theorem step_cons {s : State} {e : HostEvent} {q : List HostEvent} (h : s.host.queue = e :: q) :
    step s = (s.withQueue q).hostAct e := by
  simp [step, State.machineStep, h]

/-- A defined register access acts on the register at its offset. -/
theorem State.atReg_ok (s : State) {addr : Nat} {size : AccessSize} (k : Reg → Result)
    (h : s.inst.regAccessOk addr size = true) : s.atReg addr size k = k (regAt (addr - s.inst.regBase)) := by
  simp only [Instance.regAccessOk, Bool.and_eq_true] at h
  simp [State.atReg, h.1, h.2]

/-- The address of a named register is a defined access of that register. -/
theorem regAt_offset (r : Reg) : regAt (regOffset r) = r := by
  cases r <;> first | rfl | (rename_i n; cases n <;> rfl)

theorem regAccessOk_offset (p : Instance) (r : Reg) : p.regAccessOk (p.regBase + regOffset r) .word = true := by
  have h : regOffset r < 64 ∧ regOffset r % 4 = 0 := by
    cases r <;> first | exact ⟨by decide, by decide⟩ | (rename_i n; cases n <;> exact ⟨by decide, by decide⟩)
  simp [Instance.regAccessOk, Instance.inBlock, Instance.wholeWord, h.1, h.2]

theorem State.atReg_offset (s : State) (r : Reg) (k : Reg → Result) :
    s.atReg (s.inst.regBase + regOffset r) .word k = k r := by
  rw [s.atReg_ok k (regAccessOk_offset s.inst r), Nat.add_sub_cancel_left, regAt_offset]

/-- `WR NAME, v` at the head of the queue writes the register NAME. -/
theorem step_wr {s : State} {r : Reg} {v : Word} {q : List HostEvent} (h : s.host.queue = wr s.inst r v :: q) :
    step s = (s.withQueue q).writeReg r v := by
  rw [step_cons h]
  exact State.atReg_offset (s.withQueue q) r fun r' => (s.withQueue q).writeReg r' v

/-- `RD NAME` at the head of the queue reads the register NAME. -/
theorem step_rd {s : State} {r : Reg} {q : List HostEvent} (h : s.host.queue = rd s.inst r :: q) :
    step s = .next ((s.withQueue q).readToHost r) := by
  rw [step_cons h]
  exact State.atReg_offset (s.withQueue q) r fun r' => .next ((s.withQueue q).readToHost r')

end Sys2Proof.Machine
end

