-- ==== Sys2Proof/Laws/Step.lean ====
section
/-! SUPPORT. Everything a step can do, said once: the host's actions, the engine's moves, a write to CMD. -/

namespace Sys2Proof.Machine

/-- A run of no step. -/
theorem run_zero (s : State) : Host.Core.run Sys2Proof.core 0 s = .next s := rfl

/-- A run whose first step answers `t` goes on from `t`. -/
theorem run_next {s t : State} (h : step s = .next t) (n : Nat) :
    Host.Core.run Sys2Proof.core (n + 1) s = Host.Core.run Sys2Proof.core n t := by
  have h' : Sys2Proof.core.step s = .next t := h
  simp only [Host.Core.run, h']

/-- `a + b` steps are `a` steps, then `b` steps. -/
theorem run_add {a : Nat} {s t : State} (h : Host.Core.run Sys2Proof.core a s = .next t) (b : Nat) :
    Host.Core.run Sys2Proof.core (a + b) s = Host.Core.run Sys2Proof.core b t := by
  induction a generalizing s with
  | zero => cases h; rw [Nat.zero_add]
  | succ a ih =>
    cases hs : step s with
    | next u => rw [show a + 1 + b = a + b + 1 by omega, run_next hs, ih ((run_next hs a).symm.trans h)]
    | fault r =>
      have hs' : Sys2Proof.core.step s = .fault r := hs
      simp only [Host.Core.run, hs'] at h; cases h
    | refused r =>
      have hs' : Sys2Proof.core.step s = .refused r := hs
      simp only [Host.Core.run, hs'] at h; cases h

/-- A register access that answers a next state is a defined one, and acts on the register at its offset. -/
theorem atReg_next {s t : State} {a : Nat} {z : AccessSize} {k : Reg → Result} (h : s.atReg a z k = .next t) :
    s.inst.regAccessOk a z = true ∧ k (regAt (a - s.inst.regBase)) = .next t := by
  unfold State.atReg at h
  split at h
  · split at h
    · exact ⟨by simp [Instance.regAccessOk, *], h⟩
    · cases h
  · cases h

theorem wholeWord_word {p : Instance} {a : Nat} {z : AccessSize} (h : p.regAccessOk a z = true) : z = .word := by
  simp [Instance.regAccessOk, Instance.wholeWord] at h; exact h.2.1

/-- What a write to CMD that answers a next state has done. -/
theorem presentWord_next {s t : State} {v : Word} (h : s.presentWord v = .next t) :
    (∃ i, decode v = .ok i ∧ exec i s = .next t) ∨ ((∃ why, decode v = .error why) ∧ t = s.rejectReserved) := by
  unfold State.presentWord at h
  split at h <;> rename_i hd
  · exact .inl ⟨_, hd, h⟩
  · exact .inr ⟨⟨_, hd⟩, (Host.Outcome.next.inj h).symm⟩

/-- Everything a step that answers a next state can be. -/
theorem step_next_cases {s t : State} (h : step s = .next t) :
    (s.host.queue = [] ∧ t = s.engineTurn) ∨
    ∃ e q, s.host.queue = e :: q ∧
     ((∃ r v, eventWrites s.inst e r v ∧ (s.withQueue q).writeReg r v = .next t) ∨
      (∃ a r, e = .regRead a .word ∧ t = (s.withQueue q).readToHost r) ∨
      (∃ b, e = .resetInput b ∧ t = (s.withQueue q).driveReset b) ∨
      (∃ a v, e = .memWrite a v ∧ (s.withQueue q).foreignWrite a v = .next t) ∨
      (∃ a, e = .memRead a ∧ (s.withQueue q).foreignRead a = .next t) ∨
      (e = .turn ∧ t = (s.withQueue q).engineTurn) ∨
      (e = .wait ∧ t = (s.withQueue q).waitStep)) := by
  rcases hq : s.host.queue with _ | ⟨e, q⟩
  · left; rw [step_nil hq] at h; exact ⟨rfl, (Host.Outcome.next.inj h).symm⟩
  · right
    rw [step_cons hq] at h
    refine ⟨e, q, rfl, ?_⟩
    cases e with
    | regWrite a z v =>
      left
      obtain ⟨h1, h2⟩ := atReg_next (k := fun r => (s.withQueue q).writeReg r v) h
      have := wholeWord_word h1; subst this
      exact ⟨_, v, ⟨a, rfl, h1, rfl⟩, h2⟩
    | regRead a z =>
      right; left
      obtain ⟨h1, h2⟩ := atReg_next (k := fun r => .next ((s.withQueue q).readToHost r)) h
      have := wholeWord_word h1; subst this
      exact ⟨a, _, rfl, (Host.Outcome.next.inj h2).symm⟩
    | resetInput b => right; right; left; exact ⟨b, rfl, (Host.Outcome.next.inj h).symm⟩
    | memWrite a v => right; right; right; left; exact ⟨a, v, rfl, h⟩
    | memRead a => right; right; right; right; left; exact ⟨a, rfl, h⟩
    | turn => right; right; right; right; right; left; exact ⟨rfl, (Host.Outcome.next.inj h).symm⟩
    | wait => right; right; right; right; right; right; exact ⟨rfl, (Host.Outcome.next.inj h).symm⟩

/-! ## Reset (70 R140) -/

theorem State.blockReset_iff {s : State} :
    s.blockReset = true ↔ s.opnd = OperandRegs.reset ∧ s.status = Status.reset ∧ s.engine = .idle := by
  simp [State.blockReset, and_assoc]

@[simp] theorem State.blockReset_resetBlock (s : State) : s.resetBlock.blockReset = true := by
  simp [State.blockReset_iff]

/-- In the state of 10 R30 every register reads 0. -/
theorem State.readReg_blockReset {s : State} (h : s.blockReset = true) (r : Reg) : s.readReg r = 0 := by
  obtain ⟨ho, hs, he⟩ := State.blockReset_iff.1 h
  cases r with
  | cmd => rfl
  | status => simp only [State.readReg, State.statusWord, State.busy, hs, he]; rfl
  | operand n => simp only [State.readReg, ho]; cases n <;> rfl
  | reserved => rfl

/-- While reset is asserted a register write does nothing. -/
theorem State.writeReg_inReset {s : State} (ha : s.resetAsserted = true) (h : s.blockReset = true) (r : Reg) (v : Word) :
    s.writeReg r v = .next s := by
  cases r with
  | cmd =>
    simp only [State.writeReg, State.presentWord]
    split
    · exact exec_inReset _ ha
    · rw [State.rejectReserved_inReset ha]
  | status => simp only [State.writeReg, State.writeStatus_inReset (State.blockReset_iff.1 h).2.1 v]
  | operand n => simp only [State.writeReg, State.writeOperand_inReset ha n v]
  | reserved => rfl

/-! ## Moves and other agents -/

/-- `WAIT` keeps the operand registers. -/
theorem waitStep_opnd (s : State) : s.waitStep.opnd = s.opnd := by unfold State.waitStep; split <;> simp

/-- What another agent's write that answers a next state has done. -/
theorem foreignWrite_next {s t : State} {a : Word} {v : Byte} (h : s.foreignWrite a v = .next t) :
    populatedAt s.inst a.toNat = true ∧
      t = { s with mem := memWrite s.mem a.toNat v, engine := s.engine.afterForeignWrite s.inst a.toNat } := by
  unfold State.foreignWrite at h; split at h
  · exact ⟨by assumption, (Host.Outcome.next.inj h).symm⟩
  · cases h

/-- What another agent's read that answers a next state has done: the host's data and the counter, nothing else. -/
theorem foreignRead_next {s t : State} {a : Word} (h : s.foreignRead a = .next t) :
    ∃ d n, t = { s with host := { s.host with memData := d }, draws := n } := by
  unfold State.foreignRead at h; split at h
  · split at h
    · exact ⟨_, _, (Host.Outcome.next.inj h).symm⟩
    · exact ⟨_, s.draws, (Host.Outcome.next.inj h).symm⟩
  · cases h

/-- A move of the engine keeps the error bits. -/
theorem engineTurn_status (s : State) : s.engineTurn.status.eOp = s.status.eOp ∧
    s.engineTurn.status.eParam = s.status.eParam ∧ s.engineTurn.status.eBusy = s.status.eBusy := by
  unfold State.engineTurn
  split
  · simp
  · split <;> simp [Status.update, doneBits, Status.none]

/-- `WAIT` keeps the error bits. -/
theorem waitStep_status (s : State) : s.waitStep.status.eOp = s.status.eOp ∧
    s.waitStep.status.eParam = s.status.eParam ∧ s.waitStep.status.eBusy = s.status.eBusy := by
  unfold State.waitStep
  split
  · exact engineTurn_status _
  · simp

/-- A command clears no error bit. -/
theorem exec_status_mono {i : Instr} {s t : State} (h : exec i s = .next t) :
    (s.status.eOp = true → t.status.eOp = true) ∧ (s.status.eParam = true → t.status.eParam = true) ∧ (s.status.eBusy = true → t.status.eBusy = true) := by
  rcases exec_next_cases h with ⟨_, rfl⟩ | ⟨_, _, rfl⟩ | ⟨_, _, _, rfl⟩ | ⟨_, _, rfl⟩ | ⟨_, _, rfl⟩ <;>
    simp [Status.update, doneBits, Status.none, cmdErrorBits]

theorem engineTurn_idle {s : State} (h : s.busy = false) : s.engineTurn = s := by
  simp [State.engineTurn, State.busy_eq_false.1 h]

theorem waitStep_idle {s : State} (h : s.busy = false) : s.waitStep = s.readToHost .status := by
  simp [State.waitStep, h]

end Sys2Proof.Machine
end

