-- ==== Sys2Proof/Laws/Moves.lean ====
section
/-! SUPPORT. Many moves of the engine at once: what a byte column, a row and a whole run of each command do to the position and
to memory, and how the machine's steps follow those moves. -/

namespace Sys2Proof.Machine

/-- The run and memory after `n` moves of the engine. -/
def moves : Nat → Run → Memory → Run × Memory
  | 0, r, m => (r, m)
  | n + 1, r, m => moves n (r.advance m) (portMem m r.access)

/-- A run at another position. -/
abbrev Run.at (r : Run) (p : Pos) : Run := { r with pos := p }

/-- `a + b` moves are `a` moves, then `b` moves. -/
theorem moves_add (a b : Nat) (r : Run) (m : Memory) :
    moves (a + b) r m = moves b (moves a r m).1 (moves a r m).2 := by
  induction a generalizing r m with
  | zero => simp [moves]
  | succ a ih => rw [show a + 1 + b = (a + b) + 1 by omega]; simp only [moves]; exact ih _ _

/-- A move keeps the command, the latches and the breach. -/
theorem moves_fields (n : Nat) (r : Run) (m : Memory) :
    (moves n r m).1.op = r.op ∧ (moves n r m).1.regs = r.regs ∧ (moves n r m).1.breached = r.breached := by
  induction n generalizing r m with
  | zero => simp [moves]
  | succ n ih => exact ih _ _

/-- A run with no access left moves no more. -/
theorem moves_finished (n : Nat) (r : Run) (m : Memory) (h : r.pos = .finished) : moves n r m = (r, m) := by
  induction n with
  | zero => rfl
  | succ n ih =>
    have : r.advance m = r := by cases r; simp_all [Run.advance, Run.nextPos]
    simp [moves, this, Run.access, h, portMem, ih]

/-! ## One byte column -/

/-- The four plane reads of a byte column. -/
theorem moves_planes (r : Run) (m : Memory) (y xb : Nat) :
    moves 4 (r.at (.plane0 y xb)) m = (r.at (.pixel y xb 0 (readPlanes r.layout m y xb)), m) := by
  simp [moves, Run.advance, Run.access, Run.nextPos, portData, portMem, readPlanes, Run.layout]

theorem moves_decodePixel {r : Run} (h : r.op = .decode) (m : Memory) (y xb i : Nat) (b : Planes) :
    moves 1 (r.at (.pixel y xb i b)) m = (r.at (r.nextPixel y xb i b), decodePixel r.regs y xb i b m) := by
  simp only [moves, Run.advance, Run.access, Run.nextPos, Run.pixelAccess, h, decodePixel, Run.nextPixel, Run.layout]
  by_cases hk : pixelByte (colour b i) = r.regs.key <;> simp [portMem, hk, h]

theorem moves_decodePixels {r : Run} (h : r.op = .decode) (m : Memory) (y xb : Nat) (b : Planes) {n : Nat} (hn : n < 8) :
    moves n (r.at (.pixel y xb 0 b)) m =
      (r.at (.pixel y xb n b), loopUp n (fun i => decodePixel r.regs y xb i b) m) := by
  induction n with
  | zero => rfl
  | succ n ih =>
    rw [moves_add, ih (by omega)]
    simp only
    rw [moves_decodePixel h]
    simp [Run.nextPixel, loopUp_succ, show n + 1 < 8 from hn]

/-- The twelve moves of one byte column of DECODE (40 R90). -/
theorem moves_decodeColumn {r : Run} (h : r.op = .decode) (m : Memory) (y xb : Nat) :
    moves 12 (r.at (.plane0 y xb)) m = (r.at (r.layout.nextColumn y xb), decodeColumn r.regs y xb m) := by
  rw [show 12 = 4 + (7 + 1) from rfl, moves_add, moves_planes, moves_add]
  simp only
  rw [moves_decodePixels h _ _ _ _ (by omega)]
  simp only
  rw [moves_decodePixel h]
  simp [Run.nextPixel, decodeColumn, loopUp_succ, Run.layout, h]

theorem moves_tilePair {r : Run} (h : r.op = .tileconv) (m : Memory) (y xb : Nat) (b : Planes) {k : Nat} (hk : k < 4) :
    moves 3 (r.at (.pixel y xb (2 * k) b)) m = (r.at (r.nextPixel y xb (2 * k + 1) b),
      tilePixel r.regs y xb (2 * k + 1) b (tilePixel r.regs y xb (2 * k) b m)) := by
  have e0 : tilePx xb (2 * k) % 2 = 0 := by simp only [tilePx, Config.pixPerByte]; omega
  have e1 : ¬ tilePx xb (2 * k + 1) % 2 = 0 := by simp only [tilePx, Config.pixPerByte]; omega
  have n0 : (r.at (.pixel y xb (2 * k) b)).nextPixel y xb (2 * k) b = .pixel y xb (2 * k + 1) b := by
    simp [Run.nextPixel, show 2 * k + 1 < 8 by omega]
  simp only [Run.at] at n0
  simp only [moves, Run.advance, Run.access, Run.nextPos, Run.pixelAccess, h, e0, e1, n0, if_true, if_false, portMem,
    portData, tilePixel, memWrite_busAddr, memRead_busAddr]
  simp [Run.nextPixel, Run.layout, h]

theorem moves_tilePairs {r : Run} (h : r.op = .tileconv) (m : Memory) (y xb : Nat) (b : Planes) {n : Nat} (hn : n < 4) :
    moves (3 * n) (r.at (.pixel y xb 0 b)) m =
      (r.at (.pixel y xb (2 * n) b), loopUp (2 * n) (fun i => tilePixel r.regs y xb i b) m) := by
  induction n with
  | zero => rfl
  | succ n ih =>
    rw [Nat.mul_succ, moves_add, ih (by omega)]
    simp only
    rw [moves_tilePair h _ _ _ _ (by omega), show 2 * (n + 1) = 2 * n + 1 + 1 by omega, loopUp_succ, loopUp_succ]
    simp [Run.nextPixel, show 2 * n + 1 + 1 < 8 by omega]

/-- The sixteen moves of one byte column of TILECONV (41 R100). -/
theorem moves_tileColumn {r : Run} (h : r.op = .tileconv) (m : Memory) (y xb : Nat) :
    moves 16 (r.at (.plane0 y xb)) m = (r.at (r.layout.nextColumn y xb), tileColumn r.regs y xb m) := by
  rw [show 16 = 4 + (3 * 3 + 3) from rfl, moves_add, moves_planes, moves_add]
  simp only
  rw [moves_tilePairs h _ _ _ _ (by omega)]
  simp only
  rw [moves_tilePair h _ _ _ _ (by omega)]
  simp [Run.nextPixel, tileColumn, loopUp_succ, Run.layout, h]

/-- A nibble's access does to memory what the nibble's write does (42 R115). -/
theorem portMem_nibble (m : Memory) (a : Nat) (n : Colour) : portMem m (nibbleAccess a n) = drawNibble a n m := by
  unfold nibbleAccess drawNibble
  split <;> simp [portMem]

/-- The three moves of one packed byte of DRAWTILE (42 R110). -/
theorem moves_drawByte (r : Run) (m : Memory) (c : Clip) (k j : Nat) :
    moves 3 (r.at (.packed c k j)) m = (r.at (c.nextByte k j), drawByte r.regs c k j m) := by
  simp only [moves, Run.advance, Run.access, Run.nextPos, portMem_nibble, portData, memRead_busAddr, drawByte, drawPair]
  simp [portMem]

/-! ## Rows and the whole run -/

/-- `K` moves a column, from each position `pos y x` to the next one in the order of two nested loops. -/
abbrev ColumnMoves (r : Run) (K B R : Nat) (pos : Nat → Nat → Pos) (col : Nat → Nat → Memory → Memory) : Prop :=
  ∀ m y x, moves K (r.at (pos y x)) m =
    (r.at (if x + 1 < B then pos y (x + 1) else if y + 1 < R then pos (y + 1) 0 else .finished), col y x m)

section Loops

variable {r : Run} {K B R : Nat} {pos : Nat → Nat → Pos} {col : Nat → Nat → Memory → Memory}

/-- The first `n` columns of a row. -/
theorem moves_columns (hcol : ColumnMoves r K B R pos col) (y : Nat) (m : Memory) {n : Nat} (hn : n < B) :
    moves (K * n) (r.at (pos y 0)) m = (r.at (pos y n), loopUp n (col y) m) := by
  induction n with
  | zero => rfl
  | succ n ih =>
    rw [Nat.mul_succ, moves_add, ih (by omega)]
    simp only [hcol _ _ _, loopUp_succ, if_pos hn]

/-- A whole row. -/
theorem moves_row (hcol : ColumnMoves r K B R pos col) (hB : 0 < B) (y : Nat) (m : Memory) :
    moves (K * B) (r.at (pos y 0)) m =
      (r.at (if y + 1 < R then pos (y + 1) 0 else .finished), loopUp B (col y) m) := by
  obtain ⟨n, rfl⟩ : ∃ n, B = n + 1 := ⟨B - 1, by omega⟩
  rw [Nat.mul_succ, moves_add, moves_columns hcol y m (by omega)]
  simp only [hcol _ _ _, loopUp_succ, lt_irrefl, if_false]

/-- The first `n` rows. -/
theorem moves_rows (hcol : ColumnMoves r K B R pos col) (hB : 0 < B) (m : Memory) {n : Nat} (hn : n < R) :
    moves (K * B * n) (r.at (pos 0 0)) m = (r.at (pos n 0), loopUp n (fun y => loopUp B (col y)) m) := by
  induction n with
  | zero => rfl
  | succ n ih =>
    rw [Nat.mul_succ, moves_add, ih (by omega)]
    simp only [moves_row hcol hB, loopUp_succ, if_pos hn]

/-- All rows. -/
theorem moves_loops (hcol : ColumnMoves r K B R pos col) (hB : 0 < B) (hR : 0 < R) (m : Memory) :
    moves (K * B * R) (r.at (pos 0 0)) m = (r.at .finished, loopUp R (fun y => loopUp B (col y)) m) := by
  obtain ⟨n, rfl⟩ : ∃ n, R = n + 1 := ⟨R - 1, by omega⟩
  rw [Nat.mul_succ, moves_add, moves_rows hcol hB m (by omega)]
  simp only [moves_row hcol hB, loopUp_succ, lt_irrefl, if_false]

/-- Nested loops of moves do not end before their last move, if no column does. -/
theorem moves_loops_running (hcol : ColumnMoves r K B R pos col)
    (hrun : ∀ m y x, ∀ k < K, (moves k (r.at (pos y x)) m).1.pos ≠ .finished) (m : Memory) {k : Nat}
    (hk : k < K * B * R) : (moves k (r.at (pos 0 0)) m).1.pos ≠ .finished := by
  have hB : 0 < B := Nat.pos_of_ne_zero fun h => by simp [h] at hk
  have hK : 0 < K := Nat.pos_of_ne_zero fun h => by simp [h] at hk
  have hx : k % (K * B) / K < B := Nat.div_lt_of_lt_mul (Nat.mod_lt _ (Nat.mul_pos hK hB))
  rw [← Nat.div_add_mod k (K * B), moves_add, moves_rows hcol hB m (Nat.div_lt_of_lt_mul hk),
    ← Nat.div_add_mod (k % (K * B)) K, moves_add]
  simp only
  rw [moves_columns hcol _ _ hx]
  exact hrun _ _ _ _ (Nat.mod_lt _ hK)

end Loops

/-- An empty nest of loops does nothing. -/
theorem loopUp_nest_empty {B R : Nat} {col : Nat → Nat → Memory → Memory} (h : R = 0 ∨ B = 0) (m : Memory) :
    loopUp R (fun y => loopUp B (col y)) m = m := by
  rcases h with rfl | rfl
  · rfl
  · exact loopUp_keeps (P := fun x => x = m) (fun _ _ _ hx => hx) rfl

/-- The columns of DECODE are nested loops of moves. -/
theorem decode_columns {r : Run} (h : r.op = .decode) :
    ColumnMoves r 12 (decodeLayout r.regs).bytesPerRow (decodeLayout r.regs).rows .plane0 (decodeColumn r.regs) := by
  intro m y x
  rw [moves_decodeColumn h, show r.layout = decodeLayout r.regs by simp [Run.layout, h]]; rfl

/-- The columns of TILECONV are nested loops of moves. -/
theorem tile_columns {r : Run} (h : r.op = .tileconv) :
    ColumnMoves r 16 (tileLayout r.regs).bytesPerRow (tileLayout r.regs).rows .plane0 (tileColumn r.regs) := by
  intro m y x
  rw [moves_tileColumn h, show r.layout = tileLayout r.regs by simp [Run.layout, h]]; rfl

/-- The packed bytes of DRAWTILE are nested loops of moves. -/
theorem draw_columns (r : Run) (c : Clip) : ColumnMoves r 3 c.bytes c.rows (.packed c) (drawByte r.regs c) := by
  intro m y x
  rw [moves_drawByte]; rfl

/-- The whole run of DECODE. -/
theorem moves_decode {r : Run} (h : r.op = .decode) (m : Memory) :
    moves (12 * (decodeLayout r.regs).bytesPerRow * (decodeLayout r.regs).rows) (r.at (decodeStart r.regs)) m =
      (r.at .finished, decodeRun r.regs m) := by
  unfold decodeStart decodeRun
  split <;> rename_i h0
  · rw [moves_finished _ _ _ rfl, loopUp_nest_empty (by simpa using h0)]
  · simp only [Bool.or_eq_true, decide_eq_true_eq, not_or] at h0
    exact moves_loops (decode_columns h) (by omega) (by omega) m

/-- The whole run of TILECONV. -/
theorem moves_tile {r : Run} (h : r.op = .tileconv) (m : Memory) :
    moves (16 * (tileLayout r.regs).bytesPerRow * (tileLayout r.regs).rows) (r.at tileStart) m =
      (r.at .finished, tileRun r.regs m) :=
  moves_loops (tile_columns h) (show 0 < 2 by decide) (show 0 < 16 by decide) m

/-- The whole run of DRAWTILE. -/
theorem moves_draw (p : Instance) (r : Run) (m : Memory) :
    moves (3 * (clipTile p r.regs).bytes * (clipTile p r.regs).rows) (r.at (drawStart p r.regs)) m =
      (r.at .finished, drawRun p r.regs m) := by
  unfold drawStart drawRun drawLoop
  split <;> rename_i h0
  · rw [moves_finished _ _ _ rfl, loopUp_nest_empty (by simpa using h0)]
  · simp only [Bool.or_eq_true, decide_eq_true_eq, not_or] at h0
    exact moves_loops (draw_columns r _) (by omega) (by omega) m

/-- Every command runs its pseudocode in the moves it is given, the completion not among them. -/
theorem moves_command (p : Instance) (i : Instr) (o : OperandRegs) (m : Memory) :
    moves (commandMoves p i o - 1) (acceptedRun p i o) m =
      ({ acceptedRun p i o with pos := .finished }, commandRun p i o m) := by
  cases i
  · exact moves_decode (r := acceptedRun p .decode o) rfl m
  · exact moves_tile (r := acceptedRun p .tileconv o) rfl m
  · exact moves_draw p (acceptedRun p .drawtile o) m

/-! ## No run ends early -/

/-- No move of a byte column of DECODE is the last of the run. -/
theorem decodeColumn_running {r : Run} (h : r.op = .decode) (m : Memory) (y xb k : Nat) (hk : k < 12) :
    (moves k (r.at (.plane0 y xb)) m).1.pos ≠ .finished := by
  by_cases h4 : k < 4
  · interval_cases k <;> simp [moves, Run.advance, Run.nextPos]
  · rw [show k = 4 + (k - 4) by omega, moves_add, moves_planes]
    simp only
    rw [moves_decodePixels h _ _ _ _ (by omega)]
    simp

/-- No move of a byte column of TILECONV is the last of the run. -/
theorem tileColumn_running {r : Run} (h : r.op = .tileconv) (m : Memory) (y xb k : Nat) (hk : k < 16) :
    (moves k (r.at (.plane0 y xb)) m).1.pos ≠ .finished := by
  by_cases h4 : k < 4
  · interval_cases k <;> simp [moves, Run.advance, Run.nextPos]
  · rw [show k = 4 + (3 * ((k - 4) / 3) + (k - 4) % 3) by omega, moves_add, moves_planes, moves_add]
    simp only
    rw [moves_tilePairs h _ _ _ _ (by omega)]
    have e0 : tilePx xb (2 * ((k - 4) / 3)) % 2 = 0 := by simp only [tilePx, Config.pixPerByte]; omega
    have e1 : ¬ tilePx xb (2 * ((k - 4) / 3) + 1) % 2 = 0 := by simp only [tilePx, Config.pixPerByte]; omega
    have e2 : 2 * ((k - 4) / 3) + 1 < 8 := by omega
    generalize hj : (k - 4) % 3 = j
    have : j < 3 := by omega
    generalize (k - 4) / 3 = q at *
    interval_cases j <;> simp [moves, Run.advance, Run.nextPos, h, e0, e1, e2, Run.nextPixel]

/-- No move of a packed byte of DRAWTILE is the last of the run. -/
theorem drawByte_running (r : Run) (m : Memory) (c : Clip) (y j k : Nat) (hk : k < 3) :
    (moves k (r.at (.packed c y j)) m).1.pos ≠ .finished := by
  interval_cases k <;> simp [moves, Run.advance, Run.nextPos]

/-- A command's run does not end before the moves it is given. -/
theorem command_running (p : Instance) (i : Instr) (o : OperandRegs) (m : Memory) {k : Nat}
    (hk : k < commandMoves p i o - 1) : (moves k (acceptedRun p i o) m).1.pos ≠ .finished := by
  cases i
  · have h : (acceptedRun p .decode o).op = .decode := rfl
    have hs : decodeStart o = .plane0 0 0 := by
      unfold decodeStart
      rw [if_neg]
      simp only [Bool.or_eq_true, decide_eq_true_eq, not_or]
      constructor <;> (intro h0; simp [commandMoves, h0] at hk)
    have := moves_loops_running (decode_columns h) (fun m y x k => decodeColumn_running h m y x k) m hk
    simpa [acceptedRun, commandStart, hs] using this
  · have h : (acceptedRun p .tileconv o).op = .tileconv := rfl
    exact moves_loops_running (tile_columns h) (fun m y x k => tileColumn_running h m y x k) m hk
  · have hs : drawStart p o = .packed (clipTile p o) 0 0 := by
      unfold drawStart
      rw [if_neg]
      simp only [Bool.or_eq_true, decide_eq_true_eq, not_or]
      constructor <;> (intro h0; simp [commandMoves, h0] at hk)
    have := moves_loops_running (draw_columns (acceptedRun p .drawtile o) _)
      (fun m y x k => drawByte_running _ m _ y x k) m hk
    simpa [acceptedRun, commandStart, hs] using this

/-! ## The machine's steps -/

/-- The machine's steps with an empty queue follow the moves of a run until no access is left. -/
theorem run_moves (n : Nat) (s : State) (r : Run) (hq : s.host.queue = []) (he : s.engine = .running r)
    (hf : ∀ k < n, (moves k r s.mem).1.pos ≠ .finished) :
    Host.Core.run Sys2Proof.core n s =
      .next { s with mem := (moves n r s.mem).2, engine := .running (moves n r s.mem).1 } := by
  induction n generalizing s r with
  | zero => simp only [Host.Core.run, moves]; congr 1; rw [← he]
  | succ n ih =>
    have h0 : r.pos ≠ .finished := hf 0 (by omega)
    have hs : Sys2Proof.core.step s =
        .next { s with mem := portMem s.mem r.access, engine := .running (r.advance s.mem) } := by
      change step s = _
      rw [step_nil hq]; simp only [State.engineTurn, he, h0, if_false]; rfl
    have hf' : ∀ k < n, (moves k (r.advance s.mem) (portMem s.mem r.access)).1.pos ≠ .finished :=
      fun k hk => hf (k + 1) (by omega)
    simp only [Host.Core.run, hs]
    exact ih { s with mem := portMem s.mem r.access, engine := .running (r.advance s.mem) } _ hq rfl hf'

end Sys2Proof.Machine
end

