-- ==== Sys2Proof/Laws/Positions.lean ====
section
/-! SUPPORT. The sequencer's position: every move keeps it inside the loops of its command, and a command starts inside them. -/

namespace Sys2Proof.Machine

/-- The position after a byte column is one of the run's. -/
theorem nextColumn_ok {op : Instr} {l : PlanarLayout} {y xb : Nat} (c : Clip) (h : op ≠ .drawtile)
    (hp : l.holds y xb = true) : (l.nextColumn y xb).okFor op l c = true := by
  simp only [PlanarLayout.holds, Bool.and_eq_true, decide_eq_true_eq] at hp
  unfold PlanarLayout.nextColumn
  split_ifs <;> simp [Pos.okFor, PlanarLayout.holds, h] <;> omega

/-- A move keeps the position inside the loops of the command (10 R25). -/
theorem posOk_advance {p : Instance} {r : Run} (m : Memory) (h : r.posOk p = true) : (r.advance m).posOk p = true := by
  change ((r.nextPos (portData m r.access)).okFor r.op r.layout (clipTile p r.regs)) = true
  unfold Run.posOk at h
  generalize portData m r.access = d
  generalize clipTile p r.regs = c at *
  unfold Run.nextPos
  have hpix : ∀ y xb i b, r.op ≠ .drawtile → r.layout.holds y xb = true → i < 8 →
      (r.nextPixel y xb i b).okFor r.op r.layout c = true := by
    intro y xb i b h1 h2 h3
    unfold Run.nextPixel
    split_ifs with h4
    · simpa [Pos.okFor, h1, h2] using h4
    · exact nextColumn_ok _ h1 h2
  cases hpos : r.pos <;>
    simp only [hpos, Pos.okFor, Bool.and_eq_true, bne_iff_ne, beq_iff_eq, decide_eq_true_eq, ne_eq] at h ⊢
  case plane0 | plane1 | plane2 => simpa [Pos.okFor] using h
  case plane3 => simpa [Pos.okFor, Config.pixPerByte] using h
  case pixel y xb i b =>
    cases hop : r.op
    · have := hpix y xb i b (by simp [hop]) h.1.2 h.2; rwa [hop] at this
    · by_cases he : tilePx xb i % 2 = 0
      · have := hpix y xb i b (by simp [hop]) h.1.2 h.2; rw [hop] at this; rw [if_pos he]; exact this
      · have h2 := h.2
        simp only [Config.pixPerByte] at h2
        simp [he, h.1.2, h2]; omega
    · simp [hop] at h
  case merge y xb i b o => exact hpix y xb i b (by simp [h.1.1.1]) h.1.1.2 h.1.2
  case packed c' k j => simp [h]
  case high c' k j v => simp [h]
  case low c' k j v =>
    obtain ⟨⟨h1, rfl⟩, h3⟩ := h
    simp only [Clip.holds, Bool.and_eq_true, decide_eq_true_eq] at h3
    unfold Clip.nextByte
    split_ifs <;> simp [Clip.holds, h1] <;> omega

/-- A command starts at a position of its own. -/
theorem posOk_start (p : Instance) (i : Instr) (o : OperandRegs) : (acceptedRun p i o).posOk p = true := by
  cases i
  · unfold acceptedRun commandStart decodeStart
    by_cases h : (decodeLayout o).rows = 0 ∨ (decodeLayout o).bytesPerRow = 0
    · simp [h, Run.posOk, Pos.okFor]
    · simp [h, Run.posOk, Pos.okFor, Run.layout, PlanarLayout.holds]
      exact ⟨decide_eq_true (Nat.pos_of_ne_zero (not_or.1 h).1), decide_eq_true (Nat.pos_of_ne_zero (not_or.1 h).2)⟩
  · rfl
  · unfold acceptedRun commandStart drawStart
    by_cases h : (clipTile p o).rows = 0 ∨ (clipTile p o).bytes = 0
    · simp [h, Run.posOk, Pos.okFor]
    · simp [h, Run.posOk, Pos.okFor, Clip.holds]
      exact ⟨by simpa using Nat.pos_of_ne_zero (not_or.1 h).1, by simpa using Nat.pos_of_ne_zero (not_or.1 h).2⟩

end Sys2Proof.Machine
end

