-- ==== Sys2Proof/Laws/Completion.lean ====
section
/-! SUPPORT. A run ends: every move brings the position nearer to the end of its loops, so from every position of its own a command
comes to `finished`, and the machine with an empty queue to its completion. -/

namespace Sys2Proof.Machine

/-- The byte columns from `(y, xb)` on, in the order of the loops. -/
def PlanarLayout.left (l : PlanarLayout) (y xb : Nat) : Nat := l.rows * l.bytesPerRow - (y * l.bytesPerRow + xb)

/-- The packed bytes from `(k, j)` on, in the order of the loops. -/
def Clip.left (c : Clip) (k j : Nat) : Nat := c.rows * c.bytes - (k * c.bytes + j)

/-- A number that every move brings down. -/
def Pos.rank (l : PlanarLayout) (pos : Pos) : Nat :=
  match pos with
  | .plane0 y xb => 40 * l.left y xb + 4
  | .plane1 y xb _ => 40 * l.left y xb + 3
  | .plane2 y xb _ _ => 40 * l.left y xb + 2
  | .plane3 y xb _ _ _ => 40 * l.left y xb + 1
  | .pixel y xb i _ => 40 * l.left y xb - 2 * i
  | .merge y xb i _ _ => 40 * l.left y xb - 2 * i - 1
  | .packed c k j => 4 * c.left k j + 2
  | .high c k j _ => 4 * c.left k j + 1
  | .low c k j _ => 4 * c.left k j
  | .finished => 0

/-- The next place of two nested loops has one fewer before it. -/
theorem loops_left {R B y x : Nat} (hy : y < R) (hx : x < B) :
    0 < R * B - (y * B + x) ∧
    (x + 1 < B → R * B - (y * B + (x + 1)) + 1 = R * B - (y * B + x)) ∧
    (¬ x + 1 < B → R * B - ((y + 1) * B + 0) + 1 = R * B - (y * B + x)) := by
  have h : (y + 1) * B ≤ R * B := Nat.mul_le_mul_right _ hy
  rw [Nat.add_mul] at *
  omega

/-- The position after a byte column is past all of the column's moves. -/
theorem PlanarLayout.rank_nextColumn {l : PlanarLayout} {y xb : Nat} (h : l.holds y xb = true) :
    (l.nextColumn y xb).rank l + 36 ≤ 40 * l.left y xb := by
  simp only [PlanarLayout.holds, Bool.and_eq_true, decide_eq_true_eq] at h
  obtain ⟨h0, h1, h2⟩ := loops_left h.1 h.2
  unfold PlanarLayout.nextColumn
  split_ifs with hb hr
  · have := h1 hb; simp only [Pos.rank, PlanarLayout.left]; omega
  · have := h2 hb; simp only [Pos.rank, PlanarLayout.left]; omega
  · simp only [Pos.rank, PlanarLayout.left]; omega

/-- The position after a packed byte is past all of the byte's moves. -/
theorem Clip.rank_nextByte {l : PlanarLayout} {c : Clip} {k j : Nat} (h : c.holds k j = true) :
    (c.nextByte k j).rank l + 2 ≤ 4 * c.left k j := by
  simp only [Clip.holds, Bool.and_eq_true, decide_eq_true_eq] at h
  obtain ⟨h0, h1, h2⟩ := loops_left h.1 h.2
  unfold Clip.nextByte
  split_ifs with hb hr
  · have := h1 hb; simp only [Pos.rank, Clip.left]; omega
  · have := h2 hb; simp only [Pos.rank, Clip.left]; omega
  · simp only [Pos.rank, Clip.left]; omega

/-- A place inside the loops is not past them. -/
theorem PlanarLayout.left_pos {l : PlanarLayout} {y xb : Nat} (h : l.holds y xb = true) : 0 < l.left y xb := by
  simp only [PlanarLayout.holds, Bool.and_eq_true, decide_eq_true_eq] at h
  exact (loops_left h.1 h.2).1

/-- The position after a pixel is past the pixel's moves. -/
theorem Run.rank_nextPixel {r : Run} {y xb i : Nat} {b : Planes} (h : r.layout.holds y xb = true) (hi : i < 8) :
    (r.nextPixel y xb i b).rank r.layout + 2 ≤ 40 * r.layout.left y xb - 2 * i := by
  have h0 := PlanarLayout.left_pos h
  have := PlanarLayout.rank_nextColumn h
  unfold Run.nextPixel
  split_ifs with hb
  · simp only [Pos.rank]; omega
  · omega

/-- A move before the end brings the rank down. -/
theorem rank_advance {p : Instance} {r : Run} (m : Memory) (h : r.posOk p = true) (hf : r.pos ≠ .finished) :
    (r.advance m).pos.rank r.layout < r.pos.rank r.layout := by
  unfold Run.posOk at h
  simp only [Run.advance, Run.nextPos]
  cases hpos : r.pos <;>
    simp only [hpos, Pos.okFor, Bool.and_eq_true, bne_iff_ne, beq_iff_eq, decide_eq_true_eq, ne_eq, Config.pixPerByte]
      at h ⊢
  case plane0 | plane1 | plane2 => simp only [Pos.rank]; omega
  case plane3 => simp only [Pos.rank]; omega
  case pixel y xb i b =>
    have h0 := PlanarLayout.left_pos h.1.2
    have hn := Run.rank_nextPixel (b := b) h.1.2 h.2
    cases hop : r.op
    · simp only [Pos.rank] at hn ⊢; omega
    · by_cases he : tilePx xb i % 2 = 0
      · simp only [he, if_true, Pos.rank] at hn ⊢; omega
      · simp only [he, if_false, Pos.rank]; omega
    · simp [hop] at h
  case merge y xb i b o =>
    have h0 := PlanarLayout.left_pos h.1.1.2
    have hn := Run.rank_nextPixel (b := b) h.1.1.2 h.1.2
    simp only [Pos.rank] at hn ⊢; omega
  case packed c k j => simp only [Pos.rank]; omega
  case high c k j v => simp only [Pos.rank]; omega
  case low c k j v =>
    obtain ⟨⟨_, rfl⟩, hc⟩ := h
    have := Clip.rank_nextByte (l := r.layout) hc
    simp only [Pos.rank] at this ⊢; omega
  case finished => exact absurd hpos hf

/-- A run comes to its end, and not before its last move. -/
theorem moves_end {p : Instance} {r : Run} (m : Memory) (h : r.posOk p = true) :
    ∃ n, (moves n r m).1.pos = .finished ∧ ∀ k < n, (moves k r m).1.pos ≠ .finished := by
  induction hk : r.pos.rank r.layout using Nat.strong_induction_on generalizing r m with
  | _ N ih =>
    by_cases hf : r.pos = .finished
    · exact ⟨0, hf, fun k hk => absurd hk (Nat.not_lt_zero k)⟩
    · have hd := rank_advance m h hf
      obtain ⟨n, h1, h2⟩ := ih _ (hk ▸ hd) (portMem m r.access) (posOk_advance m h) rfl
      refine ⟨n + 1, h1, fun k hkn => ?_⟩
      cases k with
      | zero => exact hf
      | succ k => exact h2 k (by omega)

/-- The machine with an empty queue and a run that ends with move `n` completes it in `n + 1` steps. -/
theorem run_to_completion {s : State} {r : Run} {n : Nat} (hq : s.host.queue = []) (he : s.engine = .running r)
    (h1 : (moves n r s.mem).1.pos = .finished) (h2 : ∀ k < n, (moves k r s.mem).1.pos ≠ .finished) :
    Host.Core.run Sys2Proof.core (n + 1) s =
      .next (State.settleBreach { s with mem := (moves n r s.mem).2, engine := .running (moves n r s.mem).1 }
        (moves n r s.mem).1).complete := by
  rw [run_add (run_moves n s r hq he h2) 1]
  rw [run_next (step_nil (s := { s with mem := (moves n r s.mem).2, engine := .running (moves n r s.mem).1 }) hq) 0]
  simp only [State.engineTurn, h1, if_true]
  rfl

/-- From every position of its own a run completes. -/
theorem run_completes {s : State} {r : Run} (hq : s.host.queue = []) (he : s.engine = .running r)
    (h : r.posOk s.inst = true) :
    ∃ n, (moves n r s.mem).1.pos = .finished ∧
      Host.Core.run Sys2Proof.core (n + 1) s =
        .next (State.settleBreach { s with mem := (moves n r s.mem).2, engine := .running (moves n r s.mem).1 }
          (moves n r s.mem).1).complete :=
  let ⟨n, h1, h2⟩ := moves_end s.mem h
  ⟨n, h1, run_to_completion hq he h1 h2⟩

end Sys2Proof.Machine
end

