-- ==== Sys2Proof/Laws/PerInstr.lean ====
section
/-! SUPPORT. What holds of every command as syntax, one lemma per constructor: its CMD word is a well-formed one with OP not 0
and every reserved bit 0 (30 R70, R71). -/

/-- The CMD word of `i` is well formed, its reserved field is 0, its OP is not 0, and it stands for no other command. -/
def Sys2Proof.Laws.CommandWord.Statement (i : Sys2Proof.Instr) : Prop :=
  i.wellFormed = true ∧ Sys2Proof.CmdWord.wellFormed (Sys2Proof.encode i) = true ∧
    Sys2Proof.cmdReserved (Sys2Proof.encode i) = 0 ∧ Sys2Proof.cmdOp (Sys2Proof.encode i) ≠ 0 ∧
    ∀ j, Sys2Proof.encode j = Sys2Proof.encode i → j = i

theorem Sys2Proof.Laws.CommandWord.decode : Sys2Proof.Laws.CommandWord.Statement .decode :=
  ⟨rfl, by decide, by decide, by decide, by intro j; cases j <;> decide⟩

theorem Sys2Proof.Laws.CommandWord.tileconv : Sys2Proof.Laws.CommandWord.Statement .tileconv :=
  ⟨rfl, by decide, by decide, by decide, by intro j; cases j <;> decide⟩

theorem Sys2Proof.Laws.CommandWord.drawtile : Sys2Proof.Laws.CommandWord.Statement .drawtile :=
  ⟨rfl, by decide, by decide, by decide, by intro j; cases j <;> decide⟩
end

