-- ==== Sys2Proof/Laws/Runs.lean ====
section
/-! SUPPORT. What the pseudocode of each command does to a byte of pixel memory: the bytes it leaves alone, and the value of each
byte it writes under the caller's contract. -/

namespace Sys2Proof.Machine

/-! ## Addresses -/

/-- Distinct pixels of a buffer whose rows fit the pitch, and which fits the address space, have distinct bytes. -/
theorem pixelAddr_inj {D P W H y x y' x' : Nat} (hW : W ≤ P) (hroom : (H - 1) * P + W ≤ Config.memorySize)
    (hy : y < H) (hx : x < W) (hy' : y' < H) (hx' : x' < W)
    (e : busAddr (pixelAddr D P y x) = busAddr (pixelAddr D P y' x')) : y = y' ∧ x = x' := by
  have b1 : y * P + x < Config.memorySize := by
    have : y * P ≤ (H-1) * P := Nat.mul_le_mul_right _ (by omega)
    omega
  have b2 : y' * P + x' < Config.memorySize := by
    have : y' * P ≤ (H-1) * P := Nat.mul_le_mul_right _ (by omega)
    omega
  have e2 : y * P + x = y' * P + x' := by
    unfold busAddr pixelAddr at e
    have := Nat.ModEq.add_left_cancel' D (show D + (y*P+x) ≡ D + (y'*P+x') [MOD Config.memorySize] by
      unfold Nat.ModEq; rw [← Nat.add_assoc, ← Nat.add_assoc]; exact e)
    exact Nat.ModEq.eq_of_lt_of_lt this b1 b2
  have hP : 0 < P := by omega
  have : y = y' := by
    have h1 : (y * P + x) / P = y := by rw [Nat.mul_comm, Nat.mul_add_div hP, Nat.div_eq_of_lt (by omega)]; omega
    have h2 : (y' * P + x') / P = y' := by rw [Nat.mul_comm, Nat.mul_add_div hP, Nat.div_eq_of_lt (by omega)]; omega
    rw [← h1, ← h2, e2]
  subst this; omega

/-- A plane byte inside the image is one of the source bytes. -/
theorem planeAddr_mem {l : PlanarLayout} {p y xb : Nat} (hps : l.planeSize = l.rows * l.bytesPerRow) (hp : p < 4) (hy : y < l.rows) (hx : xb < l.bytesPerRow) :
    busAddr (planeAddr l p y xb) ∈ planarFootprint l := by
  have h1 : y * l.bytesPerRow + xb < l.planeSize := by
    rw [hps]
    calc y * l.bytesPerRow + xb < y * l.bytesPerRow + l.bytesPerRow := by omega
      _ = (y+1) * l.bytesPerRow := by ring
      _ ≤ _ := Nat.mul_le_mul_right _ hy
  have h2 : p * l.planeSize ≤ 3 * l.planeSize := Nat.mul_le_mul_right _ (by omega)
  have : planeAddr l p y xb = l.base + (p * l.planeSize + (y * l.bytesPerRow + xb)) := by unfold planeAddr; omega
  rw [this]
  apply mem_planarFootprint
  simp only [Config.planes]; omega

theorem readPlanes_congr {l : PlanarLayout} {m m' : Memory} {y xb : Nat} (h : ∀ p < 4, memRead m' (planeAddr l p y xb) = memRead m (planeAddr l p y xb)) :
    readPlanes l m' y xb = readPlanes l m y xb := by
  unfold readPlanes; rw [h 0 (by omega), h 1 (by omega), h 2 (by omega), h 3 (by omega)]

/-! ## DECODE -/

theorem decodePixel_read_other (o : OperandRegs) (y xb i : Nat) (b : Planes) (m : Memory) {a : Nat}
    (h : busAddr (decodeDst o y xb i) ≠ busAddr a) : memRead (decodePixel o y xb i b m) a = memRead m a := by
  unfold decodePixel; split
  · exact memRead_memWrite_other _ _ h
  · rfl

theorem decodeColumn_read_other (o : OperandRegs) (y xb : Nat) (m : Memory) {a : Nat}
    (h : ∀ i < 8, busAddr (decodeDst o y xb i) ≠ busAddr a) : memRead (decodeColumn o y xb m) a = memRead m a :=
  loopUp_read_other fun i hi _ => decodePixel_read_other _ _ _ _ _ _ (h i hi)

theorem decodeRow_read_other (o : OperandRegs) (y n : Nat) (m : Memory) {a : Nat}
    (h : ∀ xb < n, ∀ i < 8, busAddr (decodeDst o y xb i) ≠ busAddr a) :
    memRead (loopUp n (decodeColumn o y) m) a = memRead m a :=
  loopUp_read_other fun xb hx _ => decodeColumn_read_other _ _ _ _ (h xb hx)

/-- DECODE leaves every byte outside its write footprint. -/
theorem decodeRun_read_other (o : OperandRegs) (m : Memory) {a : Nat} (h : busAddr a ∉ decodeWrites o) :
    memRead (decodeRun o m) a = memRead m a := by
  refine loopUp_read_other fun y hy x => decodeRow_read_other _ _ _ _ fun xb hx i hi e => h ?_
  rw [← e, decodeDst_eq]
  refine mem_decodeWrites hy ?_
  simp only [decodeLayout, Config.pixPerByte] at hx ⊢; omega

theorem decodeColumn_wf (o : OperandRegs) (y xb : Nat) {m : Memory} (h : Memory.wf m = true) : Memory.wf (decodeColumn o y xb m) = true := by
  refine loopUp_wf (fun i _ x hx => ?_) h
  unfold decodePixel
  split
  · exact memWrite_wf hx _ _
  · exact hx

/-- The byte of a pixel after DECODE's pseudocode, under the contract. -/
theorem decodeRun_read (o : OperandRegs) {m : Memory} (hm : Memory.wf m = true) (hc : DecodeContract o) {x y : Nat}
    (hx : x < o.widthPixels) (hx8 : o.widthPixels % 8 = 0) (hy : y < o.heightRows) :
    memRead (decodeRun o m) (pixelAddr o.dstAddr o.pitchBytes y x) =
      if pixelByte (pixelColour (decodeLayout o) m x y) ≠ o.key then pixelByte (pixelColour (decodeLayout o) m x y)
      else memRead m (pixelAddr o.dstAddr o.pitchBytes y x) := by
  obtain ⟨hW, hroom, hdis⟩ := hc
  have hxe : 8 * (x/8) + x % 8 = x := by omega
  have hxb : x / 8 < (decodeLayout o).bytesPerRow := by simp only [decodeLayout, Config.pixPerByte]; omega
  have key : ∀ y' xb' i', y' < o.heightRows → xb' < (decodeLayout o).bytesPerRow → i' < 8 →
      ¬ (y' = y ∧ xb' = x/8 ∧ i' = x % 8) → busAddr (decodeDst o y' xb' i') ≠ busAddr (pixelAddr o.dstAddr o.pitchBytes y x) := by
    intro y' xb' i' h1 h2 h3 hn e
    simp only [decodeLayout, Config.pixPerByte] at h2
    have := pixelAddr_inj hW hroom h1 (x := 8*xb'+i') (by omega) hy hx e
    omega
  have wr : ∀ y' xb' i', y' < o.heightRows → xb' < (decodeLayout o).bytesPerRow → i' < 8 → busAddr (decodeDst o y' xb' i') ∈ decodeWrites o := by
    intro y' xb' i' h1 h2 h3
    simp only [decodeLayout, Config.pixPerByte] at h2
    exact mem_decodeWrites h1 (by simp only [Config.pixPerByte]; omega)
  -- memory at start of column
  set M1 := loopUp (x/8) (decodeColumn o y) (loopUp y (fun y => loopUp (decodeLayout o).bytesPerRow (decodeColumn o y)) m) with hM1
  have hsame : ∀ a, busAddr a ∉ decodeWrites o → memRead M1 a = memRead m a := by
    intro a ha
    rw [hM1, decodeRow_read_other _ _ _ _ (fun xb' h1 i h2 e => ha (e ▸ wr y xb' i hy (by omega) h2))]
    exact loopUp_read_other fun y' h1 z => decodeRow_read_other _ _ _ _ (fun xb' h2 i h3 e => ha (e ▸ wr y' xb' i (by omega) h2 h3))
  have hM1wf : Memory.wf M1 = true :=
    loopUp_wf (fun _ _ _ h => decodeColumn_wf _ _ _ h) (loopUp_wf (fun _ _ _ h => loopUp_wf (fun _ _ _ h => decodeColumn_wf _ _ _ h) h) hm)
  have hpl : readPlanes (decodeLayout o) M1 y (x/8) = readPlanes (decodeLayout o) m y (x/8) := by
    refine readPlanes_congr fun p hp => hsame _ ?_
    exact hdis _ (planeAddr_mem rfl hp hy hxb)
  have hold : memRead M1 (pixelAddr o.dstAddr o.pitchBytes y x) = memRead m (pixelAddr o.dstAddr o.pitchBytes y x) := by
    rw [hM1, decodeRow_read_other _ _ _ _ (fun xb' h1 i h2 => key y xb' i hy (by omega) h2 (by omega))]
    exact loopUp_read_other fun y' h1 z => decodeRow_read_other _ _ _ _ (fun xb' h2 i h3 => key y' xb' i (by omega) h2 h3 (by omega))
  unfold decodeRun
  rw [loopUp_read_at (k := y) (show y < (decodeLayout o).rows from hy) (fun j h1 h2 z => decodeRow_read_other _ _ _ _ (fun xb' h3 i h4 => key j xb' i h2 h3 h4 (by omega)))]
  rw [loopUp_read_at (k := x/8) hxb (fun j h1 h2 z => decodeColumn_read_other _ _ _ _ (fun i h4 => key y j i hy h2 h4 (by omega)))]
  rw [← hM1]
  unfold decodeColumn
  rw [loopUp_read_at (k := x % 8) (show x % 8 < 8 by omega) (fun j h1 h2 z => decodePixel_read_other _ _ _ _ _ _ (key y (x/8) j hy hxb h2 (by omega)))]
  rw [hpl]
  set M2 := loopUp (x % 8) (fun i => decodePixel o y (x/8) i (readPlanes (decodeLayout o) m y (x/8))) M1 with hM2
  have hM2wf : Memory.wf M2 = true := by
    refine loopUp_wf (fun i _ z hz => ?_) hM1wf
    unfold decodePixel; split
    · exact memWrite_wf hz _ _
    · exact hz
  have h2 : memRead M2 (pixelAddr o.dstAddr o.pitchBytes y x) = memRead M1 (pixelAddr o.dstAddr o.pitchBytes y x) :=
    loopUp_read_other fun i hi z => decodePixel_read_other _ _ _ _ _ _ (key y (x/8) i hy hxb (by omega) (by omega))
  have hd : decodeDst o y (x/8) (x%8) = pixelAddr o.dstAddr o.pitchBytes y x := by rw [decodeDst_eq, hxe]
  unfold decodePixel pixelColour
  rw [hd]
  split <;> rename_i hk
  · rw [memRead_memWrite hM2wf, if_pos rfl]
  · rw [h2, hold]

/-! ## TILECONV -/

theorem tilePixel_read_other (o : OperandRegs) (y xb i : Nat) (b : Planes) (m : Memory) {a : Nat}
    (h : busAddr (tileDst o y xb i) ≠ busAddr a) : memRead (tilePixel o y xb i b m) a = memRead m a := by
  unfold tilePixel; split <;> exact memRead_memWrite_other _ _ h

theorem tilePixel_wf (o : OperandRegs) (y xb i : Nat) (b : Planes) {m : Memory} (h : Memory.wf m = true) :
    Memory.wf (tilePixel o y xb i b m) = true := by
  unfold tilePixel; split <;> exact memWrite_wf h _ _

theorem tileColumn_wf (o : OperandRegs) (y xb : Nat) {m : Memory} (h : Memory.wf m = true) :
    Memory.wf (tileColumn o y xb m) = true := loopUp_wf (fun _ _ _ hx => tilePixel_wf _ _ _ _ _ hx) h

theorem tileColumn_read_other (o : OperandRegs) (y xb : Nat) (m : Memory) {a : Nat}
    (h : ∀ i < 8, busAddr (tileDst o y xb i) ≠ busAddr a) : memRead (tileColumn o y xb m) a = memRead m a :=
  loopUp_read_other fun i hi _ => tilePixel_read_other _ _ _ _ _ _ (h i hi)

theorem tileRow_read_other (o : OperandRegs) (y n : Nat) (m : Memory) {a : Nat}
    (h : ∀ xb < n, ∀ i < 8, busAddr (tileDst o y xb i) ≠ busAddr a) :
    memRead (loopUp n (tileColumn o y) m) a = memRead m a :=
  loopUp_read_other fun xb hx _ => tileColumn_read_other _ _ _ _ (h xb hx)

theorem tileDst_mem (o : OperandRegs) {y xb i : Nat} (hy : y < 16) (hx : xb < 2) (hi : i < 8) :
    busAddr (tileDst o y xb i) ∈ tileWrites o := by
  have : tileDst o y xb i = o.dstAddr + (8 * y + (8 * xb + i) / 2) := by
    simp only [tileDst, packedAddr, tilePx, Config.tileRowBytes, Config.pixPerByte]; omega
  rw [this]; exact mem_tileWrites (show _ < 128 by omega)

/-- TILECONV leaves every byte outside its write footprint. -/
theorem tileRun_read_other (o : OperandRegs) (m : Memory) {a : Nat} (h : busAddr a ∉ tileWrites o) :
    memRead (tileRun o m) a = memRead m a :=
  loopUp_read_other fun _ hy _ => tileRow_read_other _ _ _ _ fun _ hx _ hi e => h (e ▸ tileDst_mem o hy hx hi)

/-- A packed byte after TILECONV's pseudocode, under the contract. -/
theorem tileRun_read (o : OperandRegs) {m : Memory} (hm : Memory.wf m = true) (hc : TileContract o) {y j : Nat}
    (hy : y < 16) (hj : j < 8) :
    memRead (tileRun o m) (packedAddr o.dstAddr y j) =
      oddPixel (evenPixel (pixelColour (tileLayout o) m (2 * j) y)) (pixelColour (tileLayout o) m (2 * j + 1) y) := by
  have hxb : j / 4 < 2 := by omega
  have hdst : ∀ y' xb' i', tileDst o y' xb' i' = o.dstAddr + (8 * y' + (8 * xb' + i') / 2) := by
    intro y' xb' i'
    simp only [tileDst, packedAddr, tilePx, Config.tileRowBytes, Config.pixPerByte]; omega
  have ha : packedAddr o.dstAddr y j = o.dstAddr + (8 * y + j) := by simp only [packedAddr, Config.tileRowBytes]; omega
  have key : ∀ y' xb' i', y' < 16 → xb' < 2 → i' < 8 → ¬ (y' = y ∧ 4 * xb' + i' / 2 = j) →
      busAddr (tileDst o y' xb' i') ≠ busAddr (packedAddr o.dstAddr y j) := by
    intro y' xb' i' h1 h2 h3 hn e
    rw [hdst, ha] at e
    have := busAddr_add_inj (by simp only [Config.memorySize]; omega) (by simp only [Config.memorySize]; omega) e
    omega
  set M1 := loopUp (j/4) (tileColumn o y) (loopUp y (fun y => loopUp 2 (tileColumn o y)) m) with hM1
  have hsame : ∀ a, busAddr a ∉ tileWrites o → memRead M1 a = memRead m a := by
    intro a h
    rw [hM1, tileRow_read_other _ _ _ _ (fun xb' h1 i h2 e => h (e ▸ tileDst_mem o hy (by omega) h2))]
    exact loopUp_read_other fun y' h1 _ => tileRow_read_other _ _ _ _ (fun xb' h2 i h3 e => h (e ▸ tileDst_mem o (by omega) h2 h3))
  have hM1wf : Memory.wf M1 = true :=
    loopUp_wf (fun _ _ _ h => tileColumn_wf _ _ _ h) (loopUp_wf (fun _ _ _ h => loopUp_wf (fun _ _ _ h => tileColumn_wf _ _ _ h) h) hm)
  have hpl : readPlanes (tileLayout o) M1 y (j/4) = readPlanes (tileLayout o) m y (j/4) := by
    refine readPlanes_congr fun p hp => hsame _ ?_
    exact hc _ (planeAddr_mem (l := tileLayout o) rfl hp hy hxb)
  unfold tileRun
  change memRead (loopUp 16 (fun y => loopUp 2 (tileColumn o y)) m) _ = _
  rw [loopUp_read_at (k := y) hy (fun j' h1 h2 _ => tileRow_read_other _ _ _ _ (fun xb' h3 i h4 => key j' xb' i h2 h3 h4 (by omega)))]
  rw [loopUp_read_at (k := j/4) hxb (fun j' h1 h2 _ => tileColumn_read_other _ _ _ _ (fun i h4 => key y j' i hy h2 h4 (by omega)))]
  rw [← hM1]
  unfold tileColumn
  rw [hpl]
  generalize hb : readPlanes (tileLayout o) m y (j/4) = b
  rw [loopUp_read_at (k := 2 * (j % 4) + 1) (show _ < 8 by omega) (fun j' h1 h2 _ => tilePixel_read_other _ _ _ _ _ _ (key y (j/4) j' hy hxb h2 (by omega)))]
  rw [loopUp_succ]
  set M2 := loopUp (2 * (j % 4)) (fun i => tilePixel o y (j/4) i b) M1 with hM2
  have hM2wf : Memory.wf M2 = true := loopUp_wf (fun _ _ _ h => tilePixel_wf _ _ _ _ _ h) hM1wf
  have e1 : tileDst o y (j/4) (2 * (j % 4)) = packedAddr o.dstAddr y j := by rw [hdst, ha]; congr 1; omega
  have e2 : tileDst o y (j/4) (2 * (j % 4) + 1) = packedAddr o.dstAddr y j := by rw [hdst, ha]; congr 1; omega
  have p1 : tilePx (j/4) (2 * (j % 4)) % 2 = 0 := by simp only [tilePx, Config.pixPerByte]; omega
  have p2 : ¬ tilePx (j/4) (2 * (j % 4) + 1) % 2 = 0 := by simp only [tilePx, Config.pixPerByte]; omega
  have c1 : pixelColour (tileLayout o) m (2 * j) y = colour b (2 * (j % 4)) := by
    unfold pixelColour; rw [← hb]; congr 2 <;> (simp only [Config.pixPerByte]; omega)
  have c2 : pixelColour (tileLayout o) m (2 * j + 1) y = colour b (2 * (j % 4) + 1) := by
    unfold pixelColour; rw [← hb]; congr 2 <;> (simp only [Config.pixPerByte]; omega)
  rw [c1, c2]
  unfold tilePixel
  rw [if_neg p2, if_pos p1, e1, e2, memRead_memWrite (memWrite_wf hM2wf _ _), if_pos rfl, memRead_memWrite hM2wf, if_pos rfl]

/-! ## DRAWTILE -/

theorem drawNibble_read_other (a : Nat) (n : Colour) (m : Memory) {b : Nat} (h : busAddr a ≠ busAddr b) :
    memRead (drawNibble a n m) b = memRead m b := by
  unfold drawNibble; split
  · exact memRead_memWrite_other _ _ h
  · rfl

theorem drawNibble_read (a : Nat) (n : Colour) {m : Memory} (hm : Memory.wf m = true) :
    memRead (drawNibble a n m) a = if n ≠ 0 then pixelByte n else memRead m a := by
  unfold drawNibble
  split
  · rw [memRead_memWrite hm, if_pos rfl]
  · rfl

theorem drawByte_read_other (o : OperandRegs) (c : Clip) (r j : Nat) (m : Memory) {a : Nat}
    (h : ∀ k, k = 2 * j ∨ k = 2 * j + 1 → busAddr (drawDst o c r k) ≠ busAddr a) :
    memRead (drawByte o c r j m) a = memRead m a := by
  unfold drawByte drawPair
  rw [drawNibble_read_other _ _ _ (h _ (.inr rfl)), drawNibble_read_other _ _ _ (h _ (.inl rfl))]

theorem drawRow_read_other (o : OperandRegs) (c : Clip) (r n : Nat) (m : Memory) {a : Nat}
    (h : ∀ k, k < 2 * n → busAddr (drawDst o c r k) ≠ busAddr a) :
    memRead (loopUp n (drawByte o c r) m) a = memRead m a :=
  loopUp_read_other fun j hj _ => drawByte_read_other _ _ _ _ _ fun k hk => h k (by omega)

/-- DRAWTILE leaves every byte outside its write footprint. -/
theorem drawRun_read_other (p : Instance) (o : OperandRegs) (m : Memory) {a : Nat} (h : busAddr a ∉ drawWrites p o) :
    memRead (drawRun p o m) a = memRead m a :=
  loopUp_read_other fun _ hr _ => drawRow_read_other _ _ _ _ _ fun _ hk e => h (e ▸ mem_drawWrites hr hk)

theorem drawByte_wf (o : OperandRegs) (c : Clip) (r j : Nat) {m : Memory} (h : Memory.wf m = true) : Memory.wf (drawByte o c r j m) = true :=
  drawNibble_wf _ _ (drawNibble_wf _ _ h)

/-- The clamped values in closed form (42 R111, R112). -/
theorem clipTile_vals (p : Instance) (o : OperandRegs) :
    (clipTile p o).x = max o.xOffset 0 ∧ (clipTile p o).y = max o.yOffset 0 ∧
    (clipTile p o).w = min (16 + min o.xOffset 0) (p.tilemapW - max o.xOffset 0) ∧
    (clipTile p o).h = min (16 + min o.yOffset 0) (p.tilemapH - max o.yOffset 0) ∧
    (clipTile p o).src = o.srcAddr + leftAdvance o + 8 * topAdvance o := by
  unfold clipTile clipBottom clipTop clipRight clipLeft clipStart leftAdvance topAdvance
  generalize o.xOffset = x
  generalize o.yOffset = y
  simp only [Config.tileW, Config.tileH, Config.tileRowBytes]
  refine ⟨?_, ?_, ?_, ?_, ?_⟩ <;> split_ifs <;> simp at * <;> omega

/-- The drawn rows and columns lie inside the region and inside the tile, or there are none. -/
theorem clip_bounds (p : Instance) (o : OperandRegs) :
    ((clipTile p o).rows + (clipTile p o).y.toNat ≤ p.tilemapH ∧ (clipTile p o).rows ≤ Config.tileH ∧
      2 * (clipTile p o).bytes + (clipTile p o).x.toNat ≤ p.tilemapW ∧ (clipTile p o).bytes ≤ Config.tileRowBytes) ∨
    ((clipTile p o).rows = 0 ∧ (clipTile p o).bytes = 0) := by
  obtain ⟨h1, h2, h3, h4, _⟩ := clipTile_vals p o
  unfold Clip.rows Clip.bytes Clip.empty halve
  rw [h1, h2, h3, h4]
  simp only [Config.tileH, Config.tileRowBytes]
  split_ifs with h
  · right; simp
  · left; simp at h; omega

/-- The byte of a drawn column after DRAWTILE's pseudocode, under the contract. -/
theorem drawRun_read (p : Instance) (o : OperandRegs) {m : Memory} (hm : Memory.wf m = true) (hc : DrawContract p o) {r k : Nat}
    (hr : r < (clipTile p o).rows) (hk : k < 2 * (clipTile p o).bytes) :
    memRead (drawRun p o m) (drawDst o (clipTile p o) r k) =
      if packedColour m o.srcAddr (2 * leftAdvance o + k) (topAdvance o + r) ≠ 0 then
        pixelByte (packedColour m o.srcAddr (2 * leftAdvance o + k) (topAdvance o + r))
      else memRead m (drawDst o (clipTile p o) r k) := by
  obtain ⟨hW, hroom, hdis⟩ := hc
  have hb := (clip_bounds p o).resolve_right (by omega)
  have hsrc := (clipTile_vals p o).2.2.2.2
  set c := clipTile p o with hcdef
  have hj : k / 2 < c.bytes := by omega
  have key : ∀ r' k', r' < c.rows → k' < 2 * c.bytes → ¬ (r' = r ∧ k' = k) →
      busAddr (drawDst o c r' k') ≠ busAddr (drawDst o c r k) := by
    intro r' k' h1 h2 hn e
    have := pixelAddr_inj hW hroom (y := c.y.toNat + r') (x := c.x.toNat + k') (y' := c.y.toNat + r) (x' := c.x.toNat + k)
      (by omega) (by omega) (by omega) (by omega) e
    omega
  have hw : ∀ r' k', r' < c.rows → k' < 2 * c.bytes → busAddr (drawDst o c r' k') ∈ drawWrites p o :=
    fun _ _ h1 h2 => mem_drawWrites h1 h2
  set M1 := loopUp (k/2) (drawByte o c r) (loopUp r (fun r => loopUp c.bytes (drawByte o c r)) m) with hM1
  have hM1wf : Memory.wf M1 = true :=
    loopUp_wf (fun _ _ _ h => drawByte_wf _ _ _ _ h) (loopUp_wf (fun _ _ _ h => loopUp_wf (fun _ _ _ h => drawByte_wf _ _ _ _ h) h) hm)
  have hs : memRead M1 (drawSrc c r (k/2)) = memRead m (drawSrc c r (k/2)) := by
    have hn := hdis _ (mem_drawReads hr hj)
    rw [hM1, drawRow_read_other _ _ _ _ _ (fun k' h1 e => hn (e ▸ hw r k' hr (by omega)))]
    exact loopUp_read_other fun r' h1 _ => drawRow_read_other _ _ _ _ _ (fun k' h2 e => hn (e ▸ hw r' k' (by omega) h2))
  have hold : memRead M1 (drawDst o c r k) = memRead m (drawDst o c r k) := by
    rw [hM1, drawRow_read_other _ _ _ _ _ (fun k' h1 => key r k' hr (by omega) (by omega))]
    exact loopUp_read_other fun r' h1 _ => drawRow_read_other _ _ _ _ _ (fun k' h2 => key r' k' (by omega) h2 (by omega))
  have hcol : packedColour m o.srcAddr (2 * leftAdvance o + k) (topAdvance o + r) =
      if k % 2 = 0 then highNibble (memRead m (drawSrc c r (k/2))) else lowNibble (memRead m (drawSrc c r (k/2))) := by
    have : packedAddr o.srcAddr (topAdvance o + r) ((2 * leftAdvance o + k) / 2) = drawSrc c r (k/2) := by
      unfold drawSrc packedAddr; rw [hsrc]; simp only [Config.tileRowBytes, OperandRegs.srcAddr]; omega
    unfold packedColour
    rw [this, show (2 * leftAdvance o + k) % 2 = k % 2 by omega]
  unfold drawRun drawLoop
  rw [← hcdef]
  rw [loopUp_read_at (k := r) hr (fun r' h1 h2 _ => drawRow_read_other _ _ _ _ _ (fun k' h3 => key r' k' h2 h3 (by omega)))]
  rw [loopUp_read_at (k := k/2) hj (fun j' h1 h2 _ => drawByte_read_other _ _ _ _ _ (fun k' h3 => key r k' hr (by rcases h3 with h3 | h3 <;> omega) (by rcases h3 with h3 | h3 <;> omega)))]
  rw [← hM1, hcol]
  unfold drawByte drawPair
  rw [hs]
  by_cases he : k % 2 = 0
  · rw [if_pos he, drawNibble_read_other _ _ _ (key r (2 * (k/2)+1) hr (by omega) (by omega)),
      show 2 * (k/2) = k by omega, drawNibble_read _ _ hM1wf, hold]
  · rw [if_neg he, show 2 * (k/2) + 1 = k by omega, drawNibble_read _ _ (drawNibble_wf _ _ hM1wf),
      drawNibble_read_other _ _ _ (key r (2 * (k/2)) hr (by omega) (by omega)), hold]

end Sys2Proof.Machine
end

