-- ==== Sys2Proof/Laws/Traces.lean ====
section
/-! SUPPORT. The accesses of a run: of one byte column, and of nested loops from those of their columns. -/

namespace Sys2Proof.Machine

/-! ## Accesses of several moves -/

/-- The accesses of `a + b` moves are those of `a` moves, then those of `b` moves. -/
theorem trace_add (a b : Nat) (r : Run) (m : Memory) :
    r.trace (a + b) m = r.trace a m ++ (moves a r m).1.trace b (moves a r m).2 := by
  induction a generalizing r m with
  | zero => simp [moves, Run.trace]
  | succ a ih => rw [show a + 1 + b = (a + b) + 1 by omega]; simp only [moves, Run.trace, ih, List.append_assoc]

/-- A run with no access left makes none. -/
theorem trace_finished (n : Nat) (r : Run) (m : Memory) (h : r.pos = .finished) : r.trace n m = [] := by
  induction n with
  | zero => rfl
  | succ n ih =>
    have : r.advance m = r := by cases r; simp_all [Run.advance, Run.nextPos]
    simp [Run.trace, this, Run.access, h, portMem, ih]

/-- The completion makes no access. -/
theorem commandTrace_eq (p : Instance) (i : Instr) (o : OperandRegs) (m : Memory) :
    commandTrace p i o m = (acceptedRun p i o).trace (commandMoves p i o - 1) m := by
  have h1 : commandMoves p i o = commandMoves p i o - 1 + 1 := by cases i <;> simp [commandMoves]
  unfold commandTrace
  rw [h1, trace_add, moves_command, trace_finished 1 _ _ rfl, List.append_nil, ← h1]

/-! ## One byte column -/

/-- The four plane reads of a byte column (20 R40). -/
def planeReads (l : PlanarLayout) (y xb : Nat) : List Access :=
  [.read (busAddr (planeAddr l 0 y xb)), .read (busAddr (planeAddr l 1 y xb)),
   .read (busAddr (planeAddr l 2 y xb)), .read (busAddr (planeAddr l 3 y xb))]

/-- The four moves at the planes make the four plane reads. -/
theorem trace_planes (r : Run) (m : Memory) (y xb : Nat) :
    (r.at (.plane0 y xb)).trace 4 m = planeReads r.layout y xb := by
  simp [Run.trace, Run.advance, Run.access, Run.nextPos, portMem, planeReads, Run.layout]

/-- The moves at DECODE's pixels make their writes, ascending. -/
theorem trace_decodePixels {r : Run} (h : r.op = .decode) (m : Memory) (y xb : Nat) (b : Planes) {n : Nat} (hn : n ≤ 8) :
    (r.at (.pixel y xb 0 b)).trace n m = (List.range n).filterMap fun i => r.pixelAccess y xb i b := by
  induction n with
  | zero => simp [Run.trace]
  | succ n ih =>
    rw [trace_add, moves_decodePixels h _ _ _ _ (by omega), ih (by omega)]
    simp only [Run.trace, Run.access, List.append_nil]
    rw [List.range_succ, List.filterMap_append]
    congr 1

/-- The accesses of one byte column of DECODE (40 R91). -/
theorem trace_decodeColumn {r : Run} (h : r.op = .decode) (m : Memory) (y xb : Nat) :
    (r.at (.plane0 y xb)).trace 12 m = planeReads r.layout y xb ++
      (List.range 8).filterMap fun i => r.pixelAccess y xb i (readPlanes r.layout m y xb) := by
  rw [show 12 = 4 + 8 from rfl, trace_add, moves_planes, trace_planes]
  simp only
  rw [trace_decodePixels h _ _ _ _ (le_refl _)]

/-- The three accesses of a pair of TILECONV's pixels: the even write, the read-back, the odd write (41 R101). -/
def pairAccesses (o : OperandRegs) (y xb k : Nat) (b : Planes) : List Access :=
  [.write (busAddr (tileDst o y xb (2 * k))) (evenPixel (colour b (2 * k))),
   .read (busAddr (tileDst o y xb (2 * k))),
   .write (busAddr (tileDst o y xb (2 * k))) (oddPixel (evenPixel (colour b (2 * k))) (colour b (2 * k + 1)))]

/-- Both pixels of a pair have one byte (20 R43). -/
theorem tileDst_odd (o : OperandRegs) (y xb k : Nat) : tileDst o y xb (2 * k + 1) = tileDst o y xb (2 * k) := by
  simp only [tileDst, tilePx, Config.pixPerByte]; congr 1; omega

/-- The three moves of a pair make its three accesses; the read-back finds the even pixel. -/
theorem trace_tilePair {r : Run} (h : r.op = .tileconv) {m : Memory} (hm : Memory.wf m = true) (y xb : Nat) (b : Planes)
    {k : Nat} (hk : k < 4) : (r.at (.pixel y xb (2 * k) b)).trace 3 m = pairAccesses r.regs y xb k b := by
  have e0 : tilePx xb (2 * k) % 2 = 0 := by simp only [tilePx, Config.pixPerByte]; omega
  have e1 : ¬ tilePx xb (2 * k + 1) % 2 = 0 := by simp only [tilePx, Config.pixPerByte]; omega
  have n0 : (r.at (.pixel y xb (2 * k) b)).nextPixel y xb (2 * k) b = .pixel y xb (2 * k + 1) b := by
    simp [Run.nextPixel, show 2 * k + 1 < 8 by omega]
  simp only [Run.at] at n0
  simp [Run.trace, Run.advance, Run.access, Run.nextPos, Run.pixelAccess, h, e0, e1, n0, portMem, portData, tileDst_odd,
    memRead_memWrite hm, pairAccesses]

/-- The first `n` pairs of a byte column. -/
theorem trace_tilePairs {r : Run} (h : r.op = .tileconv) {m : Memory} (hm : Memory.wf m = true) (y xb : Nat) (b : Planes)
    {n : Nat} (hn : n ≤ 4) : (r.at (.pixel y xb 0 b)).trace (3 * n) m =
      (List.range n).flatMap fun k => pairAccesses r.regs y xb k b := by
  induction n with
  | zero => simp [Run.trace]
  | succ n ih =>
    have hw : Memory.wf (loopUp (2 * n) (fun i => tilePixel r.regs y xb i b) m) = true :=
      loopUp_wf (fun _ _ _ hx => by unfold tilePixel; split <;> exact memWrite_wf hx _ _) hm
    rw [Nat.mul_succ, trace_add, moves_tilePairs h _ _ _ _ (by omega), ih (by omega), List.range_succ, List.flatMap_append]
    simp only
    rw [trace_tilePair h hw y xb b (by omega)]
    simp

/-- The accesses of one byte column of TILECONV (41 R101, R106). -/
theorem trace_tileColumn {r : Run} (h : r.op = .tileconv) {m : Memory} (hm : Memory.wf m = true) (y xb : Nat) :
    (r.at (.plane0 y xb)).trace 16 m = planeReads r.layout y xb ++
      (List.range 4).flatMap fun k => pairAccesses r.regs y xb k (readPlanes r.layout m y xb) := by
  rw [show 16 = 4 + 3 * 4 from rfl, trace_add, moves_planes, trace_planes]
  simp only
  rw [trace_tilePairs h hm y xb _ (le_refl _)]

/-- The accesses of one packed byte of DRAWTILE: its read, then its non-zero nibbles, the high one first (42 R117). -/
theorem trace_drawByte (r : Run) (m : Memory) (c : Clip) (k j : Nat) :
    (r.at (.packed c k j)).trace 3 m = .read (busAddr (drawSrc c k j)) ::
      ((nibbleAccess (drawDst r.regs c k (2 * j)) (highNibble (memRead m (drawSrc c k j)))).toList ++
        (nibbleAccess (drawDst r.regs c k (2 * j + 1)) (lowNibble (memRead m (drawSrc c k j)))).toList) := by
  simp [Run.trace, Run.advance, Run.access, Run.nextPos, portData]

/-! ## Nested loops -/

/-- What a filter keeps of the accesses of nested loops, if every memory with `P` gives the column the accesses `T` says and every
column keeps `P`. -/
theorem trace_loops {β : Type} (g : Access → Option β) {r : Run} {K B R : Nat} {pos : Nat → Nat → Pos}
    {col : Nat → Nat → Memory → Memory} (hcol : ColumnMoves r K B R pos col) (hB : 0 < B) {P : Memory → Prop}
    (hP : ∀ y x m, y < R → x < B → P m → P (col y x m)) {T : Nat → Nat → List β}
    (hT : ∀ y x m, y < R → x < B → P m → ((r.at (pos y x)).trace K m).filterMap g = T y x) {m : Memory} (hm : P m) :
    ((r.at (pos 0 0)).trace (K * B * R) m).filterMap g =
      (List.range R).flatMap fun y => (List.range B).flatMap fun x => T y x := by
  have cols : ∀ y n m, y < R → n ≤ B → P m →
      ((r.at (pos y 0)).trace (K * n) m).filterMap g = (List.range n).flatMap fun x => T y x := by
    intro y n m hy hn hm
    induction n with
    | zero => simp [Run.trace]
    | succ n ih =>
      rw [Nat.mul_succ, trace_add, moves_columns hcol y m (by omega), List.filterMap_append, ih (by omega),
        List.range_succ, List.flatMap_append]
      simp only
      rw [hT y n _ hy (by omega) (loopUp_keeps (P := P) (fun x hx m hm => hP y x m hy (by omega) hm) hm)]
      simp
  have rows : ∀ n, n ≤ R → ((r.at (pos 0 0)).trace (K * B * n) m).filterMap g =
      (List.range n).flatMap fun y => (List.range B).flatMap fun x => T y x := by
    intro n hn
    induction n with
    | zero => simp [Run.trace]
    | succ n ih =>
      rw [Nat.mul_succ, trace_add, moves_rows hcol hB m (by omega), List.filterMap_append, ih (by omega),
        List.range_succ, List.flatMap_append]
      simp only
      rw [cols n B _ (by omega) (le_refl _) (loopUp_keeps (P := P) (fun y hy m hm =>
        loopUp_keeps (P := P) (fun x hx m hm => hP y x m (by omega) hx hm) hm) hm)]
      simp
  exact rows R (le_refl _)

end Sys2Proof.Machine
end

