-- ==== Sys2Proof/Tests/Slice0.lean ====
section
/-! SUPPORT. Small tests from the spec's encodings and vectors (30 R71, 95), the refusals of WellFormed, and for each statement with
hypotheses a concrete state and operands that meet them together. -/

namespace Sys2Proof.Tests

open Sys2Proof.Machine

-- One test after another: elaborated at once, their many kernel evaluations together need more memory than a check has.
set_option Elab.async false

/-! ## The states the tests use -/

/-- An idle block with the operands `o`, the memory `m`, the queue `q`, at level `l`. -/
def idleAt (l : Level) (o : OperandRegs) (m : Memory) (q : List HostEvent) : State :=
  { State.resetOf Config.defaultInstance m with opnd := o, level := l, host := ⟨q, 0, 0⟩ }

/-- The same block running command `i` at position `pos`. -/
def runningAt (i : Instr) (o : OperandRegs) (pos : Pos) (breached : Bool) (q : List HostEvent) : State :=
  { idleAt .access o [] q with engine := .running ⟨i, o, pos, breached⟩ }

/-- The default instance, its register block at 0x40. -/
def highInstance : Instance := { Config.defaultInstance with regBase := 0x40 }

/-- An instance with 16 bytes of memory. -/
def tinyInstance : Instance := { Config.defaultInstance with populated := [⟨0, 16⟩] }

/-- DECODE of an 8 by 1 image at 0x1000 to 0x2000 (95, V-DEC-1). -/
def decodeOps (key : Byte) : OperandRegs := ⟨0x1000, 0x2000, 8, 8, 1, key, 0, 0⟩

/-- TILECONV of the tile at 0x3000 to 0x4000. -/
def tileOps : OperandRegs := ⟨0x3000, 0x4000, 0, 0, 0, 0, 0, 0⟩

/-- DRAWTILE of the tile at 0x4000 to the region at 0x8000. -/
def drawOps (x y : Half) : OperandRegs := ⟨0x4000, 0x8000, 32, 0, 0, 0, x, y⟩

/-- The source of V-DEC-1: plane bytes AA, CC, F0, 00. -/
def vdecMem : Memory := [(0x1000, 0xAA), (0x1001, 0xCC), (0x1002, 0xF0)]

/-- A step answers a next state of which `P` holds. -/
def stepShows (s : State) (P : State → Bool) : Bool :=
  match step s with
  | .next t => P t
  | .fault _ => false
  | .refused _ => false

theorem stepShows_next {s : State} {P : State → Bool} (h : stepShows s P = true) : ∃ t, step s = .next t ∧ P t = true := by
  unfold stepShows at h
  split at h
  · exact ⟨_, ‹_›, h⟩
  · cases h
  · cases h

/-- A command answers a next state of which `P` holds. -/
def execShows (i : Instr) (s : State) (P : State → Bool) : Bool :=
  match exec i s with
  | .next t => P t
  | .fault _ => false
  | .refused _ => false

theorem execShows_next {i : Instr} {s : State} {P : State → Bool} (h : execShows i s P = true) :
    ∃ t, exec i s = .next t ∧ P t = true := by
  unfold execShows at h
  split at h
  · exact ⟨_, ‹_›, h⟩
  · cases h
  · cases h

theorem execShows_some {i : Instr} {s : State} (h : execShows i s (fun _ => true) = true) : ∃ t, exec i s = .next t :=
  (execShows_next h).imp fun _ ht => ht.1

/-! ## WellFormed refuses an ill-formed term of each kind -/

theorem test_wf_reserved_bits : cmdReservedOk 0x00000011 = false ∧ CmdWord.wellFormed 0x00000011 = false := by decide

theorem test_wf_opcode : cmdOpOk 0 = false ∧ cmdOpOk 4 = false ∧ CmdWord.wellFormed 4 = false := by decide

theorem test_wf_block : highInstance.inBlock 0x3F = false ∧ highInstance.inBlock 0x80 = false ∧
    highInstance.regAccessOk 0x80 .word = false := by decide

theorem test_wf_whole_word : highInstance.wholeWord 0x42 .word = false ∧ highInstance.wholeWord 0x44 .half = false ∧
    highInstance.wholeWord 0x44 .byte = false ∧ highInstance.regAccessOk 0x42 .word = false := by decide

theorem test_wf_instance : ({ highInstance with tilemapW := 0 } : Instance).wellFormed = false ∧
    ({ highInstance with tilemapW := 32768 } : Instance).wellFormed = false ∧
    ({ highInstance with tilemapH := 0 } : Instance).wellFormed = false ∧
    ({ highInstance with tilemapH := 32768 } : Instance).wellFormed = false ∧
    ({ highInstance with regBase := 4 } : Instance).wellFormed = false ∧
    ({ highInstance with populated := [⟨1, 2 ^ 32⟩] } : Instance).wellFormed = false ∧
    highInstance.wellFormed = true := by decide

theorem test_wf_instr : Instr.wellFormed .decode = true ∧ CmdWord.wellFormed (encode .decode) = true := by decide

/-! ## Decoding, from the words of 30 R71 written out -/

theorem test_word_decode : decode 0b00000000000000000000000000000001#32 = .ok .decode := by decide

theorem test_word_tileconv : decode 0b00000000000000000000000000000010#32 = .ok .tileconv := by decide

theorem test_word_drawtile : decode 0b00000000000000000000000000000011#32 = .ok .drawtile := by decide

theorem test_word_reserved : decode 0b00000000000000000000000000001111#32 = .error .reservedOpcode ∧
    decode 0b10000000000000000000000000000001#32 = .error .reservedBits := by decide

theorem test_table_words : decodeTableWord 32 1 = some .decode ∧ decodeTableWord 32 2 = some .tileconv ∧
    decodeTableWord 32 3 = some .drawtile ∧ decodeTableWord 32 0 = none := by decide

/-! ## One step of each command -/

/-- 95, V-DEC-1: colours 7, 6, .., 0 for the planes AA, CC, F0, 00, no colour transparent. -/
theorem test_decode_step : stepShows ((idleAt .command (decodeOps 0xFF) vdecMem []).withFetchWord 32 1) (fun t =>
    memRead t.mem 0x2000 == 7 && memRead t.mem 0x2001 == 6 && memRead t.mem 0x2006 == 1 && t.status.done && !t.busy)
    = true := by decide +kernel

/-- 40 R92: the pixel of colour KEY keeps its byte. -/
theorem test_decode_key : stepShows ((idleAt .command (decodeOps 5) (vdecMem ++ [(0x2001, 0xEE), (0x2002, 0xEE)]) []).withFetchWord
    32 1) (fun t => memRead t.mem 0x2002 == 0xEE && memRead t.mem 0x2001 == 6) = true := by decide +kernel

/-- 41 R100: pixel 0 in the high nibble, pixel 1 in the low nibble; the old byte 5A leaves no trace (41 R102). -/
theorem test_tileconv_step : stepShows ((idleAt .command tileOps
    [(0x3000, 0xC0), (0x3020, 0x40), (0x3040, 0x80), (0x4000, 0x5A)] []).withFetchWord 32 2) (fun t =>
    memRead t.mem 0x4000 == 0x53 && memRead t.mem 0x4001 == 0 && t.status.done) = true := by decide +kernel

/-- 41 R100: byte 1 of a tile row's plane holds pixels 8 to 15; its last pixel goes to the low nibble of byte 7. -/
theorem test_tileconv_second_column : stepShows ((idleAt .command tileOps [(0x3061, 0x01)] []).withFetchWord 32 2) (fun t =>
    memRead t.mem 0x4007 == 0x08 && memRead t.mem 0x4000 == 0) = true := by decide +kernel

/-- 42 R118: at x offset -8 byte 4 of the tile's first row lands on columns 0 and 1. -/
theorem test_drawtile_step : stepShows ((idleAt .command (drawOps (-8) 0) [(0x4003, 0x99), (0x4004, 0x70), (0x8001, 0xEE)] []).withFetchWord
    32 3) (fun t => memRead t.mem 0x8000 == 7 && memRead t.mem 0x8001 == 0xEE && t.status.done) = true := by
  decide +kernel

/-- 42 R111: at y offset -15 only the last tile row is drawn. -/
theorem test_drawtile_top : stepShows ((idleAt .command (drawOps 0 (-15)) [(0x4000, 0x11), (0x4078, 0x2F)] []).withFetchWord 32 3)
    (fun t => memRead t.mem 0x8000 == 2 && memRead t.mem 0x8001 == 15 && memRead t.mem 0x8020 == 0) = true := by
  decide +kernel

/-- 10 R18: XOFF keeps 16 bits and reads back sign-extended. -/
theorem test_xoff_sign : (OperandRegs.reset.write .xoff 0x0000FFF8).read .xoff = 0xFFFFFFF8 := by decide

/-- 10 R15: WIDTH keeps 16 bits and reads back zero-extended. -/
theorem test_width_field : (OperandRegs.reset.write .width 0x00018008).read .width = 0x00008008 := by decide

/-! ## Reset, a level (70 R140) -/

/-- A block with reset asserted, memory `m` and the queue `q`, at level `l`. -/
def heldAt (l : Level) (m : Memory) (q : List HostEvent) : State :=
  { idleAt l OperandRegs.reset m q with resetAsserted := true }

/-- SRC written while reset is asserted still reads 0, and STATUS shows no E_BUSY. -/
theorem test_operand_write_in_reset : stepShows (heldAt .command [] [wr Config.defaultInstance (.operand .src) 0x1234])
    (fun t => t.readReg (.operand .src) == 0 && t.statusWord == 0 && t.resetAsserted) = true := by decide

/-- The TILECONV word, a valid one at all-zero operands, and a reserved word: neither is presented while reset is asserted. -/
theorem test_command_in_reset :
    stepShows (heldAt .command [(0, 0xFF)] [cmdWrite Config.defaultInstance 2]) (fun t =>
      memRead t.mem 0 == 0xFF && t.statusWord == 0 && !t.busy) = true ∧
    stepShows (heldAt .access [] [cmdWrite Config.defaultInstance 2]) (fun t => !t.busy) = true ∧
    stepShows (heldAt .command [] [cmdWrite Config.defaultInstance 4]) (fun t => t.statusWord == 0) = true := by
  decide +kernel

/-- Asserting reset stops a run without DONE; the block stays held. -/
theorem test_reset_stops_run : stepShows (runningAt .tileconv tileOps .finished false [.resetInput true]) (fun t =>
    t.statusWord == 0 && t.readReg (.operand .src) == 0 && t.resetAsserted) = true := by decide +kernel

/-- 95, STATUS: after a reset it reads 0, whatever it read before. -/
theorem test_reset_sequence :
    stepShows { idleAt .command (decodeOps 5) [] seqReset with status := ⟨true, true, true, true⟩ } (fun t =>
      t.resetAsserted && stepShows t (fun u => u.statusWord == 0 && !u.resetAsserted && u.host.queue == [])) = true := by
  decide

/-- Released, the block takes register writes again. -/
theorem test_write_after_release : stepShows (heldAt .command [] [.resetInput false]) (fun t =>
    !t.resetAsserted && stepShows (t.withQueue [wr Config.defaultInstance (.operand .src) 5])
      (fun u => u.readReg (.operand .src) == 5)) = true := by decide

/-! ## Hypotheses of the statements, met together -/

/-- A block at level `command` whose DECODE has every premise of the statements about its result. -/
def decodeState (key : Byte) : State := idleAt .command (decodeOps key) vdecMem []

/-- The same for TILECONV. -/
def tileState : State := idleAt .command tileOps [(0x3000, 0xC0)] []

/-- The same for DRAWTILE, the tile inside the region. -/
def drawState (x y : Half) : State := idleAt .command (drawOps x y) [(0x4000, 0x12)] []

theorem witness_ReservedWordsRejected :
    ((0x10#32).toNat / 16 ≠ 0 ∧ (0xFFFFFFFF#32).toNat / 16 ≠ 0 ∧ (0#32).toNat % 16 = 0 ∧ 4 ≤ (4#32).toNat % 16 ∧
      4 ≤ (15#32).toNat % 16) ∧
    ((1#32).toNat / 16 = 0 ∧ 1 ≤ (1#32).toNat % 16 ∧ (1#32).toNat % 16 ≤ 3) ∧
    ((3#32).toNat / 16 = 0 ∧ 1 ≤ (3#32).toNat % 16 ∧ (3#32).toNat % 16 ≤ 3) ∧
    (idleAt .command (decodeOps 5) [] [cmdWrite Config.defaultInstance 4]).host.queue =
      cmdWrite (idleAt .command (decodeOps 5) [] [cmdWrite Config.defaultInstance 4]).inst 4 :: [] ∧
    (idleAt .command (decodeOps 5) [] [cmdWrite Config.defaultInstance 4]).resetAsserted = false ∧
    (idleAt .command (decodeOps 5) [] [cmdWrite Config.defaultInstance 4]).busy = false := by decide

/-- An idle block; a held one to which a write at the first and the last offset, an agent's write, a second assertion and the
release come. -/
theorem witness_ResetLeaves :
    ((idleAt .access (decodeOps 5) vdecMem [.resetInput true]).host.queue = .resetInput true :: [] ∧
      (idleAt .access (decodeOps 5) vdecMem [.resetInput true]).busy = false) ∧
    (∀ q, (heldAt .access vdecMem q).resetAsserted = true ∧ (heldAt .access vdecMem q).host.queue = q ∧
      (heldAt .access vdecMem q).inv = true) ∧
    ((∃ t, step (heldAt .access vdecMem [.memWrite 0x10 7]) = .next t ∧ t.mem ≠ vdecMem) ∧
      ¬ (heldAt .access vdecMem [.memWrite 0x10 7]).nextIs (.resetInput false) ∧
      ∃ t, step (heldAt .access vdecMem [.resetInput true]) = .next t) ∧
    (0x00 % 4 = 0 ∧ 0x00 < 64 ∧ 0x3C % 4 = 0 ∧ 0x3C < 64) :=
  ⟨by decide, fun _ => ⟨rfl, rfl, (by decide : (heldAt .access vdecMem []).inv = true)⟩,
    ⟨by simpa using stepShows_next (P := fun t => t.mem != vdecMem) (by decide +kernel), by unfold State.nextIs; decide,
      _, (step_cons rfl).trans rfl⟩, by decide⟩

/-- A run that reset cuts, one that goes on and one that completes. -/
theorem witness_ResetDuringRun :
    ((runningAt .decode (decodeOps 5) (.plane0 0 0) false [.resetInput true]).host.queue = .resetInput true :: [] ∧
      (runningAt .decode (decodeOps 5) (.plane0 0 0) false [.resetInput true]).engine =
        .running ⟨.decode, decodeOps 5, .plane0 0 0, false⟩ ∧
      busAddr 0x2008 ∉ (⟨.decode, decodeOps 5, .plane0 0 0, false⟩ : Run).writes Config.defaultInstance) ∧
    ((runningAt .decode (decodeOps 5) (.plane0 0 0) false []).inv = true ∧
      (runningAt .decode (decodeOps 5) .finished false []).inv = true ∧
      ¬ (runningAt .decode (decodeOps 5) (.plane0 0 0) false []).nextIs (.resetInput true)) ∧
    (∃ t, step (runningAt .decode (decodeOps 5) (.plane0 0 0) false []) = .next t) ∧
    ∃ t, step (runningAt .decode (decodeOps 5) .finished false []) = .next t :=
  ⟨by decide, ⟨by decide +kernel, by decide +kernel, by unfold State.nextIs; decide⟩, ⟨_, step_nil rfl⟩, ⟨_, step_nil rfl⟩⟩

theorem witness_OperandWriteReadsBack :
    (idleAt .command (decodeOps 5) [] [wr Config.defaultInstance (.operand .xoff) 0x8000]).host.queue =
      wr Config.defaultInstance (.operand .xoff) 0x8000 :: [] ∧
    (idleAt .command (decodeOps 5) [] [wr Config.defaultInstance (.operand .xoff) 0x8000]).resetAsserted = false ∧
    (idleAt .command (decodeOps 5) [] [wr Config.defaultInstance (.operand .xoff) 0x8000]).busy = false := by decide

/-- A register write at each end of the ranges of offsets, a read, and a run that goes on from its first move, from the middle of a
pixel pair and from its completion. -/
theorem witness_BusyWritesDiscarded :
    (∀ off : Nat, ∀ v : Word,
      (runningAt .tileconv tileOps (.plane0 0 0) false [.regWrite (Config.defaultInstance.regBase + off) .word v]).busy = true ∧
      (runningAt .tileconv tileOps (.plane0 0 0) false
        [.regWrite (Config.defaultInstance.regBase + off) .word v]).host.queue =
          .regWrite (Config.defaultInstance.regBase + off) .word v :: [] ∧
      (runningAt .tileconv tileOps (.plane0 0 0) false
        [.regRead (Config.defaultInstance.regBase + off) .word]).host.queue =
          .regRead (Config.defaultInstance.regBase + off) .word :: []) ∧
    ((0x00 % 4 = 0 ∧ 0x00 < 64) ∧ (0x08 ≤ 0x08 ∧ 0x08 ≤ 0x24 ∧ 0x08 % 4 = 0) ∧ (0x08 ≤ 0x24 ∧ 0x24 ≤ 0x24 ∧ 0x24 % 4 = 0) ∧
      0x04 % 4 = 0 ∧ (0x28 ≤ 0x28 ∧ 0x28 % 4 = 0) ∧ (0x28 ≤ 0x3C ∧ 0x3C % 4 = 0 ∧ 0x3C < 64)) ∧
    (∀ q, (runningAt .tileconv tileOps (.plane0 0 0) false q).inv = true) ∧
    (runningAt .tileconv tileOps (.merge 3 1 5 ⟨1, 2, 3, 4⟩ 0x30) false [.regWrite 0x00 .word 7]).inv = true ∧
    (runningAt .tileconv tileOps .finished true [.regWrite 0x08 .word 7]).inv = true :=
  ⟨fun _ _ => ⟨rfl, rfl, rfl⟩, by decide,
    fun _ => (by decide +kernel : (runningAt .tileconv tileOps (.plane0 0 0) false []).inv = true),
    by decide +kernel, by decide +kernel⟩

theorem witness_StatusWriteOneToClear :
    (runningAt .decode (decodeOps 5) .finished false [wr Config.defaultInstance .status 0x12]).host.queue =
      wr Config.defaultInstance .status 0x12 :: [] := by decide

theorem witness_RegisterReadHasNoEffect :
    (idleAt .command (decodeOps 5) [] [rd Config.defaultInstance .cmd]).host.queue = rd Config.defaultInstance .cmd :: [] ∧
    (idleAt .command (decodeOps 5) [] [rd Config.defaultInstance .status]).host.queue =
      rd Config.defaultInstance .status :: [] ∧
    (idleAt .command (decodeOps 5) [] [rd Config.defaultInstance (.operand .yoff)]).host.queue =
      rd Config.defaultInstance (.operand .yoff) :: [] := by decide

/-- The first and the last reserved offset. -/
theorem witness_ReservedOffsetsInert : (0x28 ≤ 0x28 ∧ 0x28 ≤ 0x3C ∧ 0x28 % 4 = 0) ∧ (0x28 ≤ 0x3C ∧ 0x3C ≤ 0x3C ∧ 0x3C % 4 = 0) ∧
    (idleAt .command (decodeOps 5) [] [.regWrite 0x28 .word 1]).host.queue = .regWrite (0 + 0x28) .word 1 :: [] ∧
    (idleAt .command (decodeOps 5) [] [.regRead 0x3C .word]).host.queue = .regRead (0 + 0x3C) .word :: [] ∧
    (idleAt .command (decodeOps 5) [] []).inst.regBase = 0 := by decide

/-- Below the block, just past it, a half-word in it, its last word misaligned. -/
theorem witness_UndefinedRegisterAccessStops :
    (0x3F < highInstance.regBase) ∧ (highInstance.regBase + 64 ≤ 0x80) ∧
    (highInstance.regBase ≤ 0x40 ∧ 0x40 < highInstance.regBase + 64 ∧ AccessSize.half ≠ .word) ∧
    (highInstance.regBase ≤ 0x7F ∧ 0x7F < highInstance.regBase + 64 ∧ (0x7F - highInstance.regBase) % 4 ≠ 0) ∧
    ({ idleAt .command (decodeOps 5) [] [.regRead 0x7F .word] with inst := highInstance } : State).host.queue =
      .regRead 0x7F .word :: [] := by decide

theorem witness_StepRunsPresentedCommand :
    (idleAt .command (decodeOps 5) [] [cmdWrite Config.defaultInstance 1]).host.queue =
      cmdWrite (idleAt .command (decodeOps 5) [] [cmdWrite Config.defaultInstance 1]).inst 1 :: [] ∧
    decode 1 = .ok .decode := by decide

theorem witness_AcceptanceLatchesOperands :
    (idleAt .access (decodeOps 5) [] []).accepts .decode = true ∧ (idleAt .access tileOps [] []).accepts .tileconv = true ∧
    (idleAt .access (drawOps 0 0) [] []).accepts .drawtile = true ∧ (idleAt .access (decodeOps 5) [] []).level = .access := by
  decide +kernel

/-- The least and the greatest bad WIDTH, and one next to a good one; E_PARAM set before and kept. -/
theorem witness_BadWidthRejected :
    (∀ w : Half,
      (idleAt .command { decodeOps 5 with width := w } [] [cmdWrite Config.defaultInstance 1]).resetAsserted = false ∧
      (idleAt .command { decodeOps 5 with width := w } [] [cmdWrite Config.defaultInstance 1]).busy = false ∧
      (idleAt .command { decodeOps 5 with width := w } [] [cmdWrite Config.defaultInstance 1]).host.queue =
        cmdWrite Config.defaultInstance 0x00000001#32 :: []) ∧
    ((1#16).toNat % 8 ≠ 0 ∧ (7#16).toNat % 8 ≠ 0 ∧ (9#16).toNat % 8 ≠ 0 ∧ (65535#16).toNat % 8 ≠ 0) ∧
    (∃ t, exec .decode (idleAt .command { decodeOps 5 with width := 9 } [] []) = .next t ∧ t.status.eParam = true) ∧
    (∃ t, exec .tileconv { tileState with status := ⟨false, false, true, false⟩ } = .next t ∧ t.status.eParam = true) := by
  exact ⟨fun _ => ⟨rfl, rfl, rfl⟩, by decide, execShows_next (P := fun t => t.status.eParam) (by decide +kernel),
    execShows_next (P := fun t => t.status.eParam) (by decide +kernel)⟩

/-- Both sides of the refusal: a footprint that leaves 16 bytes of memory. -/
theorem witness_CommandStopsOnlyOffPopulatedMemory :
    ({ tileState with inst := tinyInstance } : State).resetAsserted = false ∧
    ({ tileState with inst := tinyInstance } : State).busy = false ∧
    operandsOk .tileconv tileOps = true ∧ footPopulated tinyInstance .tileconv tileOps = false := by decide

theorem witness_FlagsDoNotChangeResults : ∃ t, exec .decode (decodeState 5) = .next t :=
  execShows_some (by decide +kernel)

theorem witness_CommandsComplete : (decodeState 5).level = .command ∧ (decodeState 5).accepts .decode = true ∧
    tileState.accepts .tileconv = true ∧ (drawState 0 0).accepts .drawtile = true := by decide +kernel

theorem witness_DecodeTransparency : (decodeState 5).inv = true ∧ (decodeState 5).level = .command ∧
    (decodeState 5).accepts .decode = true ∧ DecodeContract (decodeState 5).opnd ∧
    7 < (decodeState 5).opnd.widthPixels ∧ 0 < (decodeState 5).opnd.heightRows := by decide +kernel

/-- The least key that matches no colour and the greatest that matches one. -/
theorem witness_DecodeKeyMatchesNoColour :
    ((decodeState 16).inv = true ∧ (decodeState 16).level = .command ∧ (decodeState 16).accepts .decode = true ∧
      DecodeContract (decodeState 16).opnd ∧ 16 ≤ (decodeState 16).opnd.key.toNat) ∧
    ((decodeState 15).inv = true ∧ (decodeState 15).level = .command ∧ (decodeState 15).accepts .decode = true ∧
      DecodeContract (decodeState 15).opnd ∧ (decodeState 15).opnd.key.toNat ≤ 15) := by
  decide +kernel

theorem witness_DecodeEmptyImage :
    (idleAt .command { decodeOps 5 with width := 0 } [] []).resetAsserted = false ∧
    (idleAt .command { decodeOps 5 with width := 0 } [] []).busy = false ∧
    ({ decodeOps 5 with width := 0 } : OperandRegs).width.toNat % 8 = 0 ∧
    ({ decodeOps 5 with height := 0 } : OperandRegs).width.toNat % 8 = 0 ∧
    ({ decodeOps 5 with height := 0 } : OperandRegs).height.toNat = 0 := by decide

theorem witness_DecodeTwoKeysDifferOnlyThere : (decodeState 0).inv = true ∧ (decodeState 0).level = .command ∧
    (decodeState 0).accepts .decode = true ∧ DecodeContract (decodeState 0).opnd := by decide +kernel

/-- The grid of V-DEC-1 (a): pixel `x` has colour `7 - x`. -/
theorem witness_DecodeReproducesGrid : (decodeState 16).inv = true ∧ (decodeState 16).level = .command ∧
    (decodeState 16).accepts .decode = true ∧ DecodeContract (decodeState 16).opnd ∧
    16 ≤ (decodeState 16).opnd.key.toNat ∧
    ∀ x y p, x < (decodeState 16).opnd.widthPixels → y < (decodeState 16).opnd.heightRows → p < 4 →
      (memRead (decodeState 16).mem ((decodeState 16).opnd.srcAddr +
        p * ((decodeState 16).opnd.heightRows * ((decodeState 16).opnd.widthPixels / 8)) +
        (y * ((decodeState 16).opnd.widthPixels / 8) + x / 8))).getLsbD (7 - x % 8) =
        (BitVec.ofNat 4 (7 - x) : Colour).getLsbD p := by
  have key : ∀ x < 8, ∀ y < 1, ∀ p < 4,
      (memRead (decodeState 16).mem ((decodeState 16).opnd.srcAddr +
        p * ((decodeState 16).opnd.heightRows * ((decodeState 16).opnd.widthPixels / 8)) +
        (y * ((decodeState 16).opnd.widthPixels / 8) + x / 8))).getLsbD (7 - x % 8) =
        (BitVec.ofNat 4 (7 - x) : Colour).getLsbD p := by decide +kernel
  exact ⟨by decide, by decide, by decide +kernel, by decide +kernel, by decide, fun x y p hx hy hp => key x hx y hy p hp⟩

theorem witness_ColourBitsComeFromPlanes : 0 < 8 ∧ 7 < 8 := by decide

theorem witness_DecodeAccessOrder : DisjointAddrs (decodeReads (decodeOps 5)) (decodeWrites (decodeOps 5)) ∧
    0 < (decodeLayout (decodeOps 5)).rows ∧ 0 < (decodeLayout (decodeOps 5)).bytesPerRow := by decide

/-- DECODE answers a next state where it runs, where it is rejected, where it is discarded and where it is only accepted. -/
theorem witness_DecodeFrame : (∃ t, exec .decode (decodeState 5) = .next t) ∧
    (∃ t, exec .decode (idleAt .command { decodeOps 5 with width := 9 } [] []) = .next t) ∧
    (∃ t, exec .decode (runningAt .decode (decodeOps 5) .finished false []) = .next t) ∧
    (∃ t, exec .decode (idleAt .access (decodeOps 5) vdecMem []) = .next t) ∧
    busAddr 0x2008 ∉ decodeWrites (decodeOps 5) :=
  ⟨execShows_some (by decide +kernel), execShows_some (by decide +kernel),
    execShows_some (by decide +kernel), execShows_some (by decide +kernel), by decide⟩

theorem witness_TileconvPacksPixels : tileState.inv = true ∧ tileState.level = .command ∧
    tileState.accepts .tileconv = true ∧ TileContract tileState.opnd := by decide +kernel

theorem witness_TileconvFrame : (∃ t, exec .tileconv tileState = .next t) ∧
    (∃ t, exec .tileconv (runningAt .decode (decodeOps 5) .finished false []) = .next t) ∧
    (∃ t, exec .tileconv (idleAt .access tileOps [] []) = .next t) ∧
    busAddr 0x4080 ∉ tileWrites tileOps :=
  ⟨execShows_some (by decide +kernel), execShows_some (by decide +kernel), execShows_some (by decide +kernel),
    by decide +kernel⟩

/-- Clamped on the left and at the top to one column pair and one row, and not clamped at all. -/
theorem witness_DrawtileClampGuarantee :
    (0 < (clipTile Config.defaultInstance (drawOps (-14) (-15))).w ∧
      0 < (clipTile Config.defaultInstance (drawOps (-14) (-15))).h ∧
      0 < (clipTile Config.defaultInstance (drawOps (-14) (-15))).rows ∧
      0 < (clipTile Config.defaultInstance (drawOps (-14) (-15))).bytes) ∧
    (0 < (clipTile Config.defaultInstance (drawOps 0 0)).w ∧ 0 < (clipTile Config.defaultInstance (drawOps 0 0)).h) := by
  decide

/-- The first offsets outside on each side. -/
theorem witness_DrawtileOutsideIsNoOp : (drawState (-16) 0).inst.wellFormed = true ∧
    (drawState (-16) 0).resetAsserted = false ∧ (drawState (-16) 0).busy = false ∧
    (clipTile Config.defaultInstance (drawOps (-16) 0)).w ≤ 0 ∧ (clipTile Config.defaultInstance (drawOps 32 0)).w ≤ 0 ∧
    (clipTile Config.defaultInstance (drawOps 0 (-16))).h ≤ 0 ∧ (clipTile Config.defaultInstance (drawOps 0 24)).h ≤ 0 ∧
    ¬ (clipTile Config.defaultInstance (drawOps (-15) 23)).w ≤ 0 ∧
    ¬ (clipTile Config.defaultInstance (drawOps (-15) 23)).h ≤ 0 := by decide

theorem witness_DrawtileBoundaryExample : (drawOps (-8) 0).xoff.toInt = -8 ∧ 8 ≤ Config.defaultInstance.tilemapW ∧
    0 ≤ (drawOps (-8) 0).yoff.toInt ∧ (drawOps (-8) 0).yoff.toInt < Config.defaultInstance.tilemapH := by decide

theorem witness_DrawtileDrawsNonzeroNibbles : (drawState 0 0).inv = true ∧ (drawState 0 0).level = .command ∧
    (drawState 0 0).accepts .drawtile = true ∧ DrawContract (drawState 0 0).inst (drawState 0 0).opnd ∧
    15 < (clipTile (drawState 0 0).inst (drawState 0 0).opnd).rows ∧
    15 < 2 * (clipTile (drawState 0 0).inst (drawState 0 0).opnd).bytes := by decide +kernel

theorem witness_DrawtileFrame : (∃ t, exec .drawtile (drawState 0 0) = .next t) ∧
    (∃ t, exec .drawtile (runningAt .decode (decodeOps 5) .finished false []) = .next t) ∧
    (∃ t, exec .drawtile (idleAt .access (drawOps 0 0) [] []) = .next t) ∧
    busAddr 0x8010 ∉ drawWrites Config.defaultInstance (drawOps 0 0) :=
  ⟨execShows_some (by decide +kernel), execShows_some (by decide +kernel), execShows_some (by decide +kernel),
    by decide +kernel⟩

theorem witness_IgnoredOperandsHaveNoEffect : (decodeState 5).level = .command ∧
    (∃ t, exec .decode (decodeState 5) = .next t) ∧ (∃ t, exec .tileconv tileState = .next t) ∧
    ∃ t, exec .drawtile (drawState 0 0) = .next t :=
  ⟨rfl, execShows_some (by decide +kernel), execShows_some (by decide +kernel),
    execShows_some (by decide +kernel)⟩

/-- The tile in the region's last place. -/
theorem witness_ConvertedTileIsDrawn : tileState.inv = true ∧ tileState.level = .command ∧
    tileState.accepts .tileconv = true ∧ TileContract tileState.opnd ∧
    (∃ t, exec .tileconv tileState = .next t ∧ ({ t with opnd := drawOps 16 8 } : State).accepts .drawtile = true) ∧
    (drawOps 16 8).src = tileState.opnd.dst ∧ DrawContract tileState.inst (drawOps 16 8) ∧
    0 ≤ (drawOps 16 8).xoff.toInt ∧ (drawOps 16 8).xoff.toInt + 16 ≤ tileState.inst.tilemapW ∧
    0 ≤ (drawOps 16 8).yoff.toInt ∧ (drawOps 16 8).yoff.toInt + 16 ≤ tileState.inst.tilemapH :=
  ⟨by decide, rfl, by decide +kernel, by decide +kernel,
    execShows_next (P := fun t => ({ t with opnd := drawOps 16 8 } : State).accepts .drawtile) (by decide +kernel),
    rfl, by decide +kernel, by decide⟩

theorem witness_AccessRunIsAtomicRun : (idleAt .access (decodeOps 5) vdecMem []).accepts .decode = true ∧
    (idleAt .access tileOps [] []).accepts .tileconv = true ∧ (idleAt .access (drawOps 0 0) [] []).accepts .drawtile = true ∧
    (idleAt .access (decodeOps 5) vdecMem []).level = .access ∧ (idleAt .access tileOps [] []).host.queue = [] := by
  decide +kernel

theorem witness_TileconvAccessOrder : Memory.wf [(0x3000, 0xC0)] = true ∧ TileContract tileOps ∧ 127 < 128 := by decide +kernel

/-- A tile inside the region, and one of which a single row and byte column are left. -/
theorem witness_DrawtileAccessOrder :
    (DisjointAddrs (drawReads Config.defaultInstance (drawOps 0 0)) (drawWrites Config.defaultInstance (drawOps 0 0)) ∧
      DrawContract Config.defaultInstance (drawOps 0 0) ∧ (clipTile Config.defaultInstance (drawOps 0 0)).rows = 16 ∧
      (clipTile Config.defaultInstance (drawOps 0 0)).bytes = 8) ∧
    (DrawContract Config.defaultInstance (drawOps (-14) (-15)) ∧
      (clipTile Config.defaultInstance (drawOps (-14) (-15))).rows = 1 ∧
      (clipTile Config.defaultInstance (drawOps (-14) (-15))).bytes = 1) := by decide +kernel

/-- A byte that is only read, one that is written, and the bytes next to both footprints. -/
theorem witness_ForeignAccessDuringRun :
    (runningAt .tileconv tileOps (.pixel 0 0 1 ⟨1, 2, 3, 4⟩) false [.memWrite 0x307F 7]).inv = true ∧
    (runningAt .tileconv tileOps (.pixel 0 0 1 ⟨1, 2, 3, 4⟩) false [.memRead 0x4000]).inv = true ∧
    (populatedAt Config.defaultInstance (0x307F#32).toNat = true ∧
      (0x307F#32).toNat ∈ (⟨.tileconv, tileOps, .pixel 0 0 1 ⟨1, 2, 3, 4⟩, false⟩ : Run).reads Config.defaultInstance ∧
      (0x307F#32).toNat ∉ (⟨.tileconv, tileOps, .pixel 0 0 1 ⟨1, 2, 3, 4⟩, false⟩ : Run).writes Config.defaultInstance) ∧
    (populatedAt Config.defaultInstance (0x4000#32).toNat = true ∧
      (0x4000#32).toNat ∈ (⟨.tileconv, tileOps, .pixel 0 0 1 ⟨1, 2, 3, 4⟩, false⟩ : Run).writes Config.defaultInstance) ∧
    (populatedAt Config.defaultInstance (0x3080#32).toNat = true ∧
      (0x3080#32).toNat ∉ (⟨.tileconv, tileOps, .pixel 0 0 1 ⟨1, 2, 3, 4⟩, false⟩ : Run).reads Config.defaultInstance ∧
      (0x3080#32).toNat ∉ (⟨.tileconv, tileOps, .pixel 0 0 1 ⟨1, 2, 3, 4⟩, false⟩ : Run).writes Config.defaultInstance) := by
  decide +kernel

/-- A plane read and a pixel write of DECODE; a read back of TILECONV. -/
theorem witness_EngineStaysInFootprint :
    (runningAt .decode (decodeOps 5) (.plane3 0 0 1 2 3) false []).inv = true ∧
    (⟨.decode, decodeOps 5, .plane3 0 0 1 2 3, false⟩ : Run).access = some (.read 0x1003) ∧
    (runningAt .decode (decodeOps 5) (.pixel 0 0 7 ⟨1, 0, 0, 0⟩) false []).inv = true ∧
    (⟨.decode, decodeOps 5, .pixel 0 0 7 ⟨1, 0, 0, 0⟩, false⟩ : Run).access = some (.write 0x2007 1) ∧
    (runningAt .tileconv tileOps (.pixel 15 1 7 ⟨1, 0, 0, 0⟩) false []).inv = true ∧
    (⟨.tileconv, tileOps, .pixel 15 1 7 ⟨1, 0, 0, 0⟩, false⟩ : Run).access = some (.read 0x407F) := by decide +kernel

theorem witness_CompletionIsOneStep : (runningAt .decode (decodeOps 5) .finished false []).host.queue = [] ∧
    (runningAt .decode (decodeOps 5) .finished false []).engine = .running ⟨.decode, decodeOps 5, .finished, false⟩ := by
  decide

theorem witness_IdleBlockStandsStill : (decodeState 5).busy = false ∧ (decodeState 5).host.queue = [] := by decide

theorem witness_WriteAgainstCompletionRace :
    (runningAt .decode (decodeOps 5) .finished false [wr Config.defaultInstance (.operand .dst) 0x9000, .turn]).host.queue =
      [wr Config.defaultInstance (.operand .dst) 0x9000, .turn] ∧
    (runningAt .decode (decodeOps 5) .finished false [.turn, wr Config.defaultInstance (.operand .dst) 0x9000]).host.queue =
      [.turn, wr Config.defaultInstance (.operand .dst) 0x9000] ∧
    (∀ q, (runningAt .decode (decodeOps 5) .finished false q).resetAsserted = false) ∧
    (runningAt .decode (decodeOps 5) .finished false []).engine = .running ⟨.decode, decodeOps 5, .finished, false⟩ :=
  ⟨by decide, by decide, fun _ => rfl, rfl⟩

/-- A completion after a breach; a byte of the source and the last byte of the destination of a TILECONV, to be broken into. -/
theorem witness_BreachedRunCompletes : ((runningAt .decode (decodeOps 5) .finished true []).host.queue = [] ∧
      (runningAt .decode (decodeOps 5) .finished true []).engine = .running ⟨.decode, decodeOps 5, .finished, true⟩ ∧
      busAddr 0x2008 ∉ (⟨.decode, decodeOps 5, .finished, true⟩ : Run).writes Config.defaultInstance) ∧
    (runningAt .tileconv tileOps (.plane2 15 1 6 7) false [.memWrite 0x3000 7]).inv = true ∧
    populatedAt Config.defaultInstance (0x3000#32).toNat = true ∧
    (0x3000#32).toNat ∈ (⟨.tileconv, tileOps, .plane2 15 1 6 7, false⟩ : Run).reads Config.defaultInstance ∧
    populatedAt Config.defaultInstance (0x407F#32).toNat = true ∧
    (0x407F#32).toNat ∈ (⟨.tileconv, tileOps, .plane2 15 1 6 7, false⟩ : Run).writes Config.defaultInstance ∧
    busAddr 0x3000 ∉ (⟨.tileconv, tileOps, .plane2 15 1 6 7, false⟩ : Run).writes Config.defaultInstance := by
  decide +kernel

/-- A running state, an idle one, and one in which reset is asserted. -/
theorem witness_StepKeepsInvariant :
    ((runningAt .decode (decodeOps 5) (.plane0 0 0) false []).inv = true ∧
      ∃ t, step (runningAt .decode (decodeOps 5) (.plane0 0 0) false []) = .next t) ∧
    ((decodeState 5).inv = true ∧ ∃ t, step (decodeState 5) = .next t) ∧
    ((heldAt .access vdecMem [.wait]).inv = true ∧ ∃ t, step (heldAt .access vdecMem [.wait]) = .next t) :=
  ⟨⟨by decide +kernel, _, step_nil rfl⟩, ⟨by decide +kernel, _, step_nil rfl⟩, ⟨by decide +kernel, _, (step_cons rfl).trans rfl⟩⟩

theorem witness_ResetMeetsInvariant : highInstance.wellFormed = true ∧ Memory.wf vdecMem = true := by decide

theorem witness_OperandsChangeOnlyByHost :
    (∀ q, (idleAt .command (decodeOps 5) [] q).inv = true) ∧
    (∃ t, step (idleAt .command (decodeOps 5) [] [wr Config.defaultInstance (.operand .src) 9]) = .next t ∧
      t.opnd ≠ decodeOps 5) ∧
    ∃ t, step (idleAt .command (decodeOps 5) [] [.resetInput true]) = .next t ∧ t.opnd ≠ decodeOps 5 :=
  ⟨fun _ => (by decide : (idleAt .command (decodeOps 5) [] []).inv = true), by simpa using stepShows_next (P := fun t => t.opnd != decodeOps 5) (by decide +kernel),
    by simpa using stepShows_next (P := fun t => t.opnd != decodeOps 5) (by decide +kernel)⟩

/-- All three bits set and cleared by one STATUS write. -/
theorem witness_ErrorBitsAreSticky :
    ¬ ({ idleAt .command (decodeOps 5) [] [wr Config.defaultInstance .status 0x70] with
        status := ⟨false, true, true, true⟩ } : State).nextIs (.resetInput true) ∧
    ({ idleAt .command (decodeOps 5) [] [wr Config.defaultInstance .status 0x70] with
        status := ⟨false, true, true, true⟩ } : State).inv = true ∧
    ∃ t, step { idleAt .command (decodeOps 5) [] [wr Config.defaultInstance .status 0x70] with
        status := ⟨false, true, true, true⟩ } = .next t ∧
      (t.status.eOp = false ∧ t.status.eParam = false ∧ t.status.eBusy = false) :=
  ⟨by unfold State.nextIs; decide, by decide, by
    simpa using stepShows_next (s := { idleAt .command (decodeOps 5) [] [wr Config.defaultInstance .status 0x70] with
      status := ⟨false, true, true, true⟩ }) (P := fun t => !t.status.eOp && (!t.status.eParam && !t.status.eBusy))
      (by decide +kernel)⟩

theorem witness_EngineStartsOnlyByCommand :
    (idleAt .access (decodeOps 5) [] [cmdWrite Config.defaultInstance 1]).busy = false ∧
    ∃ t, step (idleAt .access (decodeOps 5) [] [cmdWrite Config.defaultInstance 1]) = .next t ∧ t.busy = true :=
  ⟨by decide, stepShows_next (P := State.busy) (by decide +kernel)⟩

theorem witness_IdleBlockLeavesMemory :
    (idleAt .command (decodeOps 5) [] [.memWrite 0x10 7]).busy = false ∧
    ∃ t, step (idleAt .command (decodeOps 5) [] [.memWrite 0x10 7]) = .next t ∧ t.mem ≠ [] :=
  ⟨by decide, by simpa using stepShows_next (P := fun t => t.mem != []) (by decide +kernel)⟩

theorem witness_HostReadsBackItsByte :
    (idleAt .command (decodeOps 5) vdecMem [.memWrite 0xFFFFFFFF 7, .memRead 0xFFFFFFFF]).inv = true ∧
    (idleAt .command (decodeOps 5) vdecMem [.memWrite 0xFFFFFFFF 7, .memRead 0xFFFFFFFF]).busy = false ∧
    populatedAt Config.defaultInstance (0xFFFFFFFF#32).toNat = true := by decide

/-- The first address past 16 bytes of memory, read and written. -/
theorem witness_HostAccessOffMemoryFaults : populatedAt tinyInstance (16#32).toNat = false ∧
    ({ idleAt .command (decodeOps 5) [] [.memRead 16] with inst := tinyInstance } : State).host.queue = .memRead 16 :: [] ∧
    ({ idleAt .command (decodeOps 5) [] [.memWrite 16 1] with inst := tinyInstance } : State).host.queue =
      .memWrite 16 1 :: [] := by decide

theorem witness_WaitPollsStatus :
    ((idleAt .command (decodeOps 5) [] [.wait]).host.queue = .wait :: [] ∧
      (idleAt .command (decodeOps 5) [] [.wait]).busy = false) ∧
    ((runningAt .decode (decodeOps 5) .finished false [.wait]).host.queue = .wait :: [] ∧
      (runningAt .decode (decodeOps 5) .finished false [.wait]).busy = true) := by decide

theorem witness_DecodeSequenceIsTheCall :
    (idleAt .command OperandRegs.reset vdecMem (seqDecode Config.defaultInstance 0x1000 0x2000 8 8 1 0xFF)).busy = false ∧
    (idleAt .command OperandRegs.reset vdecMem (seqDecode Config.defaultInstance 0x1000 0x2000 8 8 1 0xFF)).resetAsserted = false ∧
    (⟨0x1000, 0x2000, 8, (8 : Word).setWidth 16, (1 : Word).setWidth 16, (0xFF : Word).setWidth 8, 0, 0⟩ : OperandRegs) =
      decodeOps 0xFF ∧
    operandsOk .decode (decodeOps 0xFF) = true ∧ footPopulated Config.defaultInstance .decode (decodeOps 0xFF) = true := by
  decide +kernel

theorem witness_TileSequencesAreTheCalls :
    ((idleAt .command OperandRegs.reset [] (seqTileconv Config.defaultInstance 0x3000 0x4000)).busy = false ∧
      (idleAt .command OperandRegs.reset [] (seqTileconv Config.defaultInstance 0x3000 0x4000)).resetAsserted = false ∧
      { OperandRegs.reset with src := 0x3000, dst := 0x4000 } = tileOps ∧
      footPopulated Config.defaultInstance .tileconv tileOps = true) ∧
    ((idleAt .command OperandRegs.reset [] (seqDrawTile Config.defaultInstance 0x4000 0x8000 32 0xFFFFFFF8 8)).busy = false ∧
      (idleAt .command OperandRegs.reset [] (seqDrawTile Config.defaultInstance 0x4000 0x8000 32 0xFFFFFFF8 8)).resetAsserted =
        false ∧
      { OperandRegs.reset with src := 0x4000, dst := 0x8000, pitch := 32, xoff := (0xFFFFFFF8 : Word).setWidth 16,
                               yoff := (8 : Word).setWidth 16 } = drawOps (-8) 8 ∧
      footPopulated Config.defaultInstance .drawtile (drawOps (-8) 8) = true) := by
  decide +kernel

end Sys2Proof.Tests
end

/-! The two levels of 00 R8 agree: an undisturbed run at level `access` ends where the atomic command ends. -/
section
namespace Sys2Proof.Machine

/-- An accepted command finds the engine idle (30 R72). -/
theorem State.engine_idle_of_accepts {i : Instr} {s : State} (h : s.accepts i = true) : s.engine = .idle := by
  simp only [State.accepts, Bool.and_eq_true, Bool.not_eq_true'] at h
  obtain ⟨⟨⟨_, hbusy⟩, _⟩, _⟩ := h
  exact State.busy_eq_false.1 hbusy

/-- A run is given at least the move of its completion. -/
theorem commandMoves_pos (p : Instance) (i : Instr) (o : OperandRegs) : 0 < commandMoves p i o := by
  cases i <;> exact Nat.succ_pos _

/-- The completion settles nothing in a run that no other agent has disturbed. -/
theorem State.settleBreach_of_not_breached {r : Run} (s : State) (h : r.breached = false) : s.settleBreach r = s := by
  simp [State.settleBreach, h]

/-- With an empty queue the moves of an accepted run leave the pseudocode's memory and the completion (00 R8, 30 R74). -/
theorem run_acceptedRun {i : Instr} {s : State} (hq : s.host.queue = [])
    (he : s.engine = .running (acceptedRun s.inst i s.opnd)) :
    Host.Core.run Sys2Proof.core (commandMoves s.inst i s.opnd) s =
      .next { s with mem := commandRun s.inst i s.opnd s.mem, engine := .idle,
                     status := { s.status with done := true } } := by
  have hmoves := moves_command s.inst i s.opnd s.mem
  have hrun := run_to_completion hq he (congrArg (fun x => x.1.pos) hmoves)
    fun _ hk => command_running s.inst i s.opnd s.mem hk
  rw [Nat.sub_add_cancel (commandMoves_pos s.inst i s.opnd), hmoves, State.settleBreach_of_not_breached _ rfl] at hrun
  simpa [State.complete, Status.update, doneBits, Status.none] using hrun

/-- An accepted command ends at level `access`, undisturbed, in the state of the atomic command, the level apart (00 R8). -/
theorem accessRun_eq_atomicRun {i : Instr} {s : State} (ha : s.accepts i = true) (hl : s.level = .access)
    (hq : s.host.queue = []) :
    ∃ t u, exec i s = .next t ∧ exec i { s with level := .command } = .next u ∧
      Host.Core.run Sys2Proof.core (commandMoves s.inst i s.opnd) t = .next { u with level := .access } := by
  refine ⟨_, _, exec_accepts_access ha hl, exec_accepts_command (s := { s with level := .command }) ha rfl, ?_⟩
  have hrun := run_acceptedRun (i := i) (s := { s with
    engine := .running (acceptedRun s.inst i s.opnd), status := { s.status with done := false } }) hq rfl
  exact hrun.trans (by rw [← State.engine_idle_of_accepts ha, ← hl])

end Sys2Proof.Machine

/-- Settles O38: DECODE is one of the commands whose access-level run is the atomic one. -/
theorem decodeAccessRunIsAtomicRun : Obligations.DecodeAccessRunIsAtomicRun :=
  fun _ => Sys2Proof.Machine.accessRun_eq_atomicRun

/-- Settles O39: TILECONV is one of the commands whose access-level run is the atomic one. -/
theorem tileconvAccessRunIsAtomicRun : Obligations.TileconvAccessRunIsAtomicRun :=
  fun _ => Sys2Proof.Machine.accessRun_eq_atomicRun

/-- Settles O40: DRAWTILE is one of the commands whose access-level run is the atomic one. -/
theorem drawtileAccessRunIsAtomicRun : Obligations.DrawtileAccessRunIsAtomicRun :=
  fun _ => Sys2Proof.Machine.accessRun_eq_atomicRun

end

/-! The invariant: the state after reset meets it and every step keeps it. -/
section
namespace Sys2Proof.Machine

/-! ## The invariant, clause by clause -/

theorem State.inv_iff {s : State} : s.inv = true ↔
    Memory.wf s.mem = true ∧ s.inst.wellFormed = true ∧ s.engine.ok s.inst s.opnd = true ∧
      (s.resetAsserted = true → s.blockReset = true) := by
  unfold State.inv State.resetOk
  cases s.resetAsserted <;> simp [and_assoc]

/-- With reset released the invariant says nothing of STATUS. -/
theorem State.inv_of_released {s : State} (hr : s.resetAsserted = false) (hmem : Memory.wf s.mem = true)
    (hinst : s.inst.wellFormed = true) (hengine : s.engine.ok s.inst s.opnd = true) : s.inv = true :=
  State.inv_iff.2 ⟨hmem, hinst, hengine, by simp [hr]⟩

/-- While reset is asserted the invariant holds the block in the state of 10 R30. -/
theorem State.blockReset_of_inv {s : State} (h : s.inv = true) (hr : s.resetAsserted = true) : s.blockReset = true :=
  (State.inv_iff.1 h).2.2.2 hr

@[simp] theorem State.inv_withQueue (s : State) (q : List HostEvent) : (s.withQueue q).inv = s.inv := rfl
@[simp] theorem State.inv_readToHost (s : State) (r : Reg) : (s.readToHost r).inv = s.inv := rfl

theorem State.inv_withStatus {s : State} (hr : s.resetAsserted = false) (h : s.inv = true) (f : Status) :
    State.inv { s with status := f } = true := by
  obtain ⟨hmem, hinst, hengine, _⟩ := State.inv_iff.1 h
  exact State.inv_of_released hr hmem hinst hengine

theorem State.idle_of_inReset {s : State} (h : s.inv = true) (hr : s.resetAsserted = true) : s.engine = .idle :=
  (State.blockReset_iff.1 (State.blockReset_of_inv h hr)).2.2

/-- While the engine runs reset is not asserted (70 R140). -/
theorem State.released_of_running {s : State} {r : Run} (h : s.inv = true) (he : s.engine = .running r) :
    s.resetAsserted = false := by
  by_contra hr
  have hidle := State.idle_of_inReset h (Bool.eq_true_of_not_eq_false hr)
  rw [he] at hidle
  cases hidle

theorem Run.ok_iff {p : Instance} {o : OperandRegs} {r : Run} : r.ok p o = true ↔
    r.regs = o ∧ operandsOk r.op r.regs = true ∧ footPopulated p r.op r.regs = true ∧ r.posOk p = true := by
  simp [Run.ok, and_assoc]

theorem State.accepts_iff {s : State} {i : Instr} : s.accepts i = true ↔
    s.resetAsserted = false ∧ s.busy = false ∧ operandsOk i s.opnd = true ∧ footPopulated s.inst i s.opnd = true := by
  simp [State.accepts, and_assoc]

/-! ## Memory keeps its canonical form -/

theorem portMem_wf {m : Memory} (h : Memory.wf m = true) (a : Option Access) : Memory.wf (portMem m a) = true := by
  unfold portMem
  split
  · exact memWrite_wf h _ _
  · exact h

theorem State.settleBreach_wf {s : State} (h : Memory.wf s.mem = true) (r : Run) :
    Memory.wf (s.settleBreach r).mem = true := by
  unfold State.settleBreach
  split
  · exact s.scramble_wf _ h
  · exact h

theorem State.resetBlock_wf {s : State} (h : Memory.wf s.mem = true) : Memory.wf s.resetBlock.mem = true := by
  unfold State.resetBlock
  cases s.engine with
  | idle => exact h
  | running r => exact s.scramble_wf _ h

/-! ## The run stays as the invariant asks -/

/-- An accepted command begins a run of its own latches, at the start of its loops (10 R24, R25; 20 R47). -/
theorem acceptedRun_ok {i : Instr} {s : State} (h : s.accepts i = true) :
    (acceptedRun s.inst i s.opnd).ok s.inst s.opnd = true := by
  obtain ⟨_, _, hopnd, hfoot⟩ := State.accepts_iff.1 h
  exact Run.ok_iff.2 ⟨rfl, hopnd, hfoot, posOk_start _ _ _⟩

theorem Run.advance_ok {p : Instance} {o : OperandRegs} {r : Run} (m : Memory) (h : r.ok p o = true) :
    (r.advance m).ok p o = true := by
  obtain ⟨hregs, hopnd, hfoot, hpos⟩ := Run.ok_iff.1 h
  exact Run.ok_iff.2 ⟨hregs, hopnd, hfoot, posOk_advance m hpos⟩

/-- The mark of a breach is no part of what the invariant says of a run. -/
theorem Engine.afterForeignWrite_ok {p : Instance} {o : OperandRegs} {e : Engine} (a : Nat) (h : e.ok p o = true) :
    (e.afterForeignWrite p a).ok p o = true := by
  cases e <;> exact h

/-! ## Each action keeps the invariant -/

theorem exec_keeps_inv {i : Instr} {s t : State} (hinv : s.inv = true) (h : exec i s = .next t) : t.inv = true := by
  obtain ⟨hmem, hinst, hengine, _⟩ := State.inv_iff.1 hinv
  rcases exec_next_cases h with ⟨_, rfl⟩ | ⟨hr, _, rfl⟩ | ⟨hr, _, _, rfl⟩ | ⟨ha, _, rfl⟩ | ⟨ha, _, rfl⟩
  · exact hinv
  · exact State.inv_withStatus hr hinv _
  · exact State.inv_withStatus hr hinv _
  · exact State.inv_of_released (State.accepts_iff.1 ha).1 (commandRun_wf _ _ _ hmem) hinst hengine
  · exact State.inv_of_released (State.accepts_iff.1 ha).1 hmem hinst (acceptedRun_ok ha)

theorem State.rejectReserved_keeps_inv {s : State} (hr : s.resetAsserted = false) (hinv : s.inv = true) :
    s.rejectReserved.inv = true := by
  unfold State.rejectReserved
  rw [if_neg (by simp [hr])]
  split <;> exact State.inv_withStatus hr hinv _

/-- An operand register changes only in an idle block, where no latch has to follow it. -/
theorem State.writeOperand_keeps_inv {s : State} (hr : s.resetAsserted = false) (hinv : s.inv = true) (n : OperandName)
    (v : Word) : (s.writeOperand n v).inv = true := by
  unfold State.writeOperand
  rw [if_neg (by simp [hr])]
  split <;> rename_i hb
  · exact State.inv_withStatus hr hinv _
  · obtain ⟨hmem, hinst, _, _⟩ := State.inv_iff.1 hinv
    have hidle : s.engine = .idle := State.busy_eq_false.1 (by simpa using hb)
    exact State.inv_of_released hr hmem hinst (by rw [hidle]; rfl)

theorem State.writeReg_keeps_inv {s t : State} {r : Reg} {v : Word} (hinv : s.inv = true)
    (h : s.writeReg r v = .next t) : t.inv = true := by
  cases hr : s.resetAsserted with
  | true =>
    rw [State.writeReg_inReset hr (State.blockReset_of_inv hinv hr)] at h
    exact Host.Outcome.next.inj h ▸ hinv
  | false =>
    cases r with
    | cmd =>
      rcases presentWord_next h with ⟨_, _, hexec⟩ | ⟨_, rfl⟩
      · exact exec_keeps_inv hinv hexec
      · exact State.rejectReserved_keeps_inv hr hinv
    | status => exact Host.Outcome.next.inj h ▸ State.inv_withStatus hr hinv _
    | operand n => exact Host.Outcome.next.inj h ▸ State.writeOperand_keeps_inv hr hinv n v
    | reserved => exact Host.Outcome.next.inj h ▸ hinv

theorem State.driveReset_keeps_inv {s : State} (hinv : s.inv = true) (b : Bool) : (s.driveReset b).inv = true := by
  obtain ⟨hmem, hinst, _, _⟩ := State.inv_iff.1 hinv
  rcases s.driveReset_cases b with ⟨_, e⟩ | ⟨_, _, e⟩
  · rw [e]
    exact State.inv_iff.2 ⟨State.resetBlock_wf hmem, by simpa using hinst, rfl, fun _ => s.blockReset_resetBlock⟩
  · rwa [e]

theorem State.engineTurn_keeps_inv {s : State} (hinv : s.inv = true) : s.engineTurn.inv = true := by
  cases he : s.engine with
  | idle => rwa [engineTurn_idle (State.busy_eq_false.2 he)]
  | running r =>
    have hr := State.released_of_running hinv he
    obtain ⟨hmem, hinst, hengine, _⟩ := State.inv_iff.1 hinv
    rw [he] at hengine
    by_cases hf : r.pos = .finished
    · simp only [State.engineTurn, he, hf, if_true]
      exact State.inv_of_released (by simpa using hr) (State.settleBreach_wf hmem r) (by simpa using hinst) rfl
    · simp only [State.engineTurn, he, hf, if_false]
      exact State.inv_of_released hr (portMem_wf hmem _) hinst (Run.advance_ok s.mem hengine)

theorem State.waitStep_keeps_inv {s : State} (hinv : s.inv = true) : s.waitStep.inv = true := by
  unfold State.waitStep
  split
  · exact State.engineTurn_keeps_inv hinv
  · exact hinv

theorem State.foreignWrite_keeps_inv {s t : State} {a : Word} {v : Byte} (hinv : s.inv = true)
    (h : s.foreignWrite a v = .next t) : t.inv = true := by
  obtain ⟨hmem, hinst, hengine, hreset⟩ := State.inv_iff.1 hinv
  obtain ⟨_, rfl⟩ := foreignWrite_next h
  refine State.inv_iff.2 ⟨memWrite_wf hmem _ _, hinst, Engine.afterForeignWrite_ok _ hengine, fun hr => ?_⟩
  obtain ⟨hopnd, hstatus, hidle⟩ := State.blockReset_iff.1 (hreset hr)
  exact State.blockReset_iff.2 ⟨hopnd, hstatus, by simp [hidle, Engine.afterForeignWrite]⟩

theorem State.foreignRead_keeps_inv {s t : State} {a : Word} (hinv : s.inv = true) (h : s.foreignRead a = .next t) :
    t.inv = true := by
  obtain ⟨_, _, rfl⟩ := foreignRead_next h
  exact hinv

end Sys2Proof.Machine

open Sys2Proof Sys2Proof.Machine

/-- Settles O47: whatever the step was, a move of the engine or a host action, it keeps the invariant. -/
theorem stepKeepsInvariant : Obligations.StepKeepsInvariant := by
  intro s t hinv h
  rcases step_next_cases h with ⟨_, rfl⟩ | ⟨e, q, _, hact⟩
  · exact State.engineTurn_keeps_inv hinv
  · rw [← s.inv_withQueue q] at hinv
    rcases hact with ⟨_, _, _, h⟩ | ⟨_, _, _, rfl⟩ | ⟨b, _, rfl⟩ | ⟨_, _, _, h⟩ | ⟨_, _, h⟩ | ⟨_, rfl⟩ | ⟨_, rfl⟩
    · exact State.writeReg_keeps_inv hinv h
    · exact hinv
    · exact State.driveReset_keeps_inv hinv b
    · exact State.foreignWrite_keeps_inv hinv h
    · exact State.foreignRead_keeps_inv hinv h
    · exact State.engineTurn_keeps_inv hinv
    · exact State.waitStep_keeps_inv hinv

/-- Settles O48: an idle, released block meets the invariant as soon as its memory and its parameters do. -/
theorem resetMeetsInvariant : Obligations.ResetMeetsInvariant := by
  have hreset (p : Instance) (m : Memory) (hinst : p.wellFormed = true) (hmem : Memory.wf m = true) :
      (State.resetOf p m).inv = true :=
    State.inv_of_released rfl hmem hinst rfl
  exact ⟨hreset _ _ (by decide) Memory.wf_nil, hreset⟩

end

/-! The register port: the fields of the operand registers, the bits of STATUS, the reserved offsets, the accesses that stop. -/
section
namespace Sys2Proof.Machine

/-! ## The fields of the operand registers (10 R12 to R19) -/

/-- The low `k` of 32 bits, zero-extended, are the word under the mask of those bits. -/
theorem setWidth_setWidth_eq_and {k : Nat} (hk : k ≤ 32) (v : Word) :
    (v.setWidth k).setWidth 32 = v &&& BitVec.ofNat 32 (2 ^ k - 1) := by
  have hlt : 2 ^ k - 1 < 2 ^ 32 := by
    have := Nat.pow_le_pow_right (n := 2) (by decide) hk
    omega
  apply BitVec.eq_of_toNat_eq
  simp only [BitVec.toNat_setWidth, BitVec.toNat_and, BitVec.toNat_ofNat, Nat.mod_eq_of_lt hlt, Nat.and_two_pow_sub_one_eq_mod]
  have := Nat.mod_le v.toNat (2 ^ k)
  exact Nat.mod_eq_of_lt (by omega)

/-- Sign extension of the low 16 bits copies bit 15 upward. -/
theorem signExtend_setWidth_16 (v : Word) : (v.setWidth 16).signExtend 32 =
    if v.getLsbD 15 then v ||| 0xFFFF0000#32 else v &&& 0x0000FFFF#32 := by
  have hmsb : (v.setWidth 16).msb = v.getLsbD 15 := by simp [BitVec.msb_eq_getLsbD_last]
  split <;> rename_i h15
  · rw [BitVec.signExtend_eq_not_setWidth_not_of_msb_true (hmsb.trans h15), ← BitVec.setWidth_not (w := 32) (by decide),
      setWidth_setWidth_eq_and (k := 16) (by decide), BitVec.not_and, BitVec.not_not]
    rfl
  · rw [BitVec.signExtend_eq_setWidth_of_msb_false (hmsb.trans (by simpa using h15))]
    exact setWidth_setWidth_eq_and (k := 16) (by decide) v

/-- A written operand register reads as 10 R12 to R19 say. -/
theorem OperandRegs.read_write_same (o : OperandRegs) (n : OperandName) (v : Word) : (o.write n v).read n = fieldRead n v := by
  cases n with
  | src | dst | pitch => rfl
  | width | height => exact setWidth_setWidth_eq_and (k := 16) (by decide) v
  | key => exact setWidth_setWidth_eq_and (k := 8) (by decide) v
  | xoff | yoff => exact signExtend_setWidth_16 v

theorem OperandRegs.read_write_other (o : OperandRegs) {n m : OperandName} (h : m ≠ n) (v : Word) :
    (o.write n v).read m = o.read m := by
  cases n <;> cases m <;> try rfl
  all_goals exact absurd rfl h

/-! ## The bits of STATUS (10 R21) -/

theorem getLsbD_flagAt (b : Bool) {k : Nat} (hk : k < 32) (j : Nat) : (flagAt b k).getLsbD j = (b && decide (j = k)) := by
  cases b with
  | false => simp [flagAt]
  | true =>
    rw [show flagAt true k = BitVec.twoPow 32 k from rfl, BitVec.getLsbD_twoPow]
    simp [hk, eq_comm]

/-! ## Reserved offsets and undefined accesses -/

/-- From 0x28 on the map of 10 R11 names no register (10 R23). -/
theorem regAt_reserved {off : Nat} (h : 0x28 ≤ off) : regAt off = .reserved := by
  unfold regAt
  repeat rw [if_neg (by omega)]

/-- Every aligned offset below 64 is a defined register access (10 R11). -/
theorem regAccessOk_of_aligned (p : Instance) {off : Nat} (h4 : off % 4 = 0) (h64 : off < 64) :
    p.regAccessOk (p.regBase + off) .word = true := by
  simp [Instance.regAccessOk, Instance.inBlock, Instance.wholeWord, h4, h64]

/-- A write at an aligned offset of the block writes the register there. -/
theorem step_regWrite {s : State} {off : Nat} {v : Word} {q : List HostEvent} (h4 : off % 4 = 0) (h64 : off < 64)
    (hq : s.host.queue = .regWrite (s.inst.regBase + off) .word v :: q) :
    step s = (s.withQueue q).writeReg (regAt off) v := by
  have hact := (s.withQueue q).atReg_ok (fun r => (s.withQueue q).writeReg r v) (regAccessOk_of_aligned s.inst h4 h64)
  rw [State.withQueue_inst, Nat.add_sub_cancel_left] at hact
  exact (step_cons hq).trans hact

/-- A read at an aligned offset of the block reads the register there. -/
theorem step_regRead {s : State} {off : Nat} {q : List HostEvent} (h4 : off % 4 = 0) (h64 : off < 64)
    (hq : s.host.queue = .regRead (s.inst.regBase + off) .word :: q) :
    step s = .next ((s.withQueue q).readToHost (regAt off)) := by
  have hact := (s.withQueue q).atReg_ok (fun r => .next ((s.withQueue q).readToHost r))
    (regAccessOk_of_aligned s.inst h4 h64)
  rw [State.withQueue_inst, Nat.add_sub_cancel_left] at hact
  exact (step_cons hq).trans hact

/-- An access outside the 64 bytes of the block stops, and so does one of the block that is not one aligned word (10 R11, 93 U9). -/
theorem State.atReg_stops (s : State) (addr : Nat) (size : AccessSize) (k : Reg → Result) :
    ((addr < s.inst.regBase ∨ s.inst.regBase + 64 ≤ addr) → s.atReg addr size k = .refused .notInRegisterBlock) ∧
    ((s.inst.regBase ≤ addr ∧ addr < s.inst.regBase + 64 ∧ (size ≠ .word ∨ (addr - s.inst.regBase) % 4 ≠ 0)) →
      s.atReg addr size k = .refused .registerAccessUndefined) := by
  refine ⟨fun hout => ?_, fun ⟨hlo, hhi, hpart⟩ => ?_⟩
  · have hblock : s.inst.inBlock addr = false := by
      simp only [Instance.inBlock, Bool.and_eq_false_iff, decide_eq_false_iff_not]; omega
    simp [State.atReg, hblock]
  · have hblock : s.inst.inBlock addr = true := by simp [Instance.inBlock, hlo, hhi]
    have hword : s.inst.wholeWord addr size = false := by
      simpa only [Instance.wholeWord, Bool.and_eq_false_iff, beq_eq_false_iff_ne] using hpart
    simp [State.atReg, hblock, hword]

end Sys2Proof.Machine

open Sys2Proof.Machine

/-- Settles O6: the idle block writes the field of that register alone. -/
theorem operandWriteReadsBack : Obligations.OperandWriteReadsBack := by
  intro s n v q hq hr hb
  have hwrite : (s.withQueue q).writeOperand n v = { s.withQueue q with opnd := s.opnd.write n v } := by
    simp [State.writeOperand, hr, hb]
  have hstep : step s = .next ((s.withQueue q).writeOperand n v) := step_wr hq
  rw [hwrite] at hstep
  exact ⟨_, hstep, OperandRegs.read_write_same _ n v, fun m hm => OperandRegs.read_write_other _ hm v,
    rfl, rfl, rfl, rfl, rfl, rfl, rfl, rfl⟩

/-- Settles O8: the word is the union of five words of one bit each. -/
theorem statusWordBits : Obligations.StatusWordBits := by
  intro s k
  simp (disch := decide) only [State.statusWord, statusWord, busyBit, doneBit, eOpBit, eParamBit, eBusyBit,
    BitVec.getLsbD_or, getLsbD_flagAt]
  split_ifs <;> simp_all

/-- Settles O9: the mask of a STATUS write clears, and sets nothing. -/
theorem statusWriteOneToClear : Obligations.StatusWriteOneToClear := by
  intro s v q hq
  exact ⟨(s.withQueue q).writeStatus v, step_wr hq, rfl, rfl, rfl, rfl, rfl, rfl, rfl, rfl, rfl, rfl, rfl, rfl⟩

/-- Settles O10: the step is `readToHost`, which gives the host the register's value. -/
theorem registerReadHasNoEffect : Obligations.RegisterReadHasNoEffect := by
  intro s r q hq
  refine ⟨(s.withQueue q).readToHost r, step_rd hq, rfl, ?_, ?_, ?_⟩
  · rintro rfl; rfl
  · rintro rfl; rfl
  · rintro n rfl; rfl

/-- Settles O11: what stands at these offsets is the reserved register. -/
theorem reservedOffsetsInert : Obligations.ReservedOffsetsInert := by
  intro s off q hlo hhi h4
  refine ⟨fun v hq => ?_, fun hq => ?_⟩
  · rw [step_regWrite h4 (by omega) hq, regAt_reserved hlo]; rfl
  · rw [step_regRead h4 (by omega) hq, regAt_reserved hlo]; rfl

/-- Settles O12: read or write, the access is one `atReg` of its address and size. -/
theorem undefinedRegisterAccessStops : Obligations.UndefinedRegisterAccessStops := by
  intro s addr size e q hq he
  rw [step_cons hq]
  rcases he with rfl | ⟨v, rfl⟩
  · exact (s.withQueue q).atReg_stops addr size fun r => .next ((s.withQueue q).readToHost r)
  · exact (s.withQueue q).atReg_stops addr size fun r => (s.withQueue q).writeReg r v

end

/-! The reset input (70 R140): asserting it, what a step does while it is asserted, releasing it. -/
section
namespace Sys2Proof.Machine

theorem State.blockReset_resetOf (p : Instance) (m : Memory) : (State.resetOf p m).blockReset = true := rfl

/-- The reset input driven to asserted, or from it, with the engine idle. -/
theorem State.driveReset_idle {s : State} {b : Bool} (hidle : s.engine = .idle) (hb : b = true ∨ s.resetAsserted = true) :
    s.driveReset b =
      { s with opnd := OperandRegs.reset, status := Status.reset, engine := .idle, resetAsserted := b } := by
  rcases s.driveReset_cases b with ⟨_, e⟩ | ⟨hfalse, hr, _⟩
  · rw [e, State.resetBlock_idle hidle]
  · simp [hfalse, hr] at hb

/-- Driving the reset input of an idle block brings the state of 10 R30 and leaves memory, the parameters and the host. -/
theorem step_resetInput_idle {s : State} {b : Bool} {q : List HostEvent} (hq : s.host.queue = .resetInput b :: q)
    (hidle : s.engine = .idle) (hb : b = true ∨ s.resetAsserted = true) :
    ∃ t, step s = .next t ∧ t.resetAsserted = b ∧ (∀ r, t.readReg r = 0) ∧ t.engine = .idle ∧ t.mem = s.mem ∧
      t.inst = s.inst ∧ t.host = { s.host with queue := q } := by
  have hstep : step s = .next ((s.withQueue q).driveReset b) := step_cons hq
  rw [State.driveReset_idle (s := s.withQueue q) hidle hb] at hstep
  exact ⟨_, hstep, rfl, State.readReg_blockReset rfl, rfl, rfl, rfl, rfl⟩

/-- Everything a step can do while reset stays asserted: another agent's write to memory, or nothing but the host's side and the
counter of free bytes. -/
theorem step_inReset_cases {s t : State} (hinv : s.inv = true) (hr : s.resetAsserted = true) (h : step s = .next t)
    (hn : ¬ s.nextIs (.resetInput false)) :
    (∃ a v, s.nextIs (.memWrite a v) ∧ t = { s with mem := memWrite s.mem a.toNat v, host := t.host }) ∨
    t = { s with host := t.host, draws := t.draws } := by
  have hblock := State.blockReset_of_inv hinv hr
  obtain ⟨hopnd, hstatus, hidle⟩ := State.blockReset_iff.1 hblock
  have hbusy : s.busy = false := State.busy_eq_false.2 hidle
  rcases step_next_cases h with ⟨_, rfl⟩ | ⟨e, q, hq, hact⟩
  · right; rw [engineTurn_idle hbusy]
  · have hnext : s.nextIs e := by simp [State.nextIs, hq]
    rcases hact with ⟨r, v, _, h⟩ | ⟨_, _, _, rfl⟩ | ⟨b, rfl, rfl⟩ | ⟨a, v, rfl, h⟩ | ⟨_, _, h⟩ | ⟨_, rfl⟩ | ⟨_, rfl⟩
    · right
      rw [State.writeReg_inReset (s := s.withQueue q) hr hblock] at h
      rw [← Host.Outcome.next.inj h]; rfl
    · right; rfl
    · right
      cases b with
      | false => exact absurd hnext hn
      | true =>
        rw [State.driveReset_idle (s := s.withQueue q) hidle (.inl rfl), ← hopnd, ← hstatus, ← hidle, ← hr]; rfl
    · left
      obtain ⟨_, rfl⟩ := foreignWrite_next h
      refine ⟨a, v, hnext, ?_⟩
      simp [hidle, Engine.afterForeignWrite, State.withQueue]
    · right
      obtain ⟨_, _, rfl⟩ := foreignRead_next h
      rfl
    · right; rw [engineTurn_idle (s := s.withQueue q) hbusy]; rfl
    · right; rw [waitStep_idle (s := s.withQueue q) hbusy]; rfl

end Sys2Proof.Machine

open Sys2Proof.Machine

/-- Settles O4: asserting and releasing are one fact about an idle block; between them a step does what `step_inReset_cases` says. -/
theorem resetLeaves : Obligations.ResetLeaves := by
  refine ⟨fun p m => ⟨State.readReg_blockReset (State.blockReset_resetOf p m), rfl, rfl, rfl⟩,
    fun s q hq hb => step_resetInput_idle hq (State.busy_eq_false.1 hb) (.inl rfl),
    fun s t hinv hr h hn => ?held, fun s off v q hinv hr h4 h64 hq => ?write, fun s q hinv hr hq => ?release⟩
  case held =>
    have hread := State.readReg_blockReset (State.blockReset_of_inv hinv hr)
    have hidle := State.idle_of_inReset hinv hr
    rcases step_inReset_cases hinv hr h hn with ⟨a, v, hnext, e⟩ | e
    · rw [e]; exact ⟨hr, hread, hidle, rfl, fun _ => ⟨a, v, hnext⟩⟩
    · rw [e]; exact ⟨hr, hread, hidle, rfl, fun hne => absurd rfl hne⟩
  case write => rw [step_regWrite h4 h64 hq, State.writeReg_inReset (s := s.withQueue q) hr (State.blockReset_of_inv hinv hr)]
  case release => exact step_resetInput_idle hq (State.idle_of_inReset hinv hr) (.inr hr)

end

/-! What a presented command depends on (30 R72): no flag but BUSY, and no operand register that it ignores. -/
section
namespace Sys2Proof.Machine

theorem exec_busy (i : Instr) {s : State} (hr : s.resetAsserted = false) (hb : s.busy = true) :
    exec i s = .next (s.raise .eBusy) := by
  rw [exec_eq]; simp [State.present, hr, hb]

theorem exec_badOperands {i : Instr} {s : State} (hr : s.resetAsserted = false) (hb : s.busy = false)
    (ho : operandsOk i s.opnd = false) : exec i s = .next (s.clearDone.raise .eParam) := by
  rw [exec_eq]; simp [State.present, hr, hb, ho]

/-- At level `command` a command does the same with any operands `o` on which its check, its footprint and its run agree with the
registers it was given. -/
theorem exec_withOpnd {i : Instr} {s t : State} {o : OperandRegs} (hl : s.level = .command)
    (hcheck : operandsOk i o = operandsOk i s.opnd) (hfoot : footPopulated s.inst i o = footPopulated s.inst i s.opnd)
    (hrun : commandRun s.inst i o = commandRun s.inst i s.opnd) (h : exec i s = .next t) :
    exec i { s with opnd := o } = .next { t with opnd := o } := by
  rcases exec_next_cases h with ⟨hr, rfl⟩ | ⟨hr, hb, rfl⟩ | ⟨hr, hb, hbad, rfl⟩ | ⟨ha, _, rfl⟩ | ⟨_, hl', _⟩
  · exact exec_inReset i hr
  · exact exec_busy i hr hb
  · exact exec_badOperands hr hb (hcheck.trans hbad)
  · obtain ⟨hr, hb, hok, hpop⟩ := State.accepts_iff.1 ha
    have ha' : State.accepts { s with opnd := o } i = true :=
      State.accepts_iff.2 ⟨hr, hb, hcheck.trans hok, hfoot.trans hpop⟩
    rw [exec_accepts_command ha' hl]
    simp only [hrun]
  · rw [hl] at hl'; cases hl'

end Sys2Proof.Machine

open Sys2Proof.Machine

/-- Settles O14: the model's acceptance at level `access`, its run the one that `acceptedRun` names. -/
theorem acceptanceLatchesOperands : Obligations.AcceptanceLatchesOperands :=
  fun _ _ ha hl => exec_accepts_access ha hl

/-- Settles O17: which answer a command gives depends on reset, BUSY, the operands and the populated set alone. -/
theorem flagsDoNotChangeResults : Obligations.FlagsDoNotChangeResults := by
  intro i s t f h
  rcases exec_next_cases h with ⟨hr, rfl⟩ | ⟨hr, hb, rfl⟩ | ⟨hr, hb, hbad, rfl⟩ | ⟨ha, hl, rfl⟩ | ⟨ha, hl, rfl⟩
  · exact ⟨_, exec_inReset i hr, rfl, rfl, rfl⟩
  · exact ⟨_, exec_busy i hr hb, rfl, rfl, rfl⟩
  · exact ⟨_, exec_badOperands hr hb hbad, rfl, rfl, rfl⟩
  · exact ⟨_, exec_accepts_command (s := { s with status := f }) ha hl, rfl, rfl, rfl⟩
  · exact ⟨_, exec_accepts_access (s := { s with status := f }) ha hl, rfl, rfl, rfl⟩

/-- Settles O36: the check, the footprint and the run of each command name none of the registers it ignores. -/
theorem ignoredOperandsHaveNoEffect : Obligations.IgnoredOperandsHaveNoEffect :=
  fun _ _ hl => ⟨fun _ _ => exec_withOpnd hl rfl rfl rfl, fun _ _ _ _ _ _ => exec_withOpnd hl rfl rfl rfl,
    fun _ _ _ => exec_withOpnd hl rfl rfl rfl⟩

end

/-! What changes an operand register or clears an error bit (60 R133, R127): a host write to it, or reset. -/
section
namespace Sys2Proof.Machine

/-- A register write changes the operand registers only as a write to one of them, in an idle block with reset released. -/
theorem writeReg_opnd {s t : State} {r : Reg} {v : Word} (h : s.writeReg r v = .next t) :
    t.opnd = s.opnd ∨ (s.resetAsserted = false ∧ s.busy = false ∧ ∃ n, r = .operand n) := by
  cases r with
  | cmd =>
    left
    rcases presentWord_next h with ⟨_, _, hexec⟩ | ⟨_, rfl⟩
    · exact exec_opnd hexec
    · exact s.rejectReserved_opnd
  | status => left; exact Host.Outcome.next.inj h ▸ rfl
  | reserved => left; exact Host.Outcome.next.inj h ▸ rfl
  | operand n =>
    obtain rfl := Host.Outcome.next.inj h
    unfold State.writeOperand
    split_ifs with hr hb
    · left; rfl
    · left; rfl
    · right; exact ⟨by simpa using hr, by simpa using hb, n, rfl⟩

/-- The release of reset finds the registers and STATUS as it leaves them (70 R140). -/
theorem State.driveReset_false {s : State} (hinv : s.inv = true) :
    s.driveReset false = { s with resetAsserted := false } := by
  rcases s.driveReset_cases false with ⟨hb, _⟩ | ⟨_, hr, e⟩
  · have hr : s.resetAsserted = true := by simpa using hb
    obtain ⟨hopnd, hstatus, hidle⟩ := State.blockReset_iff.1 (State.blockReset_of_inv hinv hr)
    rw [State.driveReset_idle hidle (.inr hr), ← hopnd, ← hstatus, ← hidle]
  · rw [e, ← hr]

/-- Every error bit of `f` is one of `g`. -/
def Status.ErrorsWithin (f g : Status) : Prop :=
  (f.eOp = true → g.eOp = true) ∧ (f.eParam = true → g.eParam = true) ∧ (f.eBusy = true → g.eBusy = true)

theorem Status.ErrorsWithin.refl (f : Status) : f.ErrorsWithin f := ⟨id, id, id⟩

/-- Setting bits loses no error. -/
theorem Status.errorsWithin_set (f set : Status) : f.ErrorsWithin (f.update set Status.none) := by
  simp +contextual [Status.ErrorsWithin, Status.none]

theorem Status.errorsWithin_setAfterClearDone (f set : Status) :
    f.ErrorsWithin ((f.update Status.none doneBits).update set Status.none) := by
  simp +contextual [Status.ErrorsWithin, Status.none, doneBits]

theorem rejectReserved_errors (s : State) : s.status.ErrorsWithin s.rejectReserved.status := by
  unfold State.rejectReserved
  split_ifs
  · exact Status.ErrorsWithin.refl _
  · exact Status.errorsWithin_set _ _
  · exact Status.errorsWithin_setAfterClearDone _ _

/-- A register write clears an error only as a write to STATUS. -/
theorem writeReg_errors {s t : State} {r : Reg} {v : Word} (h : s.writeReg r v = .next t) :
    s.status.ErrorsWithin t.status ∨ (r = .status ∧ t.status = s.status.update Status.none (statusClearMask v)) := by
  cases r with
  | cmd =>
    left
    rcases presentWord_next h with ⟨_, _, hexec⟩ | ⟨_, rfl⟩
    · exact exec_status_mono hexec
    · exact rejectReserved_errors s
  | status => right; exact ⟨rfl, Host.Outcome.next.inj h ▸ rfl⟩
  | reserved => left; exact Host.Outcome.next.inj h ▸ Status.ErrorsWithin.refl _
  | operand n =>
    left
    obtain rfl := Host.Outcome.next.inj h
    unfold State.writeOperand
    split_ifs
    · exact Status.ErrorsWithin.refl _
    · exact Status.errorsWithin_set _ _
    · exact Status.ErrorsWithin.refl _

theorem engineTurn_errors (s : State) : s.status.ErrorsWithin s.engineTurn.status := by
  obtain ⟨hop, hparam, hbusy⟩ := engineTurn_status s
  exact ⟨hop ▸ id, hparam ▸ id, hbusy ▸ id⟩

theorem waitStep_errors (s : State) : s.status.ErrorsWithin s.waitStep.status := by
  obtain ⟨hop, hparam, hbusy⟩ := waitStep_status s
  exact ⟨hop ▸ id, hparam ▸ id, hbusy ▸ id⟩

/-- A step that does not assert reset clears an error only as a host write to STATUS. -/
theorem step_errors {s t : State} (hinv : s.inv = true) (h : step s = .next t) (hn : ¬ s.nextIs (.resetInput true)) :
    s.status.ErrorsWithin t.status ∨ ∃ e v, s.nextIs e ∧ eventWrites s.inst e .status v ∧
      t.status = s.status.update Status.none (statusClearMask v) := by
  rcases step_next_cases h with ⟨_, rfl⟩ | ⟨e, q, hq, hact⟩
  · left; exact engineTurn_errors s
  · have hnext : s.nextIs e := by simp [State.nextIs, hq]
    rcases hact with ⟨r, v, hw, h⟩ | ⟨_, _, _, rfl⟩ | ⟨b, rfl, rfl⟩ | ⟨_, _, _, h⟩ | ⟨_, _, h⟩ | ⟨_, rfl⟩ | ⟨_, rfl⟩
    · rcases writeReg_errors h with hkeep | ⟨rfl, hclear⟩
      · left; exact hkeep
      · right; exact ⟨e, v, hnext, hw, hclear⟩
    · left; exact Status.ErrorsWithin.refl _
    · left
      cases b with
      | true => exact absurd hnext hn
      | false => rw [State.driveReset_false (s := s.withQueue q) hinv]; exact Status.ErrorsWithin.refl _
    · left; obtain ⟨_, rfl⟩ := foreignWrite_next h; exact Status.ErrorsWithin.refl _
    · left; obtain ⟨_, _, rfl⟩ := foreignRead_next h; exact Status.ErrorsWithin.refl _
    · left; exact engineTurn_errors (s.withQueue q)
    · left; exact waitStep_errors (s.withQueue q)

end Sys2Proof.Machine

open Sys2Proof.Machine

/-- Settles O49: of the host's actions only a register write and the assertion of reset touch an operand register. -/
theorem operandsChangeOnlyByHost : Obligations.OperandsChangeOnlyByHost := by
  intro s t hinv h hne
  rcases step_next_cases h with ⟨_, rfl⟩ | ⟨e, q, hq, hact⟩
  · exact absurd s.engineTurn_opnd hne
  · have hnext : s.nextIs e := by simp [State.nextIs, hq]
    rcases hact with ⟨r, v, hw, h⟩ | ⟨_, _, _, rfl⟩ | ⟨b, rfl, rfl⟩ | ⟨_, _, _, h⟩ | ⟨_, _, h⟩ | ⟨_, rfl⟩ | ⟨_, rfl⟩
    · rcases writeReg_opnd h with hkeep | ⟨hr, hb, n, rfl⟩
      · exact absurd hkeep hne
      · right; exact ⟨hr, hb, e, n, v, hnext, hw⟩
    · exact absurd rfl hne
    · cases b with
      | true => left; exact hnext
      | false => exact absurd (by rw [State.driveReset_false (s := s.withQueue q) hinv]; rfl) hne
    · obtain ⟨_, rfl⟩ := foreignWrite_next h; exact absurd rfl hne
    · obtain ⟨_, _, rfl⟩ := foreignRead_next h; exact absurd rfl hne
    · exact absurd (State.engineTurn_opnd (s.withQueue q)) hne
    · exact absurd (waitStep_opnd (s.withQueue q)) hne

/-- Settles O50: an error that is gone was under the mask of a STATUS write. -/
theorem errorBitsAreSticky : Obligations.ErrorBitsAreSticky := by
  intro s t hinv h hn
  rcases step_errors hinv h hn with ⟨hop, hparam, hbusy⟩ | ⟨e, v, hnext, hw, hclear⟩
  · refine ⟨fun h1 h0 => ?_, fun h1 h0 => ?_, fun h1 h0 => ?_⟩
    · rw [hop h1] at h0; cases h0
    · rw [hparam h1] at h0; cases h0
    · rw [hbusy h1] at h0; cases h0
  · rw [hclear]
    refine ⟨fun h1 h0 => ⟨e, v, hnext, hw, ?_⟩, fun h1 h0 => ⟨e, v, hnext, hw, ?_⟩, fun h1 h0 => ⟨e, v, hnext, hw, ?_⟩⟩
    · simpa [h1, Status.none, statusClearMask, eOpBit] using h0
    · simpa [h1, Status.none, statusClearMask, eParamBit] using h0
    · simpa [h1, Status.none, statusClearMask, eBusyBit] using h0

end

/-! What a command answers when it does not complete (60 R121, 20 R47), and what the host's access to a byte does (10 R29). -/
section
namespace Sys2Proof.Machine

/-! ## The stop of a command -/

/-- A command that passes the checks is refused if its footprint is not populated. -/
theorem exec_offMemory {i : Instr} {s : State} (hr : s.resetAsserted = false) (hb : s.busy = false)
    (ho : operandsOk i s.opnd = true) (hp : footPopulated s.inst i s.opnd = false) :
    exec i s = .refused .footprintNotPopulated := by
  rw [exec_eq]
  simp only [State.present, hr, hb, ho, Bool.not_true, Bool.false_eq_true, if_false]
  rcases s.clearDone.launch_cases i _ _ _ _ with ⟨_, e⟩ | ⟨hpop, _⟩ | ⟨hpop, _⟩
  · exact e
  · exact absurd (hp.symm.trans hpop) Bool.false_ne_true
  · exact absurd (hp.symm.trans hpop) Bool.false_ne_true

/-- Every other command answers a next state. -/
theorem exec_next_or_offMemory (i : Instr) (s : State) : (∃ t, exec i s = .next t) ∨
    (s.resetAsserted = false ∧ s.busy = false ∧ operandsOk i s.opnd = true ∧
      footPopulated s.inst i s.opnd = false) := by
  cases hr : s.resetAsserted with
  | true => left; exact ⟨_, exec_inReset i hr⟩
  | false =>
  cases hb : s.busy with
  | true => left; exact ⟨_, exec_busy i hr hb⟩
  | false =>
  cases ho : operandsOk i s.opnd with
  | false => left; exact ⟨_, exec_badOperands hr hb ho⟩
  | true =>
  cases hp : footPopulated s.inst i s.opnd with
  | false => right; exact ⟨rfl, rfl, rfl, rfl⟩
  | true =>
    left
    have ha : s.accepts i = true := State.accepts_iff.2 ⟨hr, hb, ho, hp⟩
    cases hl : s.level with
    | command => exact ⟨_, exec_accepts_command ha hl⟩
    | access => exact ⟨_, exec_accepts_access ha hl⟩

/-! ## The host's access to a byte of pixel memory -/

theorem State.foreignWrite_unpopulated {s : State} {a : Word} (h : populatedAt s.inst a.toNat = false) (v : Byte) :
    s.foreignWrite a v = .fault .hostAccessUnpopulated := by
  simp [State.foreignWrite, h]

theorem State.foreignRead_unpopulated {s : State} {a : Word} (h : populatedAt s.inst a.toNat = false) :
    s.foreignRead a = .fault .hostAccessUnpopulated := by
  simp [State.foreignRead, h]

/-- With the engine idle the host's write changes its byte and marks no breach. -/
theorem State.foreignWrite_idle {s : State} {a : Word} (hb : s.busy = false) (hp : populatedAt s.inst a.toNat = true)
    (v : Byte) : s.foreignWrite a v = .next { s with mem := memWrite s.mem a.toNat v } := by
  have hidle := State.busy_eq_false.1 hb
  simp only [State.foreignWrite, hp, if_true, hidle, Engine.afterForeignWrite]

/-- With the engine idle the host's read returns the byte that is there. -/
theorem State.foreignRead_idle {s : State} {a : Word} (hb : s.busy = false) (hp : populatedAt s.inst a.toNat = true) :
    s.foreignRead a = .next { s with host := { s.host with memData := memRead s.mem a.toNat } } := by
  simp [State.foreignRead, hp, State.busy_eq_false.1 hb, Engine.mayWrite]

theorem step_memWrite_idle {s : State} {a : Word} {v : Byte} {q : List HostEvent}
    (hq : s.host.queue = .memWrite a v :: q) (hb : s.busy = false) (hp : populatedAt s.inst a.toNat = true) :
    step s = .next { s.withQueue q with mem := memWrite s.mem a.toNat v } := by
  rw [step_cons hq]
  exact State.foreignWrite_idle (s := s.withQueue q) hb hp v

theorem step_memRead_idle {s : State} {a : Word} {q : List HostEvent} (hq : s.host.queue = .memRead a :: q)
    (hb : s.busy = false) (hp : populatedAt s.inst a.toNat = true) :
    step s = .next { s with host := { s.host with queue := q, memData := memRead s.mem a.toNat } } := by
  rw [step_cons hq]
  exact State.foreignRead_idle (s := s.withQueue q) hb hp

end Sys2Proof.Machine

open Sys2Proof Sys2Proof.Machine

/-- Settles O16: a command that the reset input, BUSY and the operand check let through stops exactly off populated memory. -/
theorem commandStopsOnlyOffPopulatedMemory : Obligations.CommandStopsOnlyOffPopulatedMemory := by
  intro i s
  rcases exec_next_or_offMemory i s with ⟨t, e⟩ | ⟨hr, hb, ho, hp⟩
  · refine ⟨fun f => by simp [e], fun r => ⟨fun h => by simp [e] at h, ?_⟩⟩
    rintro ⟨_, hr, hb, ho, hp⟩
    simp [exec_offMemory hr hb ho hp] at e
  · have e := exec_offMemory hr hb ho hp
    exact ⟨fun f => by simp [e], fun r => by simp [e, hr, hb, ho, hp, eq_comm]⟩

/-- Settles O53: memory is canonical, so the read that follows the write finds the byte. -/
theorem hostReadsBackItsByte : Obligations.HostReadsBackItsByte := by
  intro s a v hinv hb hp hq
  obtain ⟨hwf, _⟩ := State.inv_iff.1 hinv
  have hsame : memRead (memWrite s.mem a.toNat v) a.toNat = v := by rw [memRead_memWrite hwf, if_pos rfl]
  have hwrite := step_memWrite_idle hq hb hp
  have hread := step_memRead_idle (s := { s.withQueue [.memRead a] with mem := memWrite s.mem a.toNat v }) rfl hb hp
  refine ⟨_, (run_next hwrite 1).trans (run_next hread 0), hsame, hsame, fun b hne => ?_⟩
  exact memRead_memWrite_other _ v (by rw [busAddr_of_lt a.isLt]; exact hne.symm)

/-- Settles O54: both accesses look at the populated set first. -/
theorem hostAccessOffMemoryFaults : Obligations.HostAccessOffMemoryFaults := by
  intro s a e q hp hq he
  rw [step_cons hq]
  rcases he with rfl | ⟨v, rfl⟩
  · exact State.foreignRead_unpopulated (s := s.withQueue q) hp
  · exact State.foreignWrite_unpopulated (s := s.withQueue q) hp v

end

/-! Colours: the bits of a composed colour (20 R44), the nibbles of a packed byte (20 R43), and a converted tile drawn whole
inside the region (20 R55). -/
section
namespace Sys2Proof.Machine

/-- A plane's bit put in place `p` of a colour is there and nowhere else. -/
theorem getLsbD_pixelBit_shiftLeft (b : Byte) (i : Nat) {p : Nat} (hp : p < 4) (k : Nat) :
    (pixelBit b i <<< p).getLsbD k = (b.getLsbD (7 - i) && decide (k = p)) := by
  unfold pixelBit
  split <;> rename_i hbit
  · rw [show (1 : Colour) <<< p = BitVec.twoPow 4 p from rfl, BitVec.getLsbD_twoPow]
    simp [hbit, hp, eq_comm]
  · simp [hbit]

theorem highNibble_oddPixel_evenPixel (c d : Colour) : highNibble (oddPixel (evenPixel c) d) = c := by
  ext k hk
  simp [highNibble, oddPixel, evenPixel, hk, show 4 + k < 8 by omega]

theorem lowNibble_oddPixel_evenPixel (c d : Colour) : lowNibble (oddPixel (evenPixel c) d) = d := by
  ext k hk
  simp [lowNibble, oddPixel, evenPixel, hk, show k < 8 by omega]

/-- A tile converted under the contract holds the colours of the planar tile (41 R102). -/
theorem packedColour_tileRun {o : OperandRegs} {m : Memory} (hm : Memory.wf m = true) (hc : TileContract o) {x y : Nat}
    (hx : x < 16) (hy : y < 16) :
    packedColour (tileRun o m) o.dstAddr x y = pixelColour (tileLayout o) m x y := by
  unfold packedColour
  rw [tileRun_read o hm hc hy (show x / 2 < 8 by omega), highNibble_oddPixel_evenPixel, lowNibble_oddPixel_evenPixel]
  split
  · rw [show 2 * (x / 2) = x by omega]
  · rw [show 2 * (x / 2) + 1 = x by omega]

/-- A tile wholly inside the region is not cut (42 R111). -/
theorem clipTile_inside {p : Instance} {o : OperandRegs} (hx : 0 ≤ o.xOffset) (hw : o.xOffset + 16 ≤ p.tilemapW)
    (hy : 0 ≤ o.yOffset) (hh : o.yOffset + 16 ≤ p.tilemapH) : clipTile p o = clipStart o := by
  have hleft : clipLeft (clipStart o) = clipStart o := if_neg (not_lt.2 hx)
  have hright : clipRight p.tilemapW (clipStart o) = clipStart o := if_neg (not_lt.2 hw)
  have htop : clipTop (clipStart o) = clipStart o := if_neg (not_lt.2 hy)
  have hbottom : clipBottom p.tilemapH (clipStart o) = clipStart o := if_neg (not_lt.2 hh)
  rw [clipTile, hleft, hright, htop, hbottom]

theorem rows_clipStart (o : OperandRegs) : (clipStart o).rows = 16 := by
  simp [Clip.rows, Clip.empty, clipStart, Config.tileW, Config.tileH]

theorem bytes_clipStart (o : OperandRegs) : (clipStart o).bytes = 8 := by
  simp [Clip.bytes, Clip.empty, clipStart, Config.tileW, Config.tileH, halve]

/-- The byte of a tile pixel after DRAWTILE's pseudocode, the tile wholly inside the region (42 R115). -/
theorem drawRun_read_inside {p : Instance} {o : OperandRegs} {m : Memory} (hm : Memory.wf m = true)
    (hc : DrawContract p o) (hx0 : 0 ≤ o.xOffset) (hw : o.xOffset + 16 ≤ p.tilemapW) (hy0 : 0 ≤ o.yOffset)
    (hh : o.yOffset + 16 ≤ p.tilemapH) {x y : Nat} (hx : x < 16) (hy : y < 16) :
    memRead (drawRun p o m) (drawDst o (clipStart o) y x) =
      if packedColour m o.srcAddr x y ≠ 0 then pixelByte (packedColour m o.srcAddr x y)
      else memRead m (drawDst o (clipStart o) y x) := by
  have hclip := clipTile_inside hx0 hw hy0 hh
  have hleft : leftAdvance o = 0 := if_neg (not_lt.2 hx0)
  have htop : topAdvance o = 0 := if_neg (not_lt.2 hy0)
  have hread := drawRun_read p o hm hc (r := y) (k := x) (by rwa [hclip, rows_clipStart])
    (by rwa [hclip, bytes_clipStart])
  simpa only [hclip, hleft, htop, Nat.mul_zero, Nat.zero_add] using hread

end Sys2Proof.Machine

open Sys2Proof Sys2Proof.Machine

/-- Settles O24: the colour is the union of four colours of one bit each. -/
theorem colourBitsComeFromPlanes : Obligations.ColourBitsComeFromPlanes := by
  intro b i _
  simp (disch := decide) only [colour, planeBit, BitVec.getLsbD_or, getLsbD_pixelBit_shiftLeft]
  simp

/-- Settles O37: DRAWTILE shows the packed colours of its source, which TILECONV made the colours of the planar tile. -/
theorem convertedTileIsDrawn : Obligations.ConvertedTileIsDrawn := by
  intro s t o hinv hl ha hc h hsrc ha' hc' hx0 hw hy0 hh
  obtain ⟨hwf, _⟩ := State.inv_iff.1 hinv
  rw [exec_accepts_command ha hl] at h
  obtain rfl := Host.Outcome.next.inj h
  refine ⟨_, exec_accepts_command ha' hl, fun x y hx hy => ?_⟩
  have hdraw := drawRun_read_inside (tileRun_wf s.opnd hwf) hc' hx0 hw hy0 hh hx hy
  have hcolour : packedColour (tileRun s.opnd s.mem) o.srcAddr x y = pixelColour (tileLayout s.opnd) s.mem x y := by
    rw [OperandRegs.srcAddr, hsrc]
    exact packedColour_tileRun hwf hc hx hy
  have haddr : drawDst o (clipStart o) y x =
      o.dst.toNat + (o.yoff.toInt.toNat + y) * o.pitch.toNat + (o.xoff.toInt.toNat + x) := rfl
  simpa only [commandRun, hcolour, haddr] using hdraw

end

/-! The accesses of a run and the footprint of its command (20 R58): every access is in it, and DECODE reads it byte by byte. -/
section
namespace Sys2Proof.Machine

/-! ## Every access is one of the footprint -/

theorem Run.writes_decode {r : Run} (p : Instance) (h : r.op = .decode) : r.writes p = decodeWrites r.regs := by
  rw [Run.writes, h]; rfl

theorem Run.writes_tileconv {r : Run} (p : Instance) (h : r.op = .tileconv) : r.writes p = tileWrites r.regs := by
  rw [Run.writes, h]; rfl

theorem Run.writes_drawtile {r : Run} (p : Instance) (h : r.op = .drawtile) : r.writes p = drawWrites p r.regs := by
  rw [Run.writes, h]; rfl

theorem Run.reads_drawtile {r : Run} (p : Instance) (h : r.op = .drawtile) : r.reads p = drawReads p r.regs := by
  rw [Run.reads, h]; rfl

/-- The access is of a byte that the run may access so (20 R58): a read of one it reads or, by TILECONV, of one it writes; a
write of one it writes. -/
def Run.mayMake (p : Instance) (r : Run) : Access → Prop
  | .read a => a ∈ r.reads p ∨ (r.op = .tileconv ∧ a ∈ r.writes p)
  | .write a _ => a ∈ r.writes p

/-- The planes of both planar sources are as large as their rows (20 R40, R41). -/
theorem Run.planeSize_layout (r : Run) : r.layout.planeSize = r.layout.rows * r.layout.bytesPerRow := by
  unfold Run.layout
  cases r.op <;> rfl

/-- The planar commands read their planar source. -/
theorem Run.reads_planar {r : Run} (p : Instance) (h : r.op ≠ .drawtile) : r.reads p = planarFootprint r.layout := by
  unfold Run.reads Run.layout
  cases hop : r.op with
  | drawtile => exact absurd hop h
  | decode | tileconv => rfl

theorem PlanarLayout.holds_iff {l : PlanarLayout} {y xb : Nat} :
    l.holds y xb = true ↔ y < l.rows ∧ xb < l.bytesPerRow := by
  simp [PlanarLayout.holds]

theorem Clip.holds_iff {c : Clip} {k j : Nat} : c.holds k j = true ↔ k < c.rows ∧ j < c.bytes := by
  simp [Clip.holds]

theorem Run.mayMake_planeRead {r : Run} (p : Instance) {q y xb : Nat} (hq : q < 4) (hop : r.op ≠ .drawtile)
    (h : r.layout.holds y xb = true) : r.mayMake p (.read (busAddr (planeAddr r.layout q y xb))) := by
  obtain ⟨hy, hx⟩ := PlanarLayout.holds_iff.1 h
  left
  rw [Run.reads_planar p hop]
  exact planeAddr_mem r.planeSize_layout hq hy hx

theorem decodeDst_mem {o : OperandRegs} {y xb i : Nat} (hy : y < (decodeLayout o).rows)
    (hx : xb < (decodeLayout o).bytesPerRow) (hi : i < 8) : busAddr (decodeDst o y xb i) ∈ decodeWrites o := by
  refine mem_decodeWrites hy ?_
  simp only [decodeLayout, Config.pixPerByte] at hx ⊢
  omega

/-- What is accessed at a pixel is a byte of the destination. -/
theorem Run.mayMake_pixelAccess {r : Run} (p : Instance) {y xb i : Nat} {b : Planes} (h : r.layout.holds y xb = true)
    (hi : i < 8) {a : Access} (ha : r.pixelAccess y xb i b = some a) : r.mayMake p a := by
  obtain ⟨hy, hx⟩ := PlanarLayout.holds_iff.1 h
  cases hop : r.op with
  | decode =>
    have hmem : busAddr (decodeDst r.regs y xb i) ∈ r.writes p := by
      simp only [Run.layout, hop] at hy hx
      rw [Run.writes_decode p hop]
      exact decodeDst_mem hy hx hi
    simp only [Run.pixelAccess, hop] at ha
    split at ha
    · obtain rfl := Option.some.inj ha; exact hmem
    · cases ha
  | tileconv =>
    have hmem : busAddr (tileDst r.regs y xb i) ∈ r.writes p := by
      simp only [Run.layout, hop] at hy hx
      rw [Run.writes_tileconv p hop]
      exact tileDst_mem r.regs hy hx hi
    simp only [Run.pixelAccess, hop] at ha
    split at ha
    · obtain rfl := Option.some.inj ha; exact hmem
    · obtain rfl := Option.some.inj ha; right; exact ⟨hop, hmem⟩
  | drawtile => simp [Run.pixelAccess, hop] at ha

theorem Run.mayMake_nibbleAccess {r : Run} {p : Instance} (hop : r.op = .drawtile) {k c : Nat} {n : Colour}
    (hk : k < (clipTile p r.regs).rows) (hc : c < 2 * (clipTile p r.regs).bytes) {a : Access}
    (ha : nibbleAccess (drawDst r.regs (clipTile p r.regs) k c) n = some a) : r.mayMake p a := by
  unfold nibbleAccess at ha
  split at ha
  · obtain rfl := Option.some.inj ha
    rw [Run.mayMake, Run.writes_drawtile p hop]
    exact mem_drawWrites hk hc
  · cases ha

/-- From a position of its command a run makes only accesses of its footprint. -/
theorem Run.mayMake_access {p : Instance} {r : Run} (h : r.posOk p = true) {a : Access} (ha : r.access = some a) :
    r.mayMake p a := by
  unfold Run.posOk at h
  unfold Run.access at ha
  cases hpos : r.pos <;>
    simp only [hpos, Pos.okFor, Bool.and_eq_true, bne_iff_ne, beq_iff_eq, decide_eq_true_eq, ne_eq,
      Option.some.injEq, reduceCtorEq] at h ha
  case plane0 | plane1 | plane2 | plane3 =>
    obtain ⟨hop, hin⟩ := h
    subst ha
    exact Run.mayMake_planeRead p (by decide) hop hin
  case pixel =>
    obtain ⟨⟨_, hin⟩, hi⟩ := h
    exact Run.mayMake_pixelAccess p hin hi ha
  case merge =>
    obtain ⟨⟨⟨hop, hin⟩, hi⟩, _⟩ := h
    obtain ⟨hy, hx⟩ := PlanarLayout.holds_iff.1 hin
    subst ha
    simp only [Run.layout, hop] at hy hx
    rw [Run.mayMake, Run.writes_tileconv p hop]
    exact tileDst_mem r.regs hy hx hi
  case packed =>
    obtain ⟨⟨hop, rfl⟩, hin⟩ := h
    obtain ⟨hk, hj⟩ := Clip.holds_iff.1 hin
    subst ha
    left
    rw [Run.reads_drawtile p hop]
    exact mem_drawReads hk hj
  case high | low =>
    obtain ⟨⟨hop, rfl⟩, hin⟩ := h
    obtain ⟨hk, hj⟩ := Clip.holds_iff.1 hin
    exact Run.mayMake_nibbleAccess hop hk (by omega) ha

/-! ## The reads of DECODE -/

/-- The addresses of the four plane reads of a byte column. -/
def planeReadAddrs (l : PlanarLayout) (y xb : Nat) : List Nat :=
  (List.range 4).map fun q => busAddr (planeAddr l q y xb)

theorem length_planeReadAddrs (l : PlanarLayout) (y xb : Nat) : (planeReadAddrs l y xb).length = 4 := rfl

theorem length_decodeReads (o : OperandRegs) :
    (decodeReads o).length = 4 * ((decodeLayout o).rows * (decodeLayout o).bytesPerRow) := by
  rw [decodeReads, planarFootprint, List.length_map, List.length_range]
  rfl

/-- A byte column of DECODE reads its four plane bytes; its pixels only write. -/
theorem readAddrs_decodeColumn {r : Run} (h : r.op = .decode) (m : Memory) (y xb : Nat) :
    ((r.at (.plane0 y xb)).trace 12 m).filterMap Access.readAddr? = planeReadAddrs (decodeLayout r.regs) y xb := by
  have hpixel (i : Nat) (b : Planes) : (r.pixelAccess y xb i b).bind Access.readAddr? = none := by
    simp only [Run.pixelAccess, h]
    split <;> rfl
  rw [trace_decodeColumn h, List.filterMap_append, List.filterMap_filterMap]
  simp only [hpixel, List.filterMap_none, List.append_nil, Run.layout, h]
  rfl

/-- The addresses DECODE reads, in order. -/
theorem readAddrs_decode (p : Instance) (o : OperandRegs) (m : Memory) :
    (commandTrace p .decode o m).filterMap Access.readAddr? =
      (List.range (decodeLayout o).rows).flatMap fun y =>
        (List.range (decodeLayout o).bytesPerRow).flatMap (planeReadAddrs (decodeLayout o) y) := by
  rw [commandTrace_eq]
  by_cases h0 : (decodeLayout o).rows = 0 ∨ (decodeLayout o).bytesPerRow = 0
  · have hstart : (acceptedRun p .decode o).pos = .finished := by simp [acceptedRun, commandStart, decodeStart, h0]
    rw [trace_finished _ _ _ hstart]
    rcases h0 with h0 | h0 <;> simp [h0]
  · have hstart : acceptedRun p .decode o = (acceptedRun p .decode o).at (.plane0 0 0) := by
      simp [acceptedRun, commandStart, decodeStart, h0]
    have hcol := decode_columns (r := acceptedRun p .decode o) rfl
    rw [hstart]
    exact trace_loops Access.readAddr? hcol (Nat.pos_of_ne_zero (not_or.1 h0).2) (P := fun _ => True)
      (fun _ _ _ _ _ _ => trivial) (fun y xb m _ _ _ => readAddrs_decodeColumn rfl m y xb) trivial

/-- The source bytes of DECODE are distinct: they fit the address space. -/
theorem nodup_decodeReads (o : OperandRegs) : (decodeReads o).Nodup := by
  have hrows : o.heightRows < 2 ^ 16 := o.height.isLt
  have hbytes : o.widthPixels / 8 < 2 ^ 13 := by
    have : o.widthPixels < 2 ^ 16 := o.width.isLt
    omega
  have hsize : 4 * (o.heightRows * (o.widthPixels / 8)) < Config.memorySize := by
    have := Nat.mul_le_mul hrows.le hbytes.le
    simp only [Config.memorySize]
    omega
  refine List.Nodup.map_on (fun k hk k' hk' e => ?_) List.nodup_range
  exact busAddr_add_inj ((List.mem_range.1 hk).trans hsize) ((List.mem_range.1 hk').trans hsize) e

/-- Byte `k` of the source is the byte of one plane, row and byte column (20 R40). -/
theorem exists_planeAddr {l : PlanarLayout} (hps : l.planeSize = l.rows * l.bytesPerRow) {k : Nat}
    (hk : k < 4 * l.planeSize) :
    ∃ q y xb, q < 4 ∧ y < l.rows ∧ xb < l.bytesPerRow ∧ planeAddr l q y xb = l.base + k := by
  have hpos : 0 < l.planeSize := by omega
  have hB : 0 < l.bytesPerRow := by
    rw [hps] at hpos
    exact Nat.pos_of_mul_pos_left hpos
  have hin : k % l.planeSize < l.bytesPerRow * l.rows := by
    rw [Nat.mul_comm, ← hps]
    exact Nat.mod_lt _ hpos
  refine ⟨k / l.planeSize, k % l.planeSize / l.bytesPerRow, k % l.planeSize % l.bytesPerRow,
    Nat.div_lt_of_lt_mul (by rwa [Nat.mul_comm]), Nat.div_lt_of_lt_mul hin, Nat.mod_lt _ hB, ?_⟩
  unfold planeAddr
  rw [Nat.div_add_mod', Nat.add_assoc, Nat.div_add_mod']

/-- DECODE reads its source bytes, each once: it makes as many reads as there are source bytes, and leaves none of them out. -/
theorem decodeReads_perm_readAddrs (p : Instance) (o : OperandRegs) (m : Memory) :
    (decodeReads o).Perm ((commandTrace p .decode o m).filterMap Access.readAddr?) := by
  rw [readAddrs_decode]
  refine (List.subperm_of_subset (nodup_decodeReads o) fun a ha => ?_).perm_of_length_le ?_
  · obtain ⟨k, hk, rfl⟩ := List.mem_map.1 ha
    obtain ⟨q, y, xb, hq, hy, hx, e⟩ := exists_planeAddr (l := decodeLayout o) rfl (List.mem_range.1 hk)
    refine List.mem_flatMap.2 ⟨y, List.mem_range.2 hy, List.mem_flatMap.2 ⟨xb, List.mem_range.2 hx, ?_⟩⟩
    exact List.mem_map.2 ⟨q, List.mem_range.2 hq, congrArg busAddr e⟩
  · have hlen : ((List.range (decodeLayout o).rows).flatMap fun y =>
        (List.range (decodeLayout o).bytesPerRow).flatMap (planeReadAddrs (decodeLayout o) y)).length =
          (decodeLayout o).rows * ((decodeLayout o).bytesPerRow * 4) := by
      simp [List.length_flatMap, length_planeReadAddrs]
    rw [hlen, length_decodeReads]
    exact le_of_eq (by ring)

theorem mem_decodeReads {o : OperandRegs} {a : Nat} :
    a ∈ decodeReads o ↔ ∃ k, k < 4 * (o.heightRows * (o.widthPixels / 8)) ∧ a = busAddr (o.srcAddr + k) := by
  simp [decodeReads, planarFootprint, decodeLayout, eq_comm]

end Sys2Proof.Machine

open Sys2Proof Sys2Proof.Machine

/-- Settles O26: the addresses read are the source bytes in another order. -/
theorem decodeReadsEachSourceByteOnce : Obligations.DecodeReadsEachSourceByteOnce := by
  intro p o m
  have hperm := decodeReads_perm_readAddrs p o m
  exact ⟨hperm.nodup_iff.1 (nodup_decodeReads o), fun a => hperm.mem_iff.symm.trans mem_decodeReads⟩

/-- Settles O42: the invariant holds the position inside the command's loops. -/
theorem engineStaysInFootprint : Obligations.EngineStaysInFootprint := by
  intro s r hinv he
  obtain ⟨_, _, hengine, _⟩ := State.inv_iff.1 hinv
  rw [he] at hengine
  obtain ⟨_, _, _, hpos⟩ := Run.ok_iff.1 hengine
  exact ⟨fun a ha => Run.mayMake_access hpos ha, fun a v ha => Run.mayMake_access hpos ha⟩

end

/-! The CMD word (30 R70, R71, R73): its two fields, the words that are commands, and what a write of one to CMD does (30 R72). -/
section
namespace Sys2Proof

/-! ## The fields of a CMD word and the words of the commands -/

theorem toNat_cmdOp (v : Word) : (cmdOp v).toNat = v.toNat % 16 := by
  simp [cmdOp]

theorem toNat_cmdReserved (v : Word) : (cmdReserved v).toNat = v.toNat / 16 := by
  rw [cmdReserved, BitVec.extractLsb'_toNat, Nat.shiftRight_eq_div_pow, Nat.mod_eq_of_lt (by omega)]

/-- The two fields are the whole word (30 R70). -/
theorem cmdWord_ext {v w : Word} (hres : cmdReserved v = cmdReserved w) (hop : cmdOp v = cmdOp w) : v = w := by
  have hhigh : v.toNat / 16 = w.toNat / 16 := by rw [← toNat_cmdReserved, hres, toNat_cmdReserved]
  have hlow : v.toNat % 16 = w.toNat % 16 := by rw [← toNat_cmdOp, hop, toNat_cmdOp]
  exact BitVec.eq_of_toNat_eq (by omega)

/-- The decoder gives the command `i` for the word of `i` and for no other (30 R71). -/
theorem decode_eq_ok_iff {v : Word} {i : Instr} : decode v = .ok i ↔ v = encode i := by
  constructor
  · intro h
    unfold decode at h
    split_ifs at h with hres h1 h2 h3 <;> cases h
    · exact cmdWord_ext (not_not.1 hres) h1
    · exact cmdWord_ext (not_not.1 hres) h2
    · exact cmdWord_ext (not_not.1 hres) h3
  · rintro rfl
    cases i <;> rfl

/-- A word of no command is reserved, for some reason (30 R73). -/
theorem decode_error_of_ne_encode {v : Word} (h : ∀ i, v ≠ encode i) : ∃ why, decode v = .error why := by
  cases hd : decode v with
  | ok i => exact absurd (decode_eq_ok_iff.1 hd) (h i)
  | error why => exact ⟨why, rfl⟩

theorem toNat_encode (i : Instr) : (encode i).toNat / 16 = 0 ∧ 1 ≤ (encode i).toNat % 16 ∧ (encode i).toNat % 16 ≤ 3 := by
  cases i <;> decide

/-- The words of the commands are those with [31:4] = 0 and OP 1 to 3 (30 R71). -/
theorem exists_eq_encode {v : Word} (hhigh : v.toNat / 16 = 0) (hlo : 1 ≤ v.toNat % 16) (hhi : v.toNat % 16 ≤ 3) :
    ∃ i, v = encode i := by
  have hv : v.toNat = 1 ∨ v.toNat = 2 ∨ v.toNat = 3 := by omega
  rcases hv with hv | hv | hv
  · exact ⟨.decode, BitVec.eq_of_toNat_eq hv⟩
  · exact ⟨.tileconv, BitVec.eq_of_toNat_eq hv⟩
  · exact ⟨.drawtile, BitVec.eq_of_toNat_eq hv⟩

/-- All 32 bits of a word taken from the table's number are the word itself. -/
theorem tableWord_toNat (v : Word) : tableWord 32 v.toNat = v := by
  rw [tableWord, Nat.mod_eq_of_lt v.isLt, BitVec.ofNat_toNat, BitVec.setWidth_eq]

end Sys2Proof

namespace Sys2Proof.Machine

/-! ## A write to CMD (30 R72, R73) -/

theorem State.presentWord_of_command (s : State) {v : Word} {i : Instr} (h : decode v = .ok i) :
    s.presentWord v = exec i s := by
  simp only [State.presentWord, h]

theorem State.presentWord_of_reserved (s : State) {v : Word} {why : Reserved} (h : decode v = .error why) :
    s.presentWord v = .next s.rejectReserved := by
  simp only [State.presentWord, h]

theorem step_cmdWrite {s : State} {v : Word} {q : List HostEvent} (h : s.host.queue = cmdWrite s.inst v :: q) :
    step s = (s.withQueue q).presentWord v :=
  step_wr (r := .cmd) h

/-- An idle block rejects a reserved word with E_OP, DONE cleared (30 R73). -/
theorem State.rejectReserved_idle {s : State} (hr : s.resetAsserted = false) (hb : s.busy = false) :
    s.rejectReserved = { s with status := { s.status with done := false, eOp := true } } := by
  simp [State.rejectReserved, hr, hb, State.raise, State.clearDone, Status.update_clearDone, Status.update_raise_eOp]

theorem step_cmdWrite_command {s : State} {v : Word} {i : Instr} {q : List HostEvent}
    (h : s.host.queue = cmdWrite s.inst v :: q) (hd : decode v = .ok i) : step s = exec i (s.withQueue q) :=
  (step_cmdWrite h).trans (State.presentWord_of_command _ hd)

end Sys2Proof.Machine

open Sys2Proof Sys2Proof.Machine

/-- Settles O1: each word is decoded by computation. -/
theorem commandWordsDecode : Obligations.CommandWordsDecode :=
  ⟨rfl, rfl, rfl, rfl, rfl, rfl⟩

/-- Settles O2: the word of a command, and no other, decodes to it. -/
theorem decodeMatchesWholeWord : Obligations.DecodeMatchesWholeWord := by
  refine fun v => ⟨decode_eq_ok_iff, decode_eq_ok_iff, decode_eq_ok_iff, fun ⟨h1, h2, h3⟩ => ?_, fun i => decode_eq_ok_iff⟩
  refine decode_error_of_ne_encode fun i => ?_
  cases i with
  | decode => exact h1
  | tileconv => exact h2
  | drawtile => exact h3

/-- Settles O3: the bits of the reserved words are those of no command's word, and its write is `rejectReserved`. -/
theorem reservedWordsRejected : Obligations.ReservedWordsRejected := by
  refine fun v => ⟨fun hbits => ?reserved, fun ⟨hhigh, hlo, hhi⟩ => ?command⟩
  case reserved =>
    have hne : ∀ i, v ≠ encode i := by
      rintro i rfl
      have := toNat_encode i
      omega
    obtain ⟨why, hd⟩ := decode_error_of_ne_encode hne
    refine ⟨⟨why, hd⟩, fun s q hq hr hb => ?_⟩
    rw [step_cmdWrite hq, State.presentWord_of_reserved _ hd, State.rejectReserved_idle (s := s.withQueue q) hr hb]
    rfl
  case command =>
    obtain ⟨i, rfl⟩ := exists_eq_encode hhigh hlo hhi
    exact ⟨i, decode_eq_ok_iff.2 rfl, rfl⟩

/-- Settles O13: the write to CMD is the command's presentation, and `withFetchWord` puts that write before the queue. -/
theorem stepRunsPresentedCommand : Obligations.StepRunsPresentedCommand := by
  refine ⟨fun s v i q hq hd => step_cmdWrite_command hq hd, fun s i => ?_⟩
  have hqueue : (s.withFetchWord 32 (encode i).toNat).host.queue = cmdWrite s.inst (encode i) :: s.host.queue := by
    rw [State.withFetchWord, tableWord_toNat]; rfl
  exact step_cmdWrite_command (s := s.withFetchWord 32 (encode i).toNat) hqueue (decode_eq_ok_iff.2 rfl)

end

/-! The engine's last move (30 R74) and the host's poll of STATUS (30 R78). -/
section
namespace Sys2Proof.Machine

/-- The completion makes BUSY = 0 and DONE = 1 (30 R74). -/
theorem State.complete_eq (s : State) :
    s.complete = { s with engine := .idle, status := { s.status with done := true } } := by
  rw [State.complete, Status.update_setDone]

/-- With no access left the engine's move settles the run and completes it. -/
theorem State.engineTurn_finished {s : State} {r : Run} (he : s.engine = .running r) (hf : r.pos = .finished) :
    s.engineTurn = (s.settleBreach r).complete := by
  simp only [State.engineTurn, he, hf, if_true]

/-! ## A move of the engine does not look at the host's side -/

theorem State.scramble_withHost (s : State) (h : HostSide) (l : List Nat) :
    State.scramble { s with host := h } l = { s.scramble l with host := h } := by
  induction l generalizing s with
  | nil => rfl
  | cons a l ih => exact ih (s.freeByteAt a)

theorem State.settleBreach_withHost (s : State) (h : HostSide) (r : Run) :
    State.settleBreach { s with host := h } r = { s.settleBreach r with host := h } := by
  unfold State.settleBreach
  split
  · exact s.scramble_withHost h _
  · rfl

theorem State.engineTurn_withHost (s : State) (h : HostSide) :
    State.engineTurn { s with host := h } = { s.engineTurn with host := h } := by
  cases hb : s.busy with
  | false => rw [engineTurn_idle hb, engineTurn_idle (s := { s with host := h }) hb]
  | true =>
    obtain ⟨r, he⟩ := State.busy_eq_true.1 hb
    by_cases hf : r.pos = .finished
    · rw [State.engineTurn_finished he hf, State.engineTurn_finished (s := { s with host := h }) he hf,
        State.settleBreach_withHost]
      rfl
    · simp only [State.engineTurn, he, hf, if_false]

/-- `WAIT` in a running block: STATUS is read, the entry stays, the engine moves (30 R78). -/
theorem State.waitStep_running {s : State} (hb : s.busy = true) : s.waitStep =
    { s.engineTurn with host := { s.host with queue := .wait :: s.host.queue, regData := s.statusWord } } := by
  simp only [State.waitStep, hb, if_true]
  exact s.engineTurn_withHost _

theorem step_wait {s : State} {q : List HostEvent} (h : s.host.queue = .wait :: q) :
    step s = .next (s.withQueue q).waitStep :=
  step_cons h

/-- `WAIT` on an idle block is one read of STATUS (30 R78). -/
theorem run_wait_idle {s : State} {q : List HostEvent} (h : s.host.queue = .wait :: q) (hb : s.busy = false) :
    Host.Core.run Sys2Proof.core 1 s = .next ((s.withQueue q).readToHost .status) := by
  rw [run_next (step_wait h), run_zero, waitStep_idle (s := s.withQueue q) hb]

end Sys2Proof.Machine

open Sys2Proof.Machine

/-- Settles O43: the engine's move is the completion, and there is no breach to settle. -/
theorem completionIsOneStep : Obligations.CompletionIsOneStep := by
  intro s r hq he hf hbr
  rw [step_nil hq, State.engineTurn_finished he hf, s.settleBreach_of_not_breached hbr, State.complete_eq]

/-- Settles O55: the read of STATUS changes the host's side alone, at which the engine's move does not look. -/
theorem waitPollsStatus : Obligations.WaitPollsStatus := by
  intro s q hq
  refine ⟨(s.withQueue q).waitStep, step_wait hq, ?_⟩
  cases hb : s.busy with
  | false =>
    rw [waitStep_idle (s := s.withQueue q) hb]
    exact ⟨rfl, fun _ => rfl, fun h => absurd h Bool.false_ne_true⟩
  | true =>
    have hmove : (s.withQueue q).engineTurn = s.engineTurn.withQueue q := by
      rw [State.withQueue, State.engineTurn_withHost, State.withQueue, State.engineTurn_host]
    rw [State.waitStep_running (s := s.withQueue q) hb, hmove]
    exact ⟨rfl, fun h => absurd h.symm Bool.false_ne_true, fun _ => ⟨rfl, s.engineTurn_opnd, rfl, rfl, rfl⟩⟩

end

/-! The host's sequences (30 R78): operand writes, a command, WAIT, on an idle block at level `command`. -/
section
namespace Sys2Proof.Machine

/-- The queue entries that write the values of the list to their operand registers, in order (30 R77). -/
def operandWrites (p : Instance) (l : List (OperandName × Word)) : List HostEvent :=
  l.map fun x => wr p (.operand x.1) x.2

/-- The operand registers after those writes. -/
def OperandRegs.writeAll (o : OperandRegs) (l : List (OperandName × Word)) : OperandRegs :=
  l.foldl (fun o x => o.write x.1 x.2) o

/-- An idle block takes the operand writes one a step, and nothing else changes. -/
theorem run_operandWrites {s : State} {l : List (OperandName × Word)} {q : List HostEvent} (hr : s.resetAsserted = false)
    (hb : s.busy = false) (hq : s.host.queue = operandWrites s.inst l ++ q) :
    Host.Core.run Sys2Proof.core l.length s = .next { s.withQueue q with opnd := s.opnd.writeAll l } := by
  induction l generalizing s with
  | nil => rw [show q = s.host.queue from hq.symm]; rfl
  | cons x l ih =>
    have hstep : step s = .next ((s.withQueue (operandWrites s.inst l ++ q)).writeOperand x.1 x.2) := step_wr hq
    have hwrite : (s.withQueue (operandWrites s.inst l ++ q)).writeOperand x.1 x.2 =
        { s.withQueue (operandWrites s.inst l ++ q) with opnd := s.opnd.write x.1 x.2 } := by
      simp [State.writeOperand, hr, hb]
    rw [hwrite] at hstep
    exact (run_next hstep l.length).trans
      (ih (s := { s.withQueue (operandWrites s.inst l ++ q) with opnd := s.opnd.write x.1 x.2 }) hr hb rfl)

/-- A command's word and WAIT on an idle block at level `command`: the command, then the read that shows its end. -/
theorem run_command_wait {i : Instr} {s : State} (hl : s.level = .command) (ha : s.accepts i = true)
    (hq : s.host.queue = [command s.inst i, .wait]) :
    Host.Core.run Sys2Proof.core 2 s = .next (State.readToHost { s.withQueue [] with
      mem := commandRun s.inst i s.opnd s.mem, status := { s.status with done := true } } .status) := by
  have hexec : step s = exec i (s.withQueue [.wait]) := step_cmdWrite_command hq (decode_eq_ok_iff.2 rfl)
  rw [exec_accepts_command (s := s.withQueue [.wait]) ha hl] at hexec
  have hidle : s.busy = false := State.busy_eq_false.2 (State.engine_idle_of_accepts ha)
  exact (run_next hexec 1).trans (run_wait_idle rfl hidle)

/-- Operand writes, a command's word and WAIT on an idle block at level `command` perform the command on the operands written, and
the last STATUS read shows DONE without BUSY (30 R78). -/
theorem run_call (i : Instr) (l : List (OperandName × Word)) {s : State} (hr : s.resetAsserted = false)
    (hb : s.busy = false) (hl : s.level = .command)
    (hq : s.host.queue = operandWrites s.inst l ++ [command s.inst i, .wait])
    (hok : operandsOk i (s.opnd.writeAll l) = true) (hpop : footPopulated s.inst i (s.opnd.writeAll l) = true) :
    ∃ t, Host.Core.run Sys2Proof.core (l.length + 2) s = .next t ∧ t.opnd = s.opnd.writeAll l ∧
      t.mem = commandRun s.inst i (s.opnd.writeAll l) s.mem ∧ t.status = { s.status with done := true } ∧
      t.host.queue = [] ∧ t.host.regData = t.statusWord ∧
      t.host.regData.getLsbD 0 = false ∧ t.host.regData.getLsbD 1 = true := by
  have hwrites := run_operandWrites hr hb hq
  have hcommand := run_command_wait (i := i)
    (s := { s.withQueue [command s.inst i, .wait] with opnd := s.opnd.writeAll l })
    hl (State.accepts_iff.2 ⟨hr, hb, hok, hpop⟩) rfl
  exact ⟨_, (run_add hwrites 2).trans hcommand, rfl, rfl, rfl, rfl, rfl, (statusWordBits _ 0).trans hb, statusWordBits _ 1⟩

end Sys2Proof.Machine

open Sys2Proof Sys2Proof.Machine

/-- Settles O56: six operand writes, the word of DECODE, WAIT. -/
theorem decodeSequenceIsTheCall : Obligations.DecodeSequenceIsTheCall := by
  rintro s src dst pitch w h k _ hr hb hl hq rfl hok hpop
  exact run_call .decode [(.src, src), (.dst, dst), (.pitch, pitch), (.width, w), (.height, h), (.key, k)]
    hr hb hl hq hok hpop

/-- Settles O60: two operand writes before the word of TILECONV, five before that of DRAWTILE, and no operand check. -/
theorem tileSequencesAreTheCalls : Obligations.TileSequencesAreTheCalls := by
  constructor
  · rintro s src dst _ hr hb hl hq rfl hpop
    exact run_call .tileconv [(.src, src), (.dst, dst)] hr hb hl hq rfl hpop
  · rintro s src dst pitch xo yo _ hr hb hl hq rfl hpop
    exact run_call .drawtile [(.src, src), (.dst, dst), (.pitch, pitch), (.xoff, xo), (.yoff, yo)] hr hb hl hq rfl hpop

end

/-! The frame of a presented command (30 R72): which bits, which engine and which bytes it may change. -/
section
namespace Sys2Proof.Machine

section Frame

variable {i : Instr} {s t : State}

theorem exec_inst (h : exec i s = .next t) : t.inst = s.inst := by
  rcases exec_next_cases h with ⟨_, rfl⟩ | ⟨_, _, rfl⟩ | ⟨_, _, _, rfl⟩ | ⟨_, _, rfl⟩ | ⟨_, _, rfl⟩ <;> rfl

theorem exec_level (h : exec i s = .next t) : t.level = s.level := by
  rcases exec_next_cases h with ⟨_, rfl⟩ | ⟨_, _, rfl⟩ | ⟨_, _, _, rfl⟩ | ⟨_, _, rfl⟩ | ⟨_, _, rfl⟩ <;> rfl

theorem exec_host (h : exec i s = .next t) : t.host = s.host := by
  rcases exec_next_cases h with ⟨_, rfl⟩ | ⟨_, _, rfl⟩ | ⟨_, _, _, rfl⟩ | ⟨_, _, rfl⟩ | ⟨_, _, rfl⟩ <;> rfl

theorem exec_draws (h : exec i s = .next t) : t.draws = s.draws := by
  rcases exec_next_cases h with ⟨_, rfl⟩ | ⟨_, _, rfl⟩ | ⟨_, _, _, rfl⟩ | ⟨_, _, rfl⟩ | ⟨_, _, rfl⟩ <;> rfl

/-- The stored bits of STATUS after a command: E_PARAM is set on bad operands while idle, E_BUSY while busy; DONE stays while busy
and is else 1 exactly on a completion in this step (10 R21, 30 R72). -/
theorem exec_status (h : exec i s = .next t) : t.status =
    { done := if s.resetAsserted || s.busy then s.status.done else s.accepts i && s.level == .command
      eOp := s.status.eOp
      eParam := s.status.eParam || (!s.resetAsserted && !s.busy && !operandsOk i s.opnd)
      eBusy := s.status.eBusy || (!s.resetAsserted && s.busy) } := by
  rcases exec_next_cases h with ⟨hr, rfl⟩ | ⟨hr, hb, rfl⟩ | ⟨hr, hb, ho, rfl⟩ | ⟨ha, hl, rfl⟩ | ⟨ha, hl, rfl⟩
  · simp [hr]
  · simp [hr, hb, Status.update_raise_eBusy]
  · simp [hr, hb, ho, State.accepts, Status.update_clearDone, Status.update_raise_eParam]
  · obtain ⟨hr, hb, ho, _⟩ := State.accepts_iff.1 ha
    simp [hr, hb, ho, ha, hl]
  · obtain ⟨hr, hb, ho, _⟩ := State.accepts_iff.1 ha
    simp [hr, hb, ho, hl]

/-- The engine stays but for an acceptance at level `access`, which begins the run (10 R24, R25). -/
theorem exec_engine (h : exec i s = .next t) : t.engine =
    if s.accepts i && s.level == .access then .running (acceptedRun s.inst i s.opnd) else s.engine := by
  rcases exec_next_cases h with ⟨hr, rfl⟩ | ⟨_, hb, rfl⟩ | ⟨_, _, ho, rfl⟩ | ⟨_, hl, rfl⟩ | ⟨ha, hl, rfl⟩
  · simp [State.accepts, hr]
  · simp [State.accepts, hb]
  · simp [State.accepts, ho]
  · simp [hl]
  · simp [ha, hl]

/-- Only a completion in this step changes memory. -/
theorem exec_mem_of_not_run (h : exec i s = .next t) (hn : s.accepts i = false ∨ s.level = .access) : t.mem = s.mem := by
  rcases exec_next_cases h with ⟨_, rfl⟩ | ⟨_, _, rfl⟩ | ⟨_, _, _, rfl⟩ | ⟨ha, hl, rfl⟩ | ⟨_, _, rfl⟩
  · rfl
  · rfl
  · rfl
  · simp [ha, hl] at hn
  · rfl

/-- A command's pseudocode leaves every byte outside its write footprint (20 R58). -/
theorem commandRun_read_other (p : Instance) (i : Instr) (o : OperandRegs) (m : Memory) {a : Nat}
    (h : busAddr a ∉ footWrites p i o) : memRead (commandRun p i o m) a = memRead m a := by
  cases i with
  | decode => exact decodeRun_read_other o m h
  | tileconv => exact tileRun_read_other o m h
  | drawtile => exact drawRun_read_other p o m h

theorem exec_mem_other (h : exec i s = .next t) {a : Nat} (ha : busAddr a ∉ footWrites s.inst i s.opnd) :
    memRead t.mem a = memRead s.mem a := by
  rcases exec_next_cases h with ⟨_, rfl⟩ | ⟨_, _, rfl⟩ | ⟨_, _, _, rfl⟩ | ⟨_, _, rfl⟩ | ⟨_, _, rfl⟩
  · rfl
  · rfl
  · rfl
  · exact commandRun_read_other _ _ _ _ ha
  · rfl

end Frame

end Sys2Proof.Machine

open Sys2Proof Sys2Proof.Machine

/-- Settles O18: each command is `exec_accepts_command` of its own pseudocode. -/
theorem commandsComplete : Obligations.CommandsComplete :=
  fun _ hl => ⟨fun ha => exec_accepts_command ha hl, fun ha => exec_accepts_command ha hl,
    fun ha => exec_accepts_command ha hl⟩

/-- Settles O27: the frame of any command, at the operand check and the footprint of DECODE. -/
theorem decodeFrame : Obligations.DecodeFrame := by
  intro s t h
  have hstatus := exec_status h
  refine ⟨exec_opnd h, exec_resetAsserted h, exec_inst h, exec_level h, exec_host h, exec_draws h, ?eOp, ?eParam, ?eBusy,
    ?done, exec_engine h, exec_mem_of_not_run h, fun a ha => exec_mem_other h ha⟩
  case eParam => simp [hstatus, operandsOk]
  all_goals rw [hstatus]

end

/-! Commands without work: the sequencer starts at its end. DECODE of an empty image is one (40 R94). -/
section
namespace Sys2Proof.Machine

section NoWork

variable {i : Instr} {s : State}

theorem commandTrace_of_finished {p : Instance} {o : OperandRegs} (h : commandStart p i o = .finished) (m : Memory) :
    commandTrace p i o m = [] :=
  trace_finished _ _ m h

/-- A run that starts at its end leaves memory. -/
theorem commandRun_of_finished {p : Instance} {o : OperandRegs} (h : commandStart p i o = .finished) (m : Memory) :
    commandRun p i o m = m := by
  have hmoves := moves_command p i o m
  rw [moves_finished _ (acceptedRun p i o) m h] at hmoves
  exact (congrArg Prod.snd hmoves).symm

/-- At level `command` a command without work sets DONE and nothing else. -/
theorem exec_command_of_finished (ha : s.accepts i = true) (hl : s.level = .command)
    (h : commandStart s.inst i s.opnd = .finished) :
    exec i s = .next { s with status := { s.status with done := true } } := by
  rw [exec_accepts_command ha hl, commandRun_of_finished h]

/-- At level `access` the first move of a command without work is its completion, which sets DONE and nothing else. -/
theorem exec_access_of_finished (ha : s.accepts i = true) (hl : s.level = .access)
    (h : commandStart s.inst i s.opnd = .finished) :
    ∃ t, exec i s = .next t ∧ t.busy = true ∧ t.engineTurn = { s with status := { s.status with done := true } } := by
  refine ⟨_, exec_accepts_access ha hl, rfl, ?_⟩
  rw [State.engineTurn_finished (r := acceptedRun s.inst i s.opnd) rfl h,
    State.settleBreach_of_not_breached _ rfl, State.complete_eq, ← State.engine_idle_of_accepts ha]

end NoWork

theorem operandsOk_decode {o : OperandRegs} : operandsOk .decode o = true ↔ o.widthPixels % 8 = 0 := by
  simp [operandsOk, decodeBadParam]

section EmptyImage

variable {o : OperandRegs} (h : o.widthPixels = 0 ∨ o.heightRows = 0)
include h

theorem decodeStart_empty : decodeStart o = .finished := by
  rcases h with h | h <;> simp [decodeStart, decodeLayout, h]

theorem decodeReads_empty : decodeReads o = [] := by
  rcases h with h | h <;> simp [decodeReads, planarFootprint, decodeLayout, h]

theorem decodeWrites_empty : decodeWrites o = [] := by
  rcases h with h | h <;> simp [decodeWrites, h]

/-- The footprint of an empty image is empty, so it lies in any populated set (20 R47). -/
theorem footPopulated_decode_empty (p : Instance) : footPopulated p .decode o = true := by
  simp [footPopulated, footReads, footWrites, allPopulated, decodeReads_empty h, decodeWrites_empty h]

end EmptyImage

end Sys2Proof.Machine

open Sys2Proof Sys2Proof.Machine

/-- Settles O21: an empty image has no footprint to refuse, and its sequencer starts at its end. -/
theorem decodeEmptyImage : Obligations.DecodeEmptyImage := by
  intro s hr hb h8 hempty
  have hstart : commandStart s.inst .decode s.opnd = .finished := decodeStart_empty hempty
  have ha : s.accepts .decode = true :=
    State.accepts_iff.2 ⟨hr, hb, operandsOk_decode.2 h8, footPopulated_decode_empty hempty s.inst⟩
  exact ⟨commandTrace_of_finished hstart s.mem, fun hl => exec_command_of_finished ha hl hstart,
    fun hl => exec_access_of_finished ha hl hstart⟩

end

/-! What DECODE leaves in memory (40 R92, R93, R96), pixel by pixel, and its accesses in order (40 R91). -/
section
namespace Sys2Proof.Machine

/-! ## Pixels and their bytes -/

/-- The byte of a colour is `k` exactly if both are the same number (20 R42). -/
theorem pixelByte_eq_iff {c : Colour} {k : Byte} : pixelByte c = k ↔ c.toNat = k.toNat := by
  rw [← BitVec.toNat_inj, pixelByte, BitVec.toNat_setWidth, Nat.mod_eq_of_lt (by omega)]

/-- The bytes DECODE may write are those of the pixels of the image (20 R58). -/
theorem mem_decodeWrites_iff {o : OperandRegs} {a : Nat} : a ∈ decodeWrites o ↔
    ∃ x y, x < o.widthPixels ∧ y < o.heightRows ∧ a = busAddr (pixelAddr o.dstAddr o.pitchBytes y x) := by
  constructor
  · intro ha
    obtain ⟨y, hy, ha⟩ := List.mem_flatMap.1 ha
    obtain ⟨x, hx, rfl⟩ := List.mem_map.1 ha
    exact ⟨x, y, List.mem_range.1 hx, List.mem_range.1 hy, rfl⟩
  · rintro ⟨x, y, hx, hy, rfl⟩
    exact mem_decodeWrites hy hx

/-- Reads of one bus address give one byte. -/
theorem memRead_congr {a b : Nat} (m : Memory) (h : busAddr a = busAddr b) : memRead m a = memRead m b := by
  rw [← memRead_busAddr m a, h, memRead_busAddr]

/-- The byte of a pixel after DECODE's pseudocode, in a state that accepts the command under the contract (40 R92). -/
theorem decodeRun_read_of_accepts {s : State} (hinv : s.inv = true) (ha : s.accepts .decode = true)
    (hc : DecodeContract s.opnd) {x y : Nat} (hx : x < s.opnd.widthPixels) (hy : y < s.opnd.heightRows) :
    memRead (decodeRun s.opnd s.mem) (pixelAddr s.opnd.dstAddr s.opnd.pitchBytes y x) =
      if pixelByte (pixelColour (decodeLayout s.opnd) s.mem x y) ≠ s.opnd.key then
        pixelByte (pixelColour (decodeLayout s.opnd) s.mem x y)
      else memRead s.mem (pixelAddr s.opnd.dstAddr s.opnd.pitchBytes y x) := by
  obtain ⟨hwf, _⟩ := State.inv_iff.1 hinv
  obtain ⟨_, _, hok, _⟩ := State.accepts_iff.1 ha
  exact decodeRun_read s.opnd hwf hc hx (operandsOk_decode.1 hok) hy

/-- A colour whose bits are those of the four plane bytes at a pixel is the pixel's colour (20 R44, 92 D9). -/
theorem pixelColour_eq_of_bits {l : PlanarLayout} {m : Memory} {x y : Nat} {c : Colour}
    (h : ∀ p < 4, (memRead m (planeAddr l p y (x / 8))).getLsbD (7 - x % 8) = c.getLsbD p) :
    pixelColour l m x y = c := by
  obtain ⟨h0, h1, h2, h3⟩ :=
    colourBitsComeFromPlanes (readPlanes l m y (x / 8)) (x % 8) (Nat.mod_lt _ (by decide))
  apply BitVec.eq_of_getLsbD_eq
  intro p hp
  rw [← h p hp]
  interval_cases p
  · exact h0
  · exact h1
  · exact h2
  · exact h3

/-! ## The accesses of DECODE in order -/

theorem pixelColour_column (l : PlanarLayout) (m : Memory) (y xb : Nat) {i : Nat} (hi : i < 8) :
    pixelColour l m (8 * xb + i) y = colour (readPlanes l m y xb) i := by
  rw [pixelColour, Config.pixPerByte, show (8 * xb + i) / 8 = xb by omega, show (8 * xb + i) % 8 = i by omega]

/-- The accesses of byte column `xb` of row `y` (40 R91): four plane reads, then the writes of the colours that `m` holds there and
that differ from KEY. -/
def decodeColumnAccesses (o : OperandRegs) (m : Memory) (y xb : Nat) : List Access :=
  planeReads (decodeLayout o) y xb ++ (List.range 8).filterMap fun i =>
    if pixelByte (pixelColour (decodeLayout o) m (8 * xb + i) y) ≠ o.key then
      some (.write (busAddr (o.dstAddr + y * o.pitchBytes + (8 * xb + i)))
        (pixelByte (pixelColour (decodeLayout o) m (8 * xb + i) y)))
    else none

/-- A column's moves make those accesses in every memory with the source bytes of `m`. -/
theorem trace_eq_decodeColumnAccesses {r : Run} (h : r.op = .decode) {m m' : Memory} {y xb : Nat}
    (hsrc : readPlanes (decodeLayout r.regs) m' y xb = readPlanes (decodeLayout r.regs) m y xb) :
    (r.at (.plane0 y xb)).trace 12 m' = decodeColumnAccesses r.regs m y xb := by
  have hlayout : r.layout = decodeLayout r.regs := by rw [Run.layout, h]
  rw [trace_decodeColumn h, hlayout, hsrc, decodeColumnAccesses]
  congr 1
  refine List.filterMap_congr fun i hi => ?_
  rw [pixelColour_column _ _ _ _ (List.mem_range.1 hi), Run.pixelAccess, h]
  rfl

/-- With source and destination disjoint no column writes a source byte (40 R95). -/
theorem decodeColumn_keeps_source {o : OperandRegs} (hdis : DisjointAddrs (decodeReads o) (decodeWrites o)) {y xb a : Nat}
    (hy : y < (decodeLayout o).rows) (hx : xb < (decodeLayout o).bytesPerRow) (m : Memory)
    (ha : busAddr a ∈ decodeReads o) : memRead (decodeColumn o y xb m) a = memRead m a :=
  decodeColumn_read_other _ _ _ _ fun _ hi e => hdis _ ha (e ▸ decodeDst_mem hy hx hi)

/-- The whole sequence, rows and columns ascending, with the source bytes of the memory at the start. -/
theorem commandTrace_decode (p : Instance) {o : OperandRegs} (m : Memory)
    (hdis : DisjointAddrs (decodeReads o) (decodeWrites o)) :
    commandTrace p .decode o m =
      (List.range (decodeLayout o).rows).flatMap fun y =>
        (List.range (decodeLayout o).bytesPerRow).flatMap (decodeColumnAccesses o m y) := by
  by_cases h0 : (decodeLayout o).rows = 0 ∨ (decodeLayout o).bytesPerRow = 0
  · have hstart : commandStart p .decode o = .finished := by simp [commandStart, decodeStart, h0]
    rw [commandTrace_of_finished hstart]
    rcases h0 with h0 | h0 <;> simp [h0]
  · have hstart : acceptedRun p .decode o = (acceptedRun p .decode o).at (.plane0 0 0) := by
      simp [acceptedRun, commandStart, decodeStart, h0]
    have hcol := decode_columns (r := acceptedRun p .decode o) rfl
    rw [commandTrace_eq, hstart, ← List.filterMap_some (l := Run.trace _ _ _)]
    refine trace_loops some hcol (Nat.pos_of_ne_zero (not_or.1 h0).2)
      (P := fun m' => ∀ a, busAddr a ∈ decodeReads o → memRead m' a = memRead m a)
      (fun y xb m' hy hx hm' a ha => ?keep) (fun y xb m' hy hx hm' => ?column) (fun _ _ => rfl)
    case keep =>
      exact (decodeColumn_keeps_source hdis hy hx m' ha).trans (hm' a ha)
    case column =>
      rw [List.filterMap_some]
      exact trace_eq_decodeColumnAccesses rfl
        (readPlanes_congr fun q hq => hm' _ (planeAddr_mem rfl hq hy hx))

end Sys2Proof.Machine

open Sys2Proof Sys2Proof.Machine

/-- Settles O19: the two clauses are the bytes of the write footprint and the bytes outside it. -/
theorem decodeTransparency : Obligations.DecodeTransparency := by
  intro s hinv hl ha hc
  refine ⟨_, exec_accepts_command ha hl, rfl, fun x y hx hy => decodeRun_read_of_accepts hinv ha hc hx hy,
    fun a hout => decodeRun_read_other _ _ fun hmem => ?_⟩
  obtain ⟨x, y, hx, hy, e⟩ := mem_decodeWrites_iff.1 hmem
  exact hout x y hx hy e

/-- Settles O20: a colour is below 16, so a key of 16 or more equals none. -/
theorem decodeKeyMatchesNoColour : Obligations.DecodeKeyMatchesNoColour := by
  intro s hinv hl ha hc
  refine ⟨_, exec_accepts_command ha hl, fun x y hx hy => ?_⟩
  have hread := decodeRun_read_of_accepts hinv ha hc hx hy
  simp only [ne_eq, pixelByte_eq_iff] at hread
  have hcolour := (pixelColour (decodeLayout s.opnd) s.mem x y).isLt
  exact ⟨fun hk => hread.trans (if_pos (by omega)),
    fun _ => ⟨fun e => hread.trans (if_neg (not_not.2 e)), fun hne => hread.trans (if_pos hne)⟩⟩

/-- Settles O22: the key has no part in the footprints, and at a pixel of neither colour both results hold the colour. -/
theorem decodeTwoKeysDifferOnlyThere : Obligations.DecodeTwoKeysDifferOnlyThere := by
  intro s k l hinv hl ha hc
  obtain ⟨hwf, _⟩ := State.inv_iff.1 hinv
  obtain ⟨_, _, hok, _⟩ := State.accepts_iff.1 ha
  refine ⟨_, _, exec_accepts_command (s := { s with opnd := { s.opnd with key := k } }) ha hl,
    exec_accepts_command (s := { s with opnd := { s.opnd with key := l } }) ha hl, fun a hne => ?_⟩
  simp only [commandRun] at hne
  by_cases hmem : busAddr a ∈ decodeWrites s.opnd
  · obtain ⟨x, y, hx, hy, e⟩ := mem_decodeWrites_iff.1 hmem
    refine ⟨x, y, hx, hy, e, ?_⟩
    by_contra hboth
    obtain ⟨hnek, hnel⟩ := not_or.1 hboth
    have hread (key : Byte) := decodeRun_read { s.opnd with key := key } hwf hc hx (operandsOk_decode.1 hok) hy
    rw [memRead_congr _ e, memRead_congr _ e] at hne
    exact hne (((hread k).trans (if_pos hnek)).trans ((hread l).trans (if_pos hnel)).symm)
  · have hsame (key : Byte) := decodeRun_read_other { s.opnd with key := key } s.mem hmem
    exact absurd ((hsame k).trans (hsame l).symm) hne

/-- Settles O23: the colours of such a source are those of the grid. -/
theorem decodeReproducesGrid : Obligations.DecodeReproducesGrid := by
  intro s g hinv hl ha hc hkey hsrc
  obtain ⟨t, hexec, hpixel⟩ := decodeKeyMatchesNoColour s hinv hl ha hc
  refine ⟨t, hexec, fun x y hx hy => ?_⟩
  obtain ⟨hwritten, _⟩ := hpixel x y hx hy
  have hcolour : pixelColour (decodeLayout s.opnd) s.mem x y = g x y :=
    pixelColour_eq_of_bits fun p hp => hsrc x y p hx hy hp
  exact hcolour ▸ hwritten hkey

/-- Settles O25: the accesses of each column are spelled out in `decodeColumnAccesses`. -/
theorem decodeAccessOrder : Obligations.DecodeAccessOrder :=
  fun p _ m hdis => commandTrace_decode p m hdis

end

/-! TILECONV (41 R100 to R107): the bytes it packs, its frame, and its accesses in order with the count of each byte. -/
section
namespace Sys2Proof.Machine

/-! ## The accesses of TILECONV in order -/

/-- The accesses of byte column `xb` of row `y` (41 R101): four plane reads, then the pairs of the colours that `m` holds
there. -/
def tileColumnAccesses (o : OperandRegs) (m : Memory) (y xb : Nat) : List Access :=
  planeReads (tileLayout o) y xb ++
    (List.range 4).flatMap fun k => pairAccesses o y xb k (readPlanes (tileLayout o) m y xb)

/-- With source and destination disjoint no column writes a source byte (41 R104). -/
theorem tileColumn_keeps_source {o : OperandRegs} (hc : TileContract o) {y xb a : Nat} (hy : y < 16) (hx : xb < 2)
    (m : Memory) (ha : busAddr a ∈ tileReads o) : memRead (tileColumn o y xb m) a = memRead m a :=
  tileColumn_read_other _ _ _ _ fun _ hi e => hc _ ha (e ▸ tileDst_mem o hy hx hi)

/-- The whole sequence, rows and columns ascending, with the source bytes of the memory at the start. -/
theorem commandTrace_tileconv (p : Instance) {o : OperandRegs} {m : Memory} (hm : Memory.wf m = true)
    (hc : TileContract o) : commandTrace p .tileconv o m =
      (List.range 16).flatMap fun y => (List.range 2).flatMap fun xb => tileColumnAccesses o m y xb := by
  have hcol := tile_columns (r := acceptedRun p .tileconv o) rfl
  rw [commandTrace_eq, ← List.filterMap_some (l := Run.trace _ _ _)]
  refine trace_loops (r := acceptedRun p .tileconv o) some hcol (show 0 < 2 by decide)
    (P := fun m' => Memory.wf m' = true ∧ ∀ a, busAddr a ∈ tileReads o → memRead m' a = memRead m a)
    (fun y xb m' hy hx ⟨hwf, hsrc⟩ => ⟨tileColumn_wf o y xb hwf, fun a ha => ?keep⟩)
    (fun y xb m' hy hx ⟨hwf, hsrc⟩ => ?column) ⟨hm, fun _ _ => rfl⟩
  case keep => exact (tileColumn_keeps_source hc hy hx m' ha).trans (hsrc a ha)
  case column =>
    have hplanes : readPlanes (tileLayout o) m' y xb = readPlanes (tileLayout o) m y xb :=
      readPlanes_congr fun q hq => hsrc _ (planeAddr_mem rfl hq hy hx)
    rw [List.filterMap_some, tileColumnAccesses, ← hplanes]
    exact trace_tileColumn rfl hwf y xb

theorem planeAddr_tile (o : OperandRegs) (q y xb : Nat) :
    planeAddr (tileLayout o) q y xb = o.src.toNat + 32 * q + 2 * y + xb := by
  simp only [planeAddr, tileLayout, OperandRegs.srcAddr, Config.tilePlaneBytes, Config.tileW, Config.pixPerByte]
  omega

theorem tileDst_even (o : OperandRegs) (y xb k : Nat) :
    tileDst o y xb (2 * k) = o.dst.toNat + 8 * y + (4 * xb + k) := by
  simp only [tileDst, packedAddr, tilePx, OperandRegs.dstAddr, Config.tileRowBytes, Config.pixPerByte]
  omega

theorem planeReads_tile (o : OperandRegs) (y xb : Nat) : planeReads (tileLayout o) y xb =
    [.read (busAddr (o.src.toNat + 32 * 0 + 2 * y + xb)), .read (busAddr (o.src.toNat + 32 * 1 + 2 * y + xb)),
     .read (busAddr (o.src.toNat + 32 * 2 + 2 * y + xb)), .read (busAddr (o.src.toNat + 32 * 3 + 2 * y + xb))] := by
  simp only [planeReads, planeAddr_tile]

/-- A pair's accesses by the address of its byte and the colours of its pixels (20 R43, 41 R101). -/
theorem pairAccesses_tile (o : OperandRegs) (m : Memory) (y xb : Nat) {k : Nat} (hk : k < 4) :
    pairAccesses o y xb k (readPlanes (tileLayout o) m y xb) =
      [.write (busAddr (o.dst.toNat + 8 * y + (4 * xb + k)))
        (evenPixel (pixelColour (tileLayout o) m (8 * xb + 2 * k) y)),
       .read (busAddr (o.dst.toNat + 8 * y + (4 * xb + k))),
       .write (busAddr (o.dst.toNat + 8 * y + (4 * xb + k)))
        (oddPixel (evenPixel (pixelColour (tileLayout o) m (8 * xb + 2 * k) y))
          (pixelColour (tileLayout o) m (8 * xb + 2 * k + 1) y))] := by
  simp only [pairAccesses, tileDst_even]
  rw [pixelColour_column _ _ _ _ (show 2 * k < 8 by omega), Nat.add_assoc (8 * xb),
    pixelColour_column _ _ _ _ (show 2 * k + 1 < 8 by omega)]

/-! ## How often each byte is accessed -/

/-- The bytes of the four pairs of a byte column. -/
def pairAddrs (o : OperandRegs) (y xb : Nat) : List Nat :=
  (List.range 4).map fun k => busAddr (tileDst o y xb (2 * k))

/-- Row by row, byte column by byte column, pair by pair, the packed bytes come in the order of their addresses (20 R43). -/
theorem flatMap_pairAddrs (o : OperandRegs) :
    ((List.range 16).flatMap fun y => (List.range 2).flatMap (pairAddrs o y)) = tileWrites o := by
  have hoffsets : List.range 128 =
      (List.range 16).flatMap fun y => (List.range 2).flatMap fun xb =>
        (List.range 4).map fun k => 8 * y + (4 * xb + k) := by decide
  rw [tileWrites, Config.tilePackedBytes, hoffsets]
  simp only [List.map_flatMap, List.map_map]
  refine List.flatMap_congr fun y _ => List.flatMap_congr fun xb _ => List.map_congr_left fun k _ => ?_
  rw [tileDst_even, Nat.add_assoc]
  rfl

theorem nodup_tileReads (o : OperandRegs) : (tileReads o).Nodup := by
  refine List.Nodup.map_on (fun k hk k' hk' e => ?_) List.nodup_range
  have hfit : Config.planes * (tileLayout o).planeSize < Config.memorySize := show 4 * 32 < 2 ^ 32 by decide
  exact busAddr_add_inj ((List.mem_range.1 hk).trans hfit) ((List.mem_range.1 hk').trans hfit) e

theorem nodup_tileWrites (o : OperandRegs) : (tileWrites o).Nodup := by
  refine List.Nodup.map_on (fun k hk k' hk' e => ?_) List.nodup_range
  have hfit : Config.tilePackedBytes < Config.memorySize := by decide
  exact busAddr_add_inj ((List.mem_range.1 hk).trans hfit) ((List.mem_range.1 hk').trans hfit) e

theorem mem_tileReads {o : OperandRegs} {k : Nat} (h : k < 128) : busAddr (o.srcAddr + k) ∈ tileReads o :=
  mem_planarFootprint (l := tileLayout o) h

/-- A byte column reads its four plane bytes, then each of its packed bytes. -/
theorem readAddrs_tileColumn (o : OperandRegs) (m : Memory) (y xb : Nat) :
    (tileColumnAccesses o m y xb).filterMap Access.readAddr? = planeReadAddrs (tileLayout o) y xb ++ pairAddrs o y xb :=
  rfl

/-- A byte column writes each of its packed bytes twice. -/
theorem writeAddrs_tileColumn (o : OperandRegs) (m : Memory) (y xb : Nat) :
    (tileColumnAccesses o m y xb).filterMap Access.writeAddr? = (pairAddrs o y xb).flatMap fun a => [a, a] :=
  rfl

section Counts

variable (p : Instance) {o : OperandRegs} {m : Memory} (hm : Memory.wf m = true) (hc : TileContract o)
include hm hc

/-- TILECONV reads its source bytes and its destination bytes, each once: it makes as many reads as there are such bytes, and
leaves none of them out. -/
theorem tileReads_append_tileWrites_perm_readAddrs : (tileReads o ++ tileWrites o).Perm
    ((commandTrace p .tileconv o m).filterMap Access.readAddr?) := by
  have hnodup : (tileReads o ++ tileWrites o).Nodup :=
    List.nodup_append'.2 ⟨nodup_tileReads o, nodup_tileWrites o, hc⟩
  rw [commandTrace_tileconv p hm hc]
  simp only [List.filterMap_flatMap, readAddrs_tileColumn]
  refine (List.subperm_of_subset hnodup fun a ha => ?_).perm_of_length_le ?_
  · simp only [List.mem_flatMap, List.mem_append]
    rcases List.mem_append.1 ha with hsrc | hdst
    · obtain ⟨k, hk, rfl⟩ := List.mem_map.1 hsrc
      obtain ⟨q, y, xb, hq, hy, hx, e⟩ := exists_planeAddr (l := tileLayout o) rfl (List.mem_range.1 hk)
      exact ⟨y, List.mem_range.2 hy, xb, List.mem_range.2 hx,
        .inl (List.mem_map.2 ⟨q, List.mem_range.2 hq, congrArg busAddr e⟩)⟩
    · rw [← flatMap_pairAddrs] at hdst
      obtain ⟨y, hy, hdst⟩ := List.mem_flatMap.1 hdst
      obtain ⟨xb, hx, hpair⟩ := List.mem_flatMap.1 hdst
      exact ⟨y, hy, xb, hx, .inr hpair⟩
  · simp [List.length_flatMap, length_planeReadAddrs, pairAddrs, tileReads, planarFootprint, tileLayout, tileWrites,
      Config.planes, Config.tilePlaneBytes, Config.tilePackedBytes]

/-- TILECONV writes its destination bytes in the order of their addresses, each twice. -/
theorem writeAddrs_tileconv : (commandTrace p .tileconv o m).filterMap Access.writeAddr? =
    (tileWrites o).flatMap fun a => [a, a] := by
  rw [commandTrace_tileconv p hm hc, ← flatMap_pairAddrs]
  simp only [List.filterMap_flatMap, writeAddrs_tileColumn, List.flatMap_assoc]

end Counts

/-- In a list with every element doubled an element comes twice as often. -/
theorem count_flatMap_pair (l : List Nat) (a : Nat) : (l.flatMap fun x => [x, x]).count a = 2 * l.count a := by
  induction l with
  | nil => rfl
  | cons x l ih =>
    rw [List.flatMap_cons, List.count_append, ih]
    simp only [List.count_cons, List.count_nil]
    omega

end Sys2Proof.Machine

open Sys2Proof Sys2Proof.Machine

/-- Settles O28: the two clauses are the bytes of the write footprint and the bytes outside it. -/
theorem tileconvPacksPixels : Obligations.TileconvPacksPixels := by
  intro s hinv hl ha hc
  obtain ⟨hwf, _⟩ := State.inv_iff.1 hinv
  have hexec := exec_accepts_command ha hl
  refine ⟨_, hexec, rfl, fun y j hy hj => ?packed, fun a hout => exec_mem_other hexec fun hmem => ?outside⟩
  case packed =>
    simp only [commandRun]
    exact tileRun_read s.opnd hwf hc hy hj
  case outside =>
    obtain ⟨k, hk, e⟩ := List.mem_map.1 hmem
    exact hout k (List.mem_range.1 hk) e.symm

/-- Settles O29: the frame of any command, with no operand check and at the footprint of TILECONV. -/
theorem tileconvFrame : Obligations.TileconvFrame := by
  intro s t h
  have hstatus := exec_status h
  refine ⟨exec_opnd h, exec_resetAsserted h, exec_inst h, exec_level h, exec_host h, exec_draws h, ?eOp, ?eParam, ?eBusy,
    ?done, exec_engine h, exec_mem_of_not_run h, fun a ha => exec_mem_other h ha⟩
  case eParam => simp [hstatus, operandsOk]
  all_goals rw [hstatus]

/-- Settles O57: the sequence is that of the columns written out, and the counts are those of the two footprints. -/
theorem tileconvAccessOrder : Obligations.TileconvAccessOrder := by
  intro p o m hm hc
  refine ⟨?sequence, fun k hk => ?counts⟩
  case sequence =>
    rw [commandTrace_tileconv p hm hc]
    refine List.flatMap_congr fun y _ => List.flatMap_congr fun xb _ => ?_
    rw [tileColumnAccesses, planeReads_tile]
    exact congrArg _ (List.flatMap_congr fun k hk => pairAccesses_tile o m y xb (List.mem_range.1 hk))
  case counts =>
    have hsrc : busAddr (o.src.toNat + k) ∈ tileReads o := mem_tileReads hk
    have hdst : busAddr (o.dst.toNat + k) ∈ tileWrites o := mem_tileWrites hk
    have hperm := tileReads_append_tileWrites_perm_readAddrs p hm hc
    have hnotDst := List.count_eq_zero_of_not_mem (hc _ hsrc)
    have hnotSrc := List.count_eq_zero_of_not_mem fun h => hc _ h hdst
    rw [← hperm.count_eq, ← hperm.count_eq, writeAddrs_tileconv p hm hc, count_flatMap_pair, List.count_append,
      List.count_append, hnotDst, hnotSrc, List.count_eq_one_of_mem (nodup_tileReads o) hsrc,
      List.count_eq_one_of_mem (nodup_tileWrites o) hdst]
    exact ⟨rfl, rfl, rfl⟩

end

/-! The clamp of DRAWTILE (42 R110 to R114, R118): what it leaves, the bytes and pixels that are then reached, and a tile that it
leaves nothing of. -/
section
namespace Sys2Proof.Machine

/-! ## What the clamp leaves -/

theorem Clip.empty_iff {c : Clip} : c.empty = true ↔ c.w ≤ 0 ∨ c.h ≤ 0 := by
  simp [Clip.empty]

/-- The packed bytes read in each row of a tile that is not empty (42 R112). -/
theorem Clip.bytes_of_pos {c : Clip} (hw : 0 < c.w) (hh : 0 < c.h) : c.bytes = c.w.toNat / 2 := by
  have hne : ¬ c.empty = true := fun h => by rcases Clip.empty_iff.1 h with h | h <;> omega
  rw [Clip.bytes, if_neg hne, halve]

section

variable (p : Instance) (o : OperandRegs)

/-- The source address of a drawn byte, counted in the tile's own rows and bytes (20 R43, 42 R112). -/
theorem drawSrc_clipTile (r j : Nat) :
    drawSrc (clipTile p o) r j = o.srcAddr + (8 * (topAdvance o + r) + (leftAdvance o + j)) := by
  obtain ⟨_, _, _, _, hsrc⟩ := clipTile_vals p o
  rw [drawSrc, packedAddr, hsrc, Config.tileRowBytes]
  omega

/-- A drawn row is one of the tile's 16 rows (42 R114). -/
theorem topAdvance_add_row_lt {r : Nat} (hr : r < (clipTile p o).rows) : topAdvance o + r < 16 := by
  obtain ⟨_, _, _, hh, _⟩ := clipTile_vals p o
  unfold Clip.rows at hr
  unfold topAdvance
  split_ifs at hr ⊢ <;> omega

/-- A byte read in a row is one of the tile row's 8 bytes (42 R114). -/
theorem leftAdvance_add_byte_lt {j : Nat} (hj : j < (clipTile p o).bytes) : leftAdvance o + j < 8 := by
  obtain ⟨_, _, hw, _, _⟩ := clipTile_vals p o
  unfold Clip.bytes halve at hj
  unfold leftAdvance halve
  split_ifs at hj ⊢ <;> omega

/-- Nothing is left exactly of a tile wholly outside the region (42 R113). -/
theorem clipTile_empty_iff (hW : 1 ≤ p.tilemapW) (hH : 1 ≤ p.tilemapH) :
    ((clipTile p o).w ≤ 0 ∨ (clipTile p o).h ≤ 0) ↔
      (o.xOffset ≤ -16 ∨ (p.tilemapW : Int) ≤ o.xOffset ∨ o.yOffset ≤ -16 ∨ (p.tilemapH : Int) ≤ o.yOffset) := by
  obtain ⟨_, _, hw, hh, _⟩ := clipTile_vals p o
  rw [hw, hh]
  omega

end

/-! ## A tile that nothing is left of -/

section Outside

variable {p : Instance} {o : OperandRegs} (h : (clipTile p o).empty = true)
include h

theorem rows_of_empty : (clipTile p o).rows = 0 := if_pos h

theorem drawStart_of_empty : drawStart p o = .finished := by simp [drawStart, rows_of_empty h]

theorem drawReads_of_empty : drawReads p o = [] := by simp [drawReads, rows_of_empty h]

theorem drawWrites_of_empty : drawWrites p o = [] := by simp [drawWrites, rows_of_empty h]

/-- The footprint of a tile that nothing is left of is empty, so it lies in any populated set (20 R47). -/
theorem footPopulated_drawtile_of_empty : footPopulated p .drawtile o = true := by
  simp [footPopulated, footReads, footWrites, allPopulated, drawReads_of_empty h, drawWrites_of_empty h]

end Outside

end Sys2Proof.Machine

open Sys2Proof Sys2Proof.Machine

/-- Settles O30: the closed forms are those of `clipTile_vals`, and the bounds follow from them. -/
theorem drawtileClampValues : Obligations.DrawtileClampValues := by
  intro p o
  obtain ⟨hx, hy, hw, hh, hsrc⟩ := clipTile_vals p o
  refine ⟨hx, hy, hw, hh, hsrc, ?_, ?_, ?_, ?_, ?_, ?_⟩ <;> omega

/-- Settles O31: a drawn byte is one of the tile's 16 rows of 8, and the drawn rows and columns end inside the region. -/
theorem drawtileClampGuarantee : Obligations.DrawtileClampGuarantee := by
  intro p o _ _
  refine ⟨fun r j hr hj => ⟨_, ?inTile, drawSrc_clipTile p o r j⟩, fun r k hr hk => ⟨_, _, ?column, ?row, rfl⟩⟩
  case inTile =>
    have hrow := topAdvance_add_row_lt p o hr
    have hbyte := leftAdvance_add_byte_lt p o hj
    omega
  all_goals
    obtain ⟨hrows, _, hcolumns, _⟩ := (clip_bounds p o).resolve_right (by omega)
    omega

/-- Settles O32: a tile that nothing is left of has no footprint to refuse, and its sequencer starts at its end. -/
theorem drawtileOutsideIsNoOp : Obligations.DrawtileOutsideIsNoOp := by
  intro s hinst hr hb
  simp only [Instance.wellFormed, Bool.and_eq_true, decide_eq_true_eq] at hinst
  obtain ⟨⟨⟨⟨⟨hW, _⟩, hH⟩, _⟩, _⟩, _⟩ := hinst
  refine ⟨clipTile_empty_iff s.inst s.opnd hW hH, fun hleft => ?_⟩
  have hempty := Clip.empty_iff.2 hleft
  have hstart : commandStart s.inst .drawtile s.opnd = .finished := drawStart_of_empty hempty
  have ha : s.accepts .drawtile = true :=
    State.accepts_iff.2 ⟨hr, hb, rfl, footPopulated_drawtile_of_empty hempty⟩
  exact ⟨commandTrace_of_finished hstart s.mem, fun hl => exec_command_of_finished ha hl hstart,
    fun hl => exec_access_of_finished ha hl hstart⟩

/-- Settles O33: the closed forms of the clamp at `x_offset = -8` and a row inside the region. -/
theorem drawtileBoundaryExample : Obligations.DrawtileBoundaryExample := by
  intro p o hx hW hy hH
  have hleft : leftAdvance o = 4 := by simp [leftAdvance, OperandRegs.xOffset, hx, halve]
  have htop : topAdvance o = 0 := if_neg (not_lt.2 hy)
  obtain ⟨hcx, hcy, hcw, hch, hsrc⟩ := clipTile_vals p o
  simp only [OperandRegs.xOffset, OperandRegs.yOffset, hx] at hcx hcy hcw hch
  have hx0 : (clipTile p o).x = 0 := by omega
  have hy0 : (clipTile p o).y = o.yoff.toInt := by omega
  have hw8 : (clipTile p o).w = 8 := by omega
  have hbytes : (clipTile p o).bytes = 4 := by rw [Clip.bytes_of_pos (by omega) (by omega), hw8]; rfl
  rw [hleft, htop] at hsrc
  refine ⟨hw8, hsrc, hx0, hbytes, fun r j => ?source, fun r k => ?destination⟩
  case source =>
    rw [drawSrc, packedAddr, hsrc]
    rfl
  case destination =>
    rw [drawDst, pixelAddr, hx0, hy0, Int.toNat_zero, Nat.zero_add]
    rfl

end

/-! What DRAWTILE leaves in memory (42 R112, R115), its frame, and its accesses in order (42 R117). -/
section
namespace Sys2Proof.Machine

/-! ## The addresses of the footprint -/

/-- A grid of distinct values, row by row, repeats none. -/
theorem nodup_flatMap_map_range {f : Nat → Nat → Nat} {R B : Nat}
    (hinj : ∀ y x y' x', y < R → x < B → y' < R → x' < B → f y x = f y' x' → y = y' ∧ x = x') :
    ((List.range R).flatMap fun y => (List.range B).map (f y)).Nodup := by
  have hprod : ((List.range R).flatMap fun y => (List.range B).map (f y)) =
      (List.range R ×ˢ List.range B).map fun q => f q.1 q.2 := by
    simp [SProd.sprod, List.product, List.map_flatMap, Function.comp_def]
  rw [hprod]
  refine List.Nodup.map_on (fun q hq q' hq' e => ?_) (List.nodup_range.product List.nodup_range)
  obtain ⟨hy, hx⟩ := List.pair_mem_product.1 hq
  obtain ⟨hy', hx'⟩ := List.pair_mem_product.1 hq'
  simp only [List.mem_range] at hy hx hy' hx'
  obtain ⟨ey, ex⟩ := hinj _ _ _ _ hy hx hy' hx' e
  exact Prod.ext ey ex

/-- The numbers below `2 n`, pair by pair. -/
theorem range_two_mul (n : Nat) : List.range (2 * n) = (List.range n).flatMap fun j => [2 * j, 2 * j + 1] := by
  induction n with
  | zero => rfl
  | succ n ih => simp [Nat.mul_succ, List.range_succ, ih]

/-- The source bytes of the footprint (20 R58) are distinct: they lie in the tile's 128 bytes. -/
theorem nodup_drawReads (p : Instance) (o : OperandRegs) : (drawReads p o).Nodup := by
  refine nodup_flatMap_map_range fun r j r' j' hr hj hr' hj' e => ?_
  have hrow := topAdvance_add_row_lt p o hr
  have hrow' := topAdvance_add_row_lt p o hr'
  have hbyte := leftAdvance_add_byte_lt p o hj
  have hbyte' := leftAdvance_add_byte_lt p o hj'
  rw [drawSrc_clipTile, drawSrc_clipTile] at e
  have := busAddr_add_inj (by rw [Config.memorySize]; omega) (by rw [Config.memorySize]; omega) e
  omega

/-- Under the caller's contract the destination bytes of the footprint are distinct (42 R116). -/
theorem nodup_drawWrites {p : Instance} {o : OperandRegs} (hc : DrawContract p o) : (drawWrites p o).Nodup := by
  obtain ⟨hW, hroom, _⟩ := hc
  refine nodup_flatMap_map_range fun r k r' k' hr hk hr' hk' e => ?_
  obtain ⟨hrows, _, hcolumns, _⟩ := (clip_bounds p o).resolve_right (by omega)
  have := pixelAddr_inj hW hroom (by omega) (by omega) (by omega) (by omega) e
  omega

theorem mem_drawReads_iff {p : Instance} {o : OperandRegs} {a : Nat} : a ∈ drawReads p o ↔
    ∃ r j, r < (clipTile p o).rows ∧ j < (clipTile p o).bytes ∧ a = busAddr (drawSrc (clipTile p o) r j) := by
  constructor
  · intro ha
    obtain ⟨r, hr, ha⟩ := List.mem_flatMap.1 ha
    obtain ⟨j, hj, rfl⟩ := List.mem_map.1 ha
    exact ⟨r, j, List.mem_range.1 hr, List.mem_range.1 hj, rfl⟩
  · rintro ⟨r, j, hr, hj, rfl⟩
    exact mem_drawReads hr hj

/-- The destination bytes of the footprint, packed byte by packed byte. -/
theorem drawWrites_eq_flatMap_pairs (p : Instance) (o : OperandRegs) : drawWrites p o =
    (List.range (clipTile p o).rows).flatMap fun r => (List.range (clipTile p o).bytes).flatMap fun j =>
      [busAddr (drawDst o (clipTile p o) r (2 * j)), busAddr (drawDst o (clipTile p o) r (2 * j + 1))] := by
  simp [drawWrites, range_two_mul, List.map_flatMap]

/-! ## The accesses of DRAWTILE in order -/

theorem toList_nibbleAccess (a : Nat) (n : Colour) :
    (nibbleAccess a n).toList = if n ≠ 0 then [.write (busAddr a) (pixelByte n)] else [] := by
  unfold nibbleAccess
  split <;> rfl

/-- The accesses of packed byte `j` of drawn row `r` (42 R117): its read, then its nibbles in `m` that are not 0, the high one
first. -/
def drawByteAccesses (o : OperandRegs) (c : Clip) (m : Memory) (r j : Nat) : List Access :=
  .read (busAddr (drawSrc c r j)) ::
    ((nibbleAccess (drawDst o c r (2 * j)) (highNibble (memRead m (drawSrc c r j)))).toList ++
      (nibbleAccess (drawDst o c r (2 * j + 1)) (lowNibble (memRead m (drawSrc c r j)))).toList)

/-- A packed byte reads its source byte and no other. -/
theorem readAddrs_drawByteAccesses (o : OperandRegs) (c : Clip) (m : Memory) (r j : Nat) :
    (drawByteAccesses o c m r j).filterMap Access.readAddr? = [busAddr (drawSrc c r j)] := by
  have hnibble (a : Nat) (n : Colour) : (nibbleAccess a n).toList.filterMap Access.readAddr? = [] := by
    rw [toList_nibbleAccess]
    split <;> rfl
  simp [drawByteAccesses, Access.readAddr?, hnibble]

/-- A packed byte writes at most its two columns, in order. -/
theorem writeAddrs_drawByteAccesses_sublist (o : OperandRegs) (c : Clip) (m : Memory) (r j : Nat) :
    ((drawByteAccesses o c m r j).filterMap Access.writeAddr?).Sublist
      [busAddr (drawDst o c r (2 * j)), busAddr (drawDst o c r (2 * j + 1))] := by
  have hnibble (a : Nat) (n : Colour) :
      ((nibbleAccess a n).toList.filterMap Access.writeAddr?).Sublist [busAddr a] := by
    rw [toList_nibbleAccess]
    split
    · exact List.Sublist.refl _
    · exact List.nil_sublist _
  rw [drawByteAccesses, List.filterMap_cons_none rfl, List.filterMap_append]
  exact (hnibble _ _).append (hnibble _ _)

/-- What a filter keeps of the accesses of a whole run, row by row and byte by byte, if every memory with `P` gives the byte the
accesses `T` says and every byte keeps `P`. -/
theorem filterMap_commandTrace_drawtile {β : Type} (g : Access → Option β) (p : Instance) (o : OperandRegs)
    {P : Memory → Prop} {T : Nat → Nat → List β}
    (hP : ∀ r j m, r < (clipTile p o).rows → j < (clipTile p o).bytes → P m → P (drawByte o (clipTile p o) r j m))
    (hT : ∀ r j m, r < (clipTile p o).rows → j < (clipTile p o).bytes → P m →
      (drawByteAccesses o (clipTile p o) m r j).filterMap g = T r j) {m : Memory} (hm : P m) :
    (commandTrace p .drawtile o m).filterMap g =
      (List.range (clipTile p o).rows).flatMap fun r => (List.range (clipTile p o).bytes).flatMap fun j => T r j := by
  by_cases h0 : (clipTile p o).rows = 0 ∨ (clipTile p o).bytes = 0
  · have hstart : commandStart p .drawtile o = .finished := by simp [commandStart, drawStart, h0]
    rw [commandTrace_of_finished hstart]
    rcases h0 with h0 | h0 <;> simp [h0]
  · have hstart : acceptedRun p .drawtile o = (acceptedRun p .drawtile o).at (.packed (clipTile p o) 0 0) := by
      simp [acceptedRun, commandStart, drawStart, h0]
    rw [commandTrace_eq, hstart]
    refine trace_loops g (draw_columns (acceptedRun p .drawtile o) _) (Nat.pos_of_ne_zero (not_or.1 h0).2) hP
      (fun r j m' hr hj hm' => ?_) hm
    rw [trace_drawByte]
    exact hT r j m' hr hj hm'

/-- With the bytes read and the bytes written disjoint no packed byte writes a source byte (42 R116). -/
theorem drawByte_keeps_source {p : Instance} {o : OperandRegs} (hdis : DisjointAddrs (drawReads p o) (drawWrites p o))
    {r j a : Nat} (hr : r < (clipTile p o).rows) (hj : j < (clipTile p o).bytes) (m : Memory)
    (ha : busAddr a ∈ drawReads p o) : memRead (drawByte o (clipTile p o) r j m) a = memRead m a :=
  drawByte_read_other _ _ _ _ _ fun _ hk e => hdis _ ha (e ▸ mem_drawWrites hr (by omega))

/-- The whole sequence, rows and packed bytes ascending, with the source bytes of the memory at the start. -/
theorem commandTrace_drawtile {p : Instance} {o : OperandRegs} (m : Memory)
    (hdis : DisjointAddrs (drawReads p o) (drawWrites p o)) :
    commandTrace p .drawtile o m =
      (List.range (clipTile p o).rows).flatMap fun r =>
        (List.range (clipTile p o).bytes).flatMap (drawByteAccesses o (clipTile p o) m r) := by
  rw [← List.filterMap_some (l := commandTrace _ _ _ _)]
  refine filterMap_commandTrace_drawtile some p o
    (P := fun m' => ∀ a, busAddr a ∈ drawReads p o → memRead m' a = memRead m a)
    (fun r j m' hr hj hm' a ha => ?keep) (fun r j m' hr hj hm' => ?byte) (fun _ _ => rfl)
  case keep => exact (drawByte_keeps_source hdis hr hj m' ha).trans (hm' a ha)
  case byte => rw [List.filterMap_some, drawByteAccesses, hm' _ (mem_drawReads hr hj), drawByteAccesses]

/-- In any memory DRAWTILE reads the source bytes of its footprint, in their order. -/
theorem readAddrs_drawtile (p : Instance) (o : OperandRegs) (m : Memory) :
    (commandTrace p .drawtile o m).filterMap Access.readAddr? = drawReads p o := by
  rw [filterMap_commandTrace_drawtile Access.readAddr? p o (P := fun _ => True) (fun _ _ _ _ _ _ => trivial)
    (fun r j m' _ _ _ => readAddrs_drawByteAccesses o (clipTile p o) m' r j) trivial]
  simp only [drawReads, List.map_eq_flatMap]

/-- DRAWTILE writes some of the destination bytes of its footprint, in their order. -/
theorem writeAddrs_drawtile_sublist {p : Instance} {o : OperandRegs} (m : Memory)
    (hdis : DisjointAddrs (drawReads p o) (drawWrites p o)) :
    ((commandTrace p .drawtile o m).filterMap Access.writeAddr?).Sublist (drawWrites p o) := by
  rw [commandTrace_drawtile m hdis, drawWrites_eq_flatMap_pairs]
  simp only [List.filterMap_flatMap]
  exact List.Sublist.flatMap_right _ fun r _ => List.Sublist.flatMap_right _ fun j _ =>
    writeAddrs_drawByteAccesses_sublist _ _ m r j

end Sys2Proof.Machine

open Sys2Proof Sys2Proof.Machine

/-- Settles O34: the two clauses are the bytes of the drawn columns and the bytes outside the write footprint. -/
theorem drawtileDrawsNonzeroNibbles : Obligations.DrawtileDrawsNonzeroNibbles := by
  intro s hinv hl ha hc
  obtain ⟨hwf, _⟩ := State.inv_iff.1 hinv
  have hexec := exec_accepts_command ha hl
  exact ⟨_, hexec, rfl, fun r k hr hk => drawRun_read s.inst s.opnd hwf hc hr hk, fun a hout => exec_mem_other hexec hout⟩

/-- Settles O35: the frame of any command, with no operand check and at the footprint of DRAWTILE. -/
theorem drawtileFrame : Obligations.DrawtileFrame := by
  intro s t h
  have hstatus := exec_status h
  exact ⟨exec_opnd h, exec_resetAsserted h, exec_inst h, exec_level h, exec_host h, exec_draws h, by rw [hstatus],
    by simp [hstatus, operandsOk], by rw [hstatus], by rw [hstatus], exec_engine h, exec_mem_of_not_run h,
    fun a ha => exec_mem_other h ha⟩

/-- Settles O58: the sequence is that of the packed bytes written out; the reads are the source footprint, and the writes come from
the destination footprint, in order. -/
theorem drawtileAccessOrder : Obligations.DrawtileAccessOrder := by
  intro p o m
  rw [readAddrs_drawtile]
  refine ⟨fun hdis => ?sequence, nodup_drawReads p o, fun a => mem_drawReads_iff,
    fun hc => ⟨?once, fun a hw hr => ?apart⟩⟩
  case sequence =>
    rw [commandTrace_drawtile m hdis]
    refine List.flatMap_congr fun r _ => List.flatMap_congr fun j _ => ?_
    rw [drawByteAccesses, toList_nibbleAccess, toList_nibbleAccess]
    rfl
  case once =>
    have hnodup := nodup_drawWrites hc
    obtain ⟨_, _, hdis⟩ := hc
    exact hnodup.sublist (writeAddrs_drawtile_sublist m hdis)
  case apart =>
    obtain ⟨_, _, hdis⟩ := hc
    exact hdis a hr hw

end

/-! What a write to CMD or to an operand register does to a running block (60 R124, R125): it is discarded with E_BUSY, and the run
completes as it would without it. -/
section
namespace Sys2Proof.Machine

/-! ## The discarded write -/

/-- At the offsets 0x08 to 0x24 stand the operand registers (10 R11). -/
theorem exists_regAt_eq_operand {off : Nat} (h4 : off % 4 = 0) (hlo : 0x08 ≤ off) (hhi : off ≤ 0x24) :
    ∃ n, regAt off = .operand n := by
  have hoff : off = 0x08 ∨ off = 0x0C ∨ off = 0x10 ∨ off = 0x14 ∨ off = 0x18 ∨ off = 0x1C ∨ off = 0x20 ∨ off = 0x24 := by
    omega
  rcases hoff with rfl | rfl | rfl | rfl | rfl | rfl | rfl | rfl <;> exact ⟨_, rfl⟩

theorem State.raise_eBusy (s : State) : s.raise .eBusy = { s with status := { s.status with eBusy := true } } := by
  rw [State.raise, Status.update_raise_eBusy]

section Busy

variable {s : State} (hr : s.resetAsserted = false) (hb : s.busy = true)
include hr hb

theorem State.writeOperand_busy (n : OperandName) (v : Word) : s.writeOperand n v = s.raise .eBusy := by
  simp [State.writeOperand, hr, hb]

/-- Any word on CMD, a command's or a reserved one. -/
theorem State.presentWord_busy (v : Word) : s.presentWord v = .next (s.raise .eBusy) := by
  cases hd : decode v with
  | ok i => rw [State.presentWord_of_command s hd, exec_busy i hr hb]
  | error why => rw [State.presentWord_of_reserved s hd]; simp [State.rejectReserved, hr, hb]

/-- A write at offset 0 or 0x08 to 0x24 sets E_BUSY and nothing else. -/
theorem step_regWrite_busy {off : Nat} {v : Word} {q : List HostEvent} (h4 : off % 4 = 0)
    (hoff : off = 0x00 ∨ (0x08 ≤ off ∧ off ≤ 0x24)) (hq : s.host.queue = .regWrite (s.inst.regBase + off) .word v :: q) :
    step s = .next { s.withQueue q with status := { s.status with eBusy := true } } := by
  rw [step_regWrite h4 (by omega) hq]
  have hdiscard : (s.withQueue q).writeReg (regAt off) v = .next ((s.withQueue q).raise .eBusy) := by
    rcases hoff with rfl | ⟨hlo, hhi⟩
    · exact State.presentWord_busy (s := s.withQueue q) hr hb v
    · obtain ⟨n, hn⟩ := exists_regAt_eq_operand h4 hlo hhi
      rw [hn, State.writeReg, State.writeOperand_busy (s := s.withQueue q) hr hb]
  rw [hdiscard, State.raise_eBusy]
  rfl

end Busy

/-- A write to STATUS or to a reserved offset leaves the engine and sets no E_BUSY. -/
theorem step_regWrite_noError {s : State} {off : Nat} {v : Word} {q : List HostEvent} (h4 : off % 4 = 0) (h64 : off < 64)
    (hoff : off = 0x04 ∨ 0x28 ≤ off) (hq : s.host.queue = .regWrite (s.inst.regBase + off) .word v :: q) :
    ∃ t, step s = .next t ∧ t.engine = s.engine ∧ (t.status.eBusy = true → s.status.eBusy = true) := by
  rw [step_regWrite h4 h64 hq]
  rcases hoff with rfl | hres
  · refine ⟨(s.withQueue q).writeStatus v, rfl, rfl, fun hset => ?_⟩
    simp only [State.writeStatus_status, Status.update_eBusy, Status.none, Bool.false_or, Bool.and_eq_true] at hset
    exact hset.1
  · rw [regAt_reserved hres]
    exact ⟨s.withQueue q, rfl, rfl, id⟩

/-! ## The run goes on -/

theorem State.scramble_withStatus (s : State) (f : Status) (l : List Nat) :
    State.scramble { s with status := f } l = { s.scramble l with status := f } := by
  induction l generalizing s with
  | nil => rfl
  | cons a l ih => exact ih (s.freeByteAt a)

theorem State.settleBreach_withStatus (s : State) (f : Status) (r : Run) :
    State.settleBreach { s with status := f } r = { s.settleBreach r with status := f } := by
  unfold State.settleBreach
  split
  · exact s.scramble_withStatus f _
  · rfl

/-- A run completes in as many steps with E_BUSY set as without, and in the same state but for that bit. -/
theorem run_completes_withEBusy {s : State} {r : Run} (hq : s.host.queue = []) (he : s.engine = .running r)
    (hpos : r.posOk s.inst = true) :
    ∃ n u, Host.Core.run Sys2Proof.core n s = .next u ∧ u.busy = false ∧ u.status.done = true ∧
      Host.Core.run Sys2Proof.core n { s with status := { s.status with eBusy := true } } =
        .next { u with status := { u.status with eBusy := true } } := by
  obtain ⟨n, hend, hbefore⟩ := moves_end s.mem hpos
  have hraised := run_to_completion (s := { s with status := { s.status with eBusy := true } }) hq he hend hbefore
  refine ⟨n + 1, _, run_to_completion hq he hend hbefore, rfl, by simp [doneBits], hraised.trans ?_⟩
  have hstatus := State.settleBreach_withStatus
    { s with mem := (moves n r s.mem).2, engine := .running (moves n r s.mem).1 } { s.status with eBusy := true }
    (moves n r s.mem).1
  rw [hstatus, State.complete_eq, State.complete_eq]
  simp

/-- With no access left `turn` is the completion of an undisturbed run (30 R74). -/
theorem step_turn_finished {s : State} {r : Run} {q : List HostEvent} (hq : s.host.queue = .turn :: q)
    (he : s.engine = .running r) (hf : r.pos = .finished) (hbr : r.breached = false) :
    step s = .next (s.withQueue q).complete := by
  rw [step_cons hq, State.hostAct, State.engineTurn_finished (s := s.withQueue q) he hf,
    State.settleBreach_of_not_breached _ hbr]

end Sys2Proof.Machine

open Sys2Proof.Machine

/-- Settles O7: the discarded write is one more step before a run that differs from the undisturbed one in E_BUSY alone. -/
theorem busyWritesDiscarded : Obligations.BusyWritesDiscarded := by
  refine ⟨fun s off v q hinv hb h4 h64 hq => ?writes, fun s off q _ h4 h64 hq => ?reads,
    fun s off v hinv hb h4 hoff hq => ?completes, fun s => statusWordBits s 6⟩
  case writes =>
    obtain ⟨r, he⟩ := State.busy_eq_true.1 hb
    have hr := State.released_of_running hinv he
    exact ⟨fun hoff => step_regWrite_busy hr hb h4 hoff hq, fun hoff => step_regWrite_noError h4 h64 hoff hq⟩
  case reads => exact ⟨_, step_regRead h4 h64 hq, rfl, rfl⟩
  case completes =>
    obtain ⟨r, he⟩ := State.busy_eq_true.1 hb
    obtain ⟨_, _, hengine, _⟩ := State.inv_iff.1 hinv
    rw [he] at hengine
    obtain ⟨_, _, _, hpos⟩ := Run.ok_iff.1 hengine
    obtain ⟨n, u, hrun, hidle, hdone, hraised⟩ := run_completes_withEBusy (s := s.withQueue []) rfl he hpos
    have hstep := step_regWrite_busy (State.released_of_running hinv he) hb h4 hoff hq
    exact ⟨n, u, _, hrun, hidle, hdone, (run_next hstep n).trans hraised, rfl, (statusWordBits _ 0).trans hidle,
      (statusWordBits _ 1).trans hdone, statusWordBits _ 6⟩

/-- Settles O45: the write that comes first finds the block busy, the one that comes second finds it idle. -/
theorem writeAgainstCompletionRace : Obligations.WriteAgainstCompletionRace := by
  intro s r n v hr he hf hbr
  have hb : s.busy = true := State.busy_eq_true.2 ⟨r, he⟩
  refine ⟨fun hq => ?writeFirst, fun hq => ?completionFirst⟩
  case writeFirst =>
    have hwrite : step s = .next ((s.withQueue [.turn]).writeOperand n v) := step_wr hq
    rw [State.writeOperand_busy (s := s.withQueue [.turn]) hr hb] at hwrite
    have hturn := step_turn_finished (s := (s.withQueue [.turn]).raise .eBusy) rfl he hf hbr
    refine ⟨_, (run_next hwrite 1).trans (run_next hturn 0), rfl, ?_⟩
    simp [cmdErrorBits, doneBits, Status.none]
  case completionFirst =>
    have hwrite := step_wr (s := (s.withQueue [wr s.inst (.operand n) v]).complete) (r := .operand n) (v := v) rfl
    refine ⟨_, (run_next (step_turn_finished hq he hf hbr) 1).trans (run_next hwrite 0), ?_⟩
    simp [State.writeOperand, State.busy, hr, doneBits, Status.none]

end

/-! The operand check of a command (60 R123): DECODE alone has one, on the low bits of WIDTH. -/
section
namespace Sys2Proof.Machine

theorem operandsOk_eq_false_iff {i : Instr} {o : OperandRegs} :
    operandsOk i o = false ↔ i = .decode ∧ o.width.toNat % 8 ≠ 0 := by
  cases i with
  | decode => rw [← Bool.not_eq_true, operandsOk_decode]; simp [OperandRegs.widthPixels]
  | tileconv | drawtile => simp [operandsOk]

/-- A multiple of 8 is a value whose three low bits are 0. -/
theorem toNat_mod_eight_eq_zero_iff (w : Half) : w.toNat % 8 = 0 ↔ w.extractLsb' 0 3 = 0#3 := by
  rw [← BitVec.toNat_inj, BitVec.extractLsb'_toNat]
  simp

end Sys2Proof.Machine

open Sys2Proof Sys2Proof.Machine

/-- Settles O15: bad operands are those of DECODE alone, and no other answer of a command touches E_PARAM. -/
theorem badWidthRejected : Obligations.BadWidthRejected := by
  refine ⟨fun s q hq hr hb hw => ?rejected, fun o => not_congr (toNat_mod_eight_eq_zero_iff o.width),
    fun i s t h hset => ?onlyCause, fun s => statusWordBits s 5⟩
  case rejected =>
    rw [step_cmdWrite_command hq (i := .decode) rfl,
      exec_badOperands (s := s.withQueue q) hr hb (operandsOk_eq_false_iff.2 ⟨rfl, hw⟩), State.raise, State.clearDone]
    simp only [Status.update_clearDone, Status.update_raise_eParam]
    rfl
  case onlyCause =>
    simp only [exec_status h, Bool.or_eq_true, Bool.and_eq_true, Bool.not_eq_true'] at hset
    rcases hset with hold | ⟨⟨hr, hb⟩, ho⟩
    · left; exact hold
    · obtain ⟨hi, hw⟩ := operandsOk_eq_false_iff.1 ho
      right; exact ⟨hi, hr, hb, hw⟩

end

/-! Everything a step of an idle block can do to its engine and to memory (60 R133). -/
section
namespace Sys2Proof.Machine

/-- A register write changes the engine and memory only as the presentation of a command (30 R72). -/
theorem writeReg_engine_mem {s t : State} {r : Reg} {v : Word} (h : s.writeReg r v = .next t) :
    (r = .cmd ∧ ∃ i, v = encode i ∧ exec i s = .next t) ∨ (t.engine = s.engine ∧ t.mem = s.mem) := by
  cases r with
  | cmd =>
    rcases presentWord_next h with ⟨i, hd, hexec⟩ | ⟨_, rfl⟩
    · left; exact ⟨rfl, i, decode_eq_ok_iff.1 hd, hexec⟩
    · right; exact ⟨s.rejectReserved_engine, s.rejectReserved_mem⟩
  | status => right; obtain rfl := Host.Outcome.next.inj h; exact ⟨rfl, rfl⟩
  | operand n =>
    right
    obtain rfl := Host.Outcome.next.inj h
    exact ⟨s.writeOperand_engine n v, s.writeOperand_mem n v⟩
  | reserved => right; obtain rfl := Host.Outcome.next.inj h; exact ⟨rfl, rfl⟩

theorem State.driveReset_idle_mem {s : State} (hidle : s.engine = .idle) (b : Bool) :
    (s.driveReset b).engine = .idle ∧ (s.driveReset b).mem = s.mem := by
  rcases s.driveReset_cases b with ⟨hb, _⟩ | ⟨_, _, e⟩
  · rw [State.driveReset_idle hidle hb]; exact ⟨rfl, rfl⟩
  · rw [e]; exact ⟨hidle, rfl⟩

/-- A step of an idle block presents a command, or leaves the engine idle, and memory too but for another agent's write. -/
theorem step_idle_cases {s t : State} (hb : s.busy = false) (h : step s = .next t) :
    (∃ e v i q, s.nextIs e ∧ eventWrites s.inst e .cmd v ∧ v = encode i ∧ exec i (s.withQueue q) = .next t) ∨
    (t.engine = .idle ∧ (t.mem = s.mem ∨ ∃ a v, s.nextIs (.memWrite a v))) := by
  have hidle := State.busy_eq_false.1 hb
  rcases step_next_cases h with ⟨_, rfl⟩ | ⟨e, q, hq, hact⟩
  · right; rw [engineTurn_idle hb]; exact ⟨hidle, .inl rfl⟩
  · have hnext : s.nextIs e := by simp [State.nextIs, hq]
    rcases hact with ⟨r, v, hw, h⟩ | ⟨_, _, _, rfl⟩ | ⟨b, _, rfl⟩ | ⟨a, v, rfl, h⟩ | ⟨_, _, h⟩ | ⟨_, rfl⟩ | ⟨_, rfl⟩
    · rcases writeReg_engine_mem h with ⟨rfl, i, hv, hexec⟩ | ⟨hengine, hmem⟩
      · left; exact ⟨e, v, i, q, hnext, hw, hv, hexec⟩
      · right; exact ⟨hengine.trans hidle, .inl hmem⟩
    · right; exact ⟨hidle, .inl rfl⟩
    · right
      obtain ⟨hengine, hmem⟩ := State.driveReset_idle_mem (s := s.withQueue q) hidle b
      exact ⟨hengine, .inl hmem⟩
    · right
      obtain ⟨_, rfl⟩ := foreignWrite_next h
      exact ⟨by simp [hidle, Engine.afterForeignWrite], .inr ⟨a, v, hnext⟩⟩
    · right; obtain ⟨_, _, rfl⟩ := foreignRead_next h; exact ⟨hidle, .inl rfl⟩
    · right; rw [engineTurn_idle (s := s.withQueue q) hb]; exact ⟨hidle, .inl rfl⟩
    · right; rw [waitStep_idle (s := s.withQueue q) hb]; exact ⟨hidle, .inl rfl⟩

/-- A command that makes an idle block busy was accepted, and its run is at the start of its loops (10 R24, R25). -/
theorem exec_starts {i : Instr} {s t : State} (hb : s.busy = false) (h : exec i s = .next t) (ht : t.busy = true) :
    s.accepts i = true ∧ t.engine = .running (acceptedRun s.inst i s.opnd) := by
  have hengine := exec_engine h
  split at hengine <;> rename_i hcond
  · rw [Bool.and_eq_true] at hcond
    exact ⟨hcond.1, hengine⟩
  · rw [State.busy, hengine] at ht
    exact absurd (hb.symm.trans ht) Bool.false_ne_true

end Sys2Proof.Machine

open Sys2Proof.Machine

/-- Settles O51: the step that starts the engine presents a command, and that command starts it. -/
theorem engineStartsOnlyByCommand : Obligations.EngineStartsOnlyByCommand := by
  intro s t hb h ht
  rcases step_idle_cases hb h with ⟨e, v, i, q, hnext, hw, hv, hexec⟩ | ⟨hidle, _⟩
  · obtain ⟨ha, hengine⟩ := exec_starts (s := s.withQueue q) hb hexec ht
    exact ⟨e, v, i, hnext, hw, hv, ha, hengine⟩
  · exact absurd ((State.busy_eq_false.2 hidle).symm.trans ht) Bool.false_ne_true

/-- Settles O52: the two cases that are left once memory has changed. -/
theorem idleBlockLeavesMemory : Obligations.IdleBlockLeavesMemory := by
  intro s t hb h hne
  rcases step_idle_cases hb h with ⟨e, v, i, _, hnext, hw, hv, _⟩ | ⟨_, hmem | hwrite⟩
  · left; exact ⟨e, v, i, hnext, hw, hv⟩
  · exact absurd hmem hne
  · right; exact hwrite

end

/-! Nothing happens to an idle block by itself (70 R140, 60 R133). -/
section

open Sys2Proof.Machine

/-- Settles O44: the step is the engine's move, and an idle engine makes none. -/
theorem idleBlockStandsStill : Obligations.IdleBlockStandsStill := by
  intro s hb hq
  rw [step_nil hq, engineTurn_idle hb]

end

/-! What another agent does to pixel memory while a command runs (70 R146, 10 R29). -/
section
namespace Sys2Proof.Machine

/-- Memory after a write of the byte at a bus address: that byte and no other has changed. -/
theorem memRead_memWrite_toNat {m : Memory} (h : Memory.wf m = true) (a : Word) (v : Byte) (b : Nat) :
    memRead (memWrite m a.toNat v) b = if busAddr b = a.toNat then v else memRead m b := by
  simp only [memRead_memWrite h, busAddr_of_lt a.isLt, eq_comm]

section Footprint

variable {p : Instance} {r : Run} {a : Nat}

theorem Engine.afterForeignWrite_inside (h : a ∈ r.reads p ∨ a ∈ r.writes p) :
    (Engine.running r).afterForeignWrite p a = .running { r with breached := true } := by
  rcases h with h | h <;> simp [Engine.afterForeignWrite, h]

theorem Engine.afterForeignWrite_outside (h : a ∉ r.reads p ∧ a ∉ r.writes p) :
    (Engine.running r).afterForeignWrite p a = .running r := by
  simp [Engine.afterForeignWrite, h]

theorem Engine.mayWrite_running : (Engine.running r).mayWrite p a = true ↔ a ∈ r.writes p := by
  simp [Engine.mayWrite]

end Footprint

section

variable {s : State} {a : Word} {q : List HostEvent} (hp : populatedAt s.inst a.toNat = true)
include hp

theorem step_memWrite {v : Byte} (hq : s.host.queue = .memWrite a v :: q) :
    step s = .next { s.withQueue q with
      mem := memWrite s.mem a.toNat v, engine := s.engine.afterForeignWrite s.inst a.toNat } := by
  rw [step_cons hq]
  exact if_pos hp

/-- A read of a byte that no running command may write (93 U6). -/
theorem step_memRead_outside (hq : s.host.queue = .memRead a :: q) (hw : ¬ s.engine.mayWrite s.inst a.toNat = true) :
    step s = .next { s with host := { s.host with queue := q, memData := memRead s.mem a.toNat } } := by
  rw [step_cons hq]
  exact (if_pos hp).trans (if_neg hw)

/-- A read of a byte that the running command may write (93 U6; log entry 18). -/
theorem step_memRead_inside (hq : s.host.queue = .memRead a :: q) (hw : s.engine.mayWrite s.inst a.toNat = true) :
    step s = .next { s with
      host := { s.host with queue := q, memData := Config.freeByte s.draws }, draws := s.draws + 1 } := by
  rw [step_cons hq]
  exact (if_pos hp).trans (if_pos hw)

end

end Sys2Proof.Machine

open Sys2Proof Sys2Proof.Machine

/-- Settles O59: the write stores its byte in canonical memory, and both accesses ask the run for its footprint. -/
theorem foreignAccessDuringRun : Obligations.ForeignAccessDuringRun := by
  intro s r a q hinv he hp
  obtain ⟨hwf, _⟩ := State.inv_iff.1 hinv
  have hwrites : s.engine.mayWrite s.inst a.toNat = true ↔ a.toNat ∈ r.writes s.inst := by
    rw [he, Engine.mayWrite_running]
  refine ⟨fun v hq => ⟨_, step_memWrite hp hq, rfl, memRead_memWrite_toNat hwf a v, fun hin => ?inside, fun hout => ?outside⟩,
    fun hq => ⟨fun hw => step_memRead_outside hp hq (mt hwrites.1 hw),
      fun hw => step_memRead_inside hp hq (hwrites.2 hw)⟩⟩
  case inside => rw [he, Engine.afterForeignWrite_inside hin]
  case outside => rw [he, Engine.afterForeignWrite_outside hout]

end

/-! The bytes outside the write footprint of a run (20 R58): no move of it, no breach and no reset changes one. -/
section
namespace Sys2Proof.Machine

/-- The bytes of a write footprint are addresses of the bus (20 R48). -/
theorem Run.busAddr_of_mem_writes {p : Instance} {r : Run} {a : Nat} (h : a ∈ r.writes p) : busAddr a = a := by
  suffices ∃ b, a = busAddr b by
    obtain ⟨b, rfl⟩ := this
    exact busAddr_busAddr b
  cases hop : r.op with
  | decode =>
    rw [Run.writes_decode p hop] at h
    obtain ⟨_, _, _, _, e⟩ := mem_decodeWrites_iff.1 h
    exact ⟨_, e⟩
  | tileconv =>
    rw [Run.writes_tileconv p hop] at h
    obtain ⟨_, _, e⟩ := List.mem_map.1 h
    exact ⟨_, e.symm⟩
  | drawtile =>
    rw [Run.writes_drawtile p hop] at h
    obtain ⟨_, _, h⟩ := List.mem_flatMap.1 h
    obtain ⟨_, _, e⟩ := List.mem_map.1 h
    exact ⟨_, e.symm⟩

section Outside

variable {p : Instance} {r : Run} {a : Nat}

theorem State.scramble_writes_read_other (s : State) (h : busAddr a ∉ r.writes p) :
    memRead (s.scramble (r.writes p)).mem a = memRead s.mem a :=
  s.scramble_read_other h fun _ => Run.busAddr_of_mem_writes

theorem State.settleBreach_read_other (s : State) (h : busAddr a ∉ r.writes s.inst) :
    memRead (s.settleBreach r).mem a = memRead s.mem a := by
  unfold State.settleBreach
  split
  · exact s.scramble_writes_read_other h
  · rfl

theorem State.resetBlock_read_other {s : State} (he : s.engine = .running r) (h : busAddr a ∉ r.writes s.inst) :
    memRead s.resetBlock.mem a = memRead s.mem a := by
  rw [State.resetBlock, he]
  exact s.scramble_writes_read_other h

/-- The next access of a run leaves every byte outside its write footprint. -/
theorem Run.portMem_access_read_other (hpos : r.posOk p = true) (h : busAddr a ∉ r.writes p) (m : Memory) :
    memRead (portMem m r.access) a = memRead m a := by
  unfold portMem
  split <;> rename_i hacc
  · have hw := Run.mayMake_access hpos hacc
    exact memRead_memWrite_other _ _ fun e => h (e ▸ (Run.busAddr_of_mem_writes hw).symm ▸ hw)
  · rfl

/-- So do all of its moves. -/
theorem moves_read_other (n : Nat) (m : Memory) (hpos : r.posOk p = true) (h : busAddr a ∉ r.writes p) :
    memRead (moves n r m).2 a = memRead m a := by
  induction n generalizing r m with
  | zero => rfl
  | succ n ih => exact (ih _ (posOk_advance m hpos) h).trans (Run.portMem_access_read_other hpos h m)

end Outside

/-- With an empty queue a run completes, whether breached or not, and leaves every byte outside its write footprint. -/
theorem run_completes_read_other {s : State} {r : Run} (hq : s.host.queue = []) (he : s.engine = .running r)
    (hpos : r.posOk s.inst = true) :
    ∃ n t, Host.Core.run Sys2Proof.core n s = .next t ∧ t.busy = false ∧ t.status.done = true ∧ t.opnd = s.opnd ∧
      ∀ a, busAddr a ∉ r.writes s.inst → memRead t.mem a = memRead s.mem a := by
  obtain ⟨n, _, hrun⟩ := run_completes hq he hpos
  refine ⟨n + 1, _, hrun, rfl, by simp [doneBits], by simp, fun a ha => ?_⟩
  obtain ⟨hop, hregs, _⟩ := moves_fields n r s.mem
  have hwrites : (moves n r s.mem).1.writes s.inst = r.writes s.inst := by rw [Run.writes, hop, hregs, Run.writes]
  rw [State.complete_mem, State.settleBreach_read_other _ (by rwa [hwrites])]
  exact moves_read_other n s.mem hpos ha

/-! ## What stops a run -/

/-- The engine's move goes on with the run or, with no access left, completes it. -/
theorem engineTurn_running_cases {s : State} {r : Run} (he : s.engine = .running r) :
    (∃ u, s.engineTurn.engine = .running u ∧ u.op = r.op ∧ u.regs = r.regs) ∨
    (r.pos = .finished ∧ s.engineTurn.engine = .idle ∧ s.engineTurn.status.done = true) := by
  by_cases hf : r.pos = .finished
  · right
    rw [State.engineTurn_finished he hf, State.complete_eq]
    exact ⟨hf, rfl, rfl⟩
  · left
    exact ⟨r.advance s.mem, by simp only [State.engineTurn, he, hf, if_false], rfl, rfl⟩

/-- No register write touches the engine while it runs (60 R124). -/
theorem writeReg_engine_running {s t : State} {r : Run} {x : Reg} {v : Word} (he : s.engine = .running r)
    (h : s.writeReg x v = .next t) : t.engine = .running r := by
  rcases writeReg_engine_mem h with ⟨_, i, _, hexec⟩ | ⟨hengine, _⟩
  · have hb : s.busy = true := State.busy_eq_true.2 ⟨r, he⟩
    simpa [State.accepts, hb, he] using exec_engine hexec
  · exact hengine.trans he

/-- Another agent's write changes no more of a run than the mark of a breach. -/
theorem Engine.afterForeignWrite_running (r : Run) (p : Instance) (a : Nat) :
    ∃ u, (Engine.running r).afterForeignWrite p a = .running u ∧ u.op = r.op ∧ u.regs = r.regs :=
  ⟨_, rfl, rfl, rfl⟩

end Sys2Proof.Machine

open Sys2Proof.Machine

/-- Settles O5: reset idles the block and frees the write footprint alone; of the other steps only the engine's move can end a
run. -/
theorem resetDuringRun : Obligations.ResetDuringRun := by
  refine ⟨fun s r q hq he => ?asserted, fun s t r hinv he h hn => ?otherwise⟩
  case asserted =>
    exact ⟨_, step_cons hq, rfl, State.readReg_blockReset (s.withQueue q).blockReset_resetBlock, rfl, rfl,
      fun a ha => State.resetBlock_read_other (s := s.withQueue q) he ha⟩
  case otherwise =>
    rcases step_next_cases h with ⟨_, rfl⟩ | ⟨e, q, hq, hact⟩
    · exact engineTurn_running_cases he
    · have he' : (s.withQueue q).engine = .running r := he
      rcases hact with ⟨x, v, _, h⟩ | ⟨_, _, _, rfl⟩ | ⟨b, rfl, rfl⟩ | ⟨a, v, _, h⟩ | ⟨_, _, h⟩ | ⟨_, rfl⟩ | ⟨_, rfl⟩
      · left; exact ⟨r, writeReg_engine_running he' h, rfl, rfl⟩
      · left; exact ⟨r, he, rfl, rfl⟩
      · left
        cases b with
        | true => exact absurd (by simp [State.nextIs, hq]) hn
        | false => rw [State.driveReset_false (s := s.withQueue q) hinv]; exact ⟨r, he, rfl, rfl⟩
      · left
        obtain ⟨_, rfl⟩ := foreignWrite_next h
        rw [he']
        exact Engine.afterForeignWrite_running r _ _
      · left; obtain ⟨_, _, rfl⟩ := foreignRead_next h; exact ⟨r, he, rfl, rfl⟩
      · exact engineTurn_running_cases he'
      · rw [State.waitStep_running (State.busy_eq_true.2 ⟨r, he'⟩)]
        exact engineTurn_running_cases he'

/-- Settles O46: at its end a breached run frees its write footprint alone; broken into now, it is a run one write later. -/
theorem breachedRunCompletes : Obligations.BreachedRunCompletes := by
  refine ⟨fun s r hq he hf _ => ?atEnd, fun s r a v hinv he hq hp hin => ?brokenInto⟩
  case atEnd =>
    refine ⟨_, step_nil hq, ?_⟩
    rw [State.engineTurn_finished he hf]
    exact ⟨rfl, by simp [doneBits], by simp, fun a ha => s.settleBreach_read_other ha⟩
  case brokenInto =>
    obtain ⟨hwf, _, hengine, _⟩ := State.inv_iff.1 hinv
    rw [he] at hengine
    obtain ⟨_, _, _, hpos⟩ := Run.ok_iff.1 hengine
    have hstep := step_memWrite hp hq
    rw [he, Engine.afterForeignWrite_inside hin] at hstep
    obtain ⟨n, t, hrun, hidle, hdone, hopnd, hmem⟩ := run_completes_read_other (r := { r with breached := true })
      (s := { s.withQueue [] with
        mem := memWrite s.mem a.toNat v, engine := .running { r with breached := true } }) rfl rfl hpos
    exact ⟨n + 1, t, (run_next hstep n).trans hrun, hidle, hdone, hopnd,
      fun b hb => (hmem b hb).trans (memRead_memWrite_toNat hwf a v b)⟩

end

/-! How many accesses a run makes, and of which bytes (70 R153), in any memory and with no contract between source and
destination. -/
section
namespace Sys2Proof.Machine

/-! ## Reads, writes and moves -/

/-- Every access is a read or a write. -/
theorem length_readAddrs_add_length_writeAddrs (l : List Access) :
    (l.filterMap Access.readAddr?).length + (l.filterMap Access.writeAddr?).length = l.length := by
  induction l with
  | nil => rfl
  | cons a l ih =>
    cases a <;> simp only [List.filterMap_cons, Access.readAddr?, Access.writeAddr?, List.length_cons] <;> omega

/-- A move makes at most one access (20 R46). -/
theorem length_trace_le (n : Nat) (r : Run) (m : Memory) : (r.trace n m).length ≤ n := by
  induction n generalizing r m with
  | zero => exact le_refl _
  | succ n ih =>
    have hmove : r.access.toList.length ≤ 1 := by cases r.access <;> simp
    have := ih (r.advance m) (portMem m r.access)
    rw [Run.trace, List.length_append]
    omega

/-- The reads and the writes of a run are at most its moves, the completion not among them. -/
theorem length_readAddrs_add_length_writeAddrs_le (p : Instance) (i : Instr) (o : OperandRegs) (m : Memory) :
    ((commandTrace p i o m).filterMap Access.readAddr?).length +
      ((commandTrace p i o m).filterMap Access.writeAddr?).length ≤ commandMoves p i o - 1 := by
  rw [length_readAddrs_add_length_writeAddrs, commandTrace_eq]
  exact length_trace_le _ _ _

/-! ## DECODE -/

theorem length_readAddrs_decode (p : Instance) (o : OperandRegs) (m : Memory) :
    ((commandTrace p .decode o m).filterMap Access.readAddr?).length = 4 * (o.heightRows * (o.widthPixels / 8)) :=
  (decodeReads_perm_readAddrs p o m).length_eq.symm.trans (length_decodeReads o)

/-- Eight of the twelve moves of a byte column are no reads. -/
theorem length_writeAddrs_decode_le (p : Instance) (o : OperandRegs) (m : Memory) :
    ((commandTrace p .decode o m).filterMap Access.writeAddr?).length ≤ o.widthPixels * o.heightRows := by
  have hmoves : commandMoves p .decode o - 1 = 12 * (o.heightRows * (o.widthPixels / 8)) := by
    rw [Nat.mul_comm o.heightRows, ← Nat.mul_assoc]; rfl
  have htotal := length_readAddrs_add_length_writeAddrs_le p .decode o m
  rw [length_readAddrs_decode, hmoves] at htotal
  calc ((commandTrace p .decode o m).filterMap Access.writeAddr?).length
    _ ≤ 8 * (o.heightRows * (o.widthPixels / 8)) := by omega
    _ = 8 * (o.widthPixels / 8) * o.heightRows := by ring
    _ ≤ o.widthPixels * o.heightRows := Nat.mul_le_mul_right _ (Nat.mul_div_le _ _)

/-! ## DRAWTILE -/

theorem length_readAddrs_drawtile (p : Instance) (o : OperandRegs) (m : Memory) :
    ((commandTrace p .drawtile o m).filterMap Access.readAddr?).length = (clipTile p o).rows * (clipTile p o).bytes := by
  rw [readAddrs_drawtile]
  simp [drawReads, List.length_flatMap]

/-- Two of the three moves of a packed byte are no reads. -/
theorem length_writeAddrs_drawtile_le (p : Instance) (o : OperandRegs) (m : Memory) :
    ((commandTrace p .drawtile o m).filterMap Access.writeAddr?).length ≤
      2 * ((clipTile p o).rows * (clipTile p o).bytes) := by
  have hmoves : commandMoves p .drawtile o - 1 = 3 * ((clipTile p o).rows * (clipTile p o).bytes) := by
    rw [Nat.mul_comm (clipTile p o).rows, ← Nat.mul_assoc]; rfl
  have htotal := length_readAddrs_add_length_writeAddrs_le p .drawtile o m
  rw [length_readAddrs_drawtile, hmoves] at htotal
  omega

/-- The drawn part of a tile has at most the tile's 16 rows of 8 bytes (42 R114). -/
theorem rows_mul_bytes_le (p : Instance) (o : OperandRegs) : (clipTile p o).rows * (clipTile p o).bytes ≤ 128 := by
  rcases clip_bounds p o with ⟨_, hrows, _, hbytes⟩ | ⟨hrows, _⟩
  · exact Nat.mul_le_mul hrows hbytes
  · simp [hrows]

/-! ## TILECONV -/

section Tileconv

/-- The filter asks a write for its address alone. -/
def ValueBlind {β : Type} (g : Access → Option β) : Prop := ∀ a v w, g (.write a v) = g (.write a w)

theorem valueBlind_readAddr? : ValueBlind Access.readAddr? := fun _ _ _ => rfl

theorem valueBlind_writeAddr? : ValueBlind Access.writeAddr? := fun _ _ _ => rfl

/-- The three accesses of a pair in any memory (41 R101). -/
theorem trace_tilePair_anyMemory {r : Run} (h : r.op = .tileconv) (m : Memory) (y xb : Nat) (b : Planes) {k : Nat}
    (hk : k < 4) : ∃ v w, (r.at (.pixel y xb (2 * k) b)).trace 3 m =
      [.write (busAddr (tileDst r.regs y xb (2 * k))) v, .read (busAddr (tileDst r.regs y xb (2 * k))),
       .write (busAddr (tileDst r.regs y xb (2 * k))) w] := by
  have e0 : tilePx xb (2 * k) % 2 = 0 := by simp only [tilePx, Config.pixPerByte]; omega
  have e1 : ¬ tilePx xb (2 * k + 1) % 2 = 0 := by simp only [tilePx, Config.pixPerByte]; omega
  have hnext : 2 * k + 1 < 8 := by omega
  simp [Run.trace, Run.advance, Run.access, Run.nextPos, Run.nextPixel, Run.pixelAccess, h, e0, e1, hnext, tileDst_odd]

variable {β : Type} {g : Access → Option β} (hg : ValueBlind g)
include hg

theorem filterMap_trace_tilePair {r : Run} (h : r.op = .tileconv) (m : Memory) (y xb : Nat) (b b' : Planes) {k : Nat}
    (hk : k < 4) : ((r.at (.pixel y xb (2 * k) b)).trace 3 m).filterMap g =
      (pairAccesses r.regs y xb k b').filterMap g := by
  obtain ⟨v, w, hpair⟩ := trace_tilePair_anyMemory h m y xb b hk
  simp only [hpair, pairAccesses, List.filterMap_cons, hg _ v (evenPixel (colour b' (2 * k))),
    hg _ w (oddPixel (evenPixel (colour b' (2 * k))) (colour b' (2 * k + 1)))]

/-- The pairs of a byte column make the same accesses, values apart, whatever planes and memory they find. -/
theorem filterMap_trace_tilePairs {r : Run} (h : r.op = .tileconv) (m : Memory) (y xb : Nat) (b b' : Planes) {n : Nat}
    (hn : n ≤ 4) : ((r.at (.pixel y xb 0 b)).trace (3 * n) m).filterMap g =
      ((List.range n).flatMap fun k => pairAccesses r.regs y xb k b').filterMap g := by
  induction n with
  | zero => rfl
  | succ n ih =>
    rw [Nat.mul_succ, trace_add, moves_tilePairs h _ _ _ _ (by omega), List.filterMap_append, ih (by omega),
      filterMap_trace_tilePair hg h _ y xb b b' (by omega), List.range_succ, List.flatMap_append,
      List.filterMap_append, List.flatMap_singleton]

/-- The accesses of TILECONV, values apart, are those of its byte columns in order. -/
theorem filterMap_commandTrace_tileconv (p : Instance) (o : OperandRegs) (m : Memory) :
    (commandTrace p .tileconv o m).filterMap g =
      (List.range 16).flatMap fun y => (List.range 2).flatMap fun xb => (tileColumnAccesses o m y xb).filterMap g := by
  rw [commandTrace_eq]
  refine trace_loops (r := acceptedRun p .tileconv o) g (tile_columns rfl) (show 0 < 2 by decide) (P := fun _ => True)
    (fun _ _ _ _ _ _ => trivial) (fun y xb m' _ _ _ => ?_) trivial
  rw [show 16 = 4 + 3 * 4 from rfl, trace_add, moves_planes, trace_planes, tileColumnAccesses, List.filterMap_append,
    List.filterMap_append, filterMap_trace_tilePairs hg rfl m' y xb _ (readPlanes (tileLayout o) m y xb) (le_refl 4)]
  rfl

end Tileconv

/-- The plane reads of all byte columns are those of the source bytes, each once (20 R40). -/
theorem planarFootprint_perm_planeReadAddrs {l : PlanarLayout} (hps : l.planeSize = l.rows * l.bytesPerRow)
    (hnodup : (planarFootprint l).Nodup) : (planarFootprint l).Perm
      ((List.range l.rows).flatMap fun y => (List.range l.bytesPerRow).flatMap (planeReadAddrs l y)) := by
  refine (List.subperm_of_subset hnodup fun a ha => ?_).perm_of_length_le ?_
  · obtain ⟨k, hk, rfl⟩ := List.mem_map.1 ha
    obtain ⟨q, y, xb, hq, hy, hx, e⟩ := exists_planeAddr hps (List.mem_range.1 hk)
    exact List.mem_flatMap.2 ⟨y, List.mem_range.2 hy, List.mem_flatMap.2 ⟨xb, List.mem_range.2 hx,
      List.mem_map.2 ⟨q, List.mem_range.2 hq, congrArg busAddr e⟩⟩⟩
  · simp only [planarFootprint, List.length_map, List.length_range, List.length_flatMap, length_planeReadAddrs,
      List.map_const', List.sum_replicate, smul_eq_mul, hps, Config.planes]
    exact le_of_eq (by ring)

/-- TILECONV reads its source bytes and its destination bytes, each once. -/
theorem readAddrs_tileconv_perm (p : Instance) (o : OperandRegs) (m : Memory) :
    ((commandTrace p .tileconv o m).filterMap Access.readAddr?).Perm (tileReads o ++ tileWrites o) := by
  rw [filterMap_commandTrace_tileconv valueBlind_readAddr?]
  simp only [readAddrs_tileColumn]
  have hcolumns (y : Nat) := List.flatMap_append_perm (List.range 2) (planeReadAddrs (tileLayout o) y) (pairAddrs o y)
  have hrows := List.flatMap_append_perm (List.range 16)
    (fun y => (List.range 2).flatMap (planeReadAddrs (tileLayout o) y)) fun y => (List.range 2).flatMap (pairAddrs o y)
  rw [flatMap_pairAddrs] at hrows
  refine (List.Perm.flatMap_left _ fun y _ => (hcolumns y).symm).trans (hrows.symm.trans ?_)
  exact ((planarFootprint_perm_planeReadAddrs (l := tileLayout o) rfl (nodup_tileReads o)).symm).append_right _

/-- TILECONV writes each of its 128 destination bytes twice. -/
theorem length_writeAddrs_tileconv (p : Instance) (o : OperandRegs) (m : Memory) :
    ((commandTrace p .tileconv o m).filterMap Access.writeAddr?).length = 256 := by
  rw [filterMap_commandTrace_tileconv valueBlind_writeAddr?]
  simp [writeAddrs_tileColumn, List.length_flatMap, pairAddrs, Function.comp_def]

theorem length_tileReads (o : OperandRegs) : (tileReads o).length = 128 := by
  rw [tileReads, planarFootprint, List.length_map, List.length_range]; rfl

theorem length_tileWrites (o : OperandRegs) : (tileWrites o).length = 128 := by
  rw [tileWrites, List.length_map, List.length_range]

end Sys2Proof.Machine

open Sys2Proof Sys2Proof.Machine

/-- Settles O41: the reads of each command are those of its footprint, and the moves that are no reads bound the writes. -/
theorem accessCounts : Obligations.AccessCounts := by
  intro p o m
  have hperm := readAddrs_tileconv_perm p o m
  refine ⟨length_readAddrs_decode p o m, length_writeAddrs_decode_le p o m, hperm, ?_, length_writeAddrs_tileconv p o m,
    length_readAddrs_drawtile p o m, rows_mul_bytes_le p o, length_writeAddrs_drawtile_le p o m⟩
  rw [hperm.length_eq, List.length_append, length_tileReads, length_tileWrites]

end
